-- ==== Sys2Proof/Word.lean ====
section
/-! DEFINITION. The word type of the block: every stored quantity is one byte (R42). -/

namespace Sys2Proof

/-- One 8-bit byte: a PCM sample, a packed byte, or a code held one to a byte (R42, R45). -/
abbrev Byte := BitVec 8

end Sys2Proof
end

