-- ==== Sys2Proof/Config.lean ====
section
/-! DEFINITION. What a realisation fixes (R4) and the free values. Every constant below that is marked
opaque has no body: no proof can see a value of it, so what is proved holds for every value. -/

namespace Sys2Proof

/-- The two 24-entry tables of the 2-bit codec (R14): `delta` is `TBL.DELTA`, `adj` is `TBL.ADJ`, each entry a
signed integer of unbounded width (D20). -/
structure Tables where
  delta : Vector Int 24
  adj   : Vector Int 24
  deriving DecidableEq, Repr, Inhabited

/-- The OPEN parameters of R4 other than the tables. `hasEncx`, `hasEncs`, `hasEnct` are `ENGINES`; `maxComb` is
`MAX_COMB`; `pad4` and `pad2` are `PAD_CODE` for the two widths, each in range by its type (D12).
DESIGN CHOICE (log 10): one pad code for each width, of which a realisation's single `PAD_CODE` is a special case. -/
structure Params where
  hasEncx : Bool
  hasEncs : Bool
  hasEnct : Bool
  maxComb : Nat
  pad4    : BitVec 4
  pad2    : BitVec 2
  deriving DecidableEq, Repr, Inhabited

/-- The contents of the two tables: not in the source (N2), so no value of them is known here (R183, log 1). -/
opaque Config.tables : Tables

/-- The OPEN parameters of the block as built (R4, log 1). -/
opaque Config.params : Params

/-- `COMBO_MSD_FIRST`: the first code of a group is the most significant digit of the combination index
(decided true, R203, D14; log 11). -/
def Config.comboMsdFirst : Bool := true

/-- The random source `pick` of ENCT (R20): for the draw named by the first argument, PCM position, slot and pool
size, any number; the trellis takes it modulo the pool size. Under no law (U15, log 9). -/
opaque Config.pick : Nat → Nat → Nat → Nat → Nat

/-- The name of the draw that the next ENCT takes after a hardware reset, which the spec leaves open (R30, R320; log 22). -/
opaque Config.freeDraw : Nat → Nat

/-- The byte in `PREV` while it has no value (R30; log 6, log 7). -/
opaque Config.freePrev : Nat → Byte

/-- Which of the four legal values `ACC` holds after an error: 2 to this power (R290, R31; log 7). -/
opaque Config.freeAcc : Nat → Fin 4

/-- `SCALE` after an error (R290; log 7). -/
opaque Config.freeScale : Nat → Byte

/-- `POS` after an error (R290; log 7). -/
opaque Config.freePos : Nat → Nat

/-- `UNIT` after an error (R290; log 7). -/
opaque Config.freeUnit : Nat → Fin 4

/-- `PKB` after an error (R290; log 7). -/
opaque Config.freePkb : Nat → Byte

/-- `PKN` after an error (R290; log 7). -/
opaque Config.freePkn : Nat → Fin 4

end Sys2Proof
end

