-- ==== Sys2Proof/Syntax.lean ====
section
/-! DEFINITION. The instructions of the block: one constructor for each row of spec/opcode_table.json (R80, R76).
No instruction has an operand field: a code names no register (10_state section 2), and an operation takes its operands from the
operand registers (R100). -/

namespace Sys2Proof

/-- The 16 four-bit codes, the 4 two-bit codes and the 6 operations. -/
inductive Instr where
  | m0 | m1 | m2 | m3 | m4 | m5 | m6 | m7
  | p0 | p1 | p2 | p3 | p4 | p5 | p6 | p7
  | s0 | s1 | s2 | s3
  | pack | unpack | decode | encx | encs | enct
  deriving DecidableEq, Repr

end Sys2Proof
end

