-- ==== Sys2Proof/WellFormed.lean ====
section
/-! DEFINITION. Which instructions are well formed under a code width `W`. The constructors carry no fields, so the
only check is that of the one decoding mode (R83): a 4-bit code exists only under `W = 4`, a 2-bit code only under
`W = 2`, and an operation is defined only for its widths (R82, R235, R260). -/

namespace Sys2Proof

/-- The formats of R70 that carry an instruction. -/
inductive Format where
  | n4
  | n2
  | op
  deriving DecidableEq, Repr

/-- The format of each instruction (R70, opcode table). -/
def Instr.format : Instr → Format
  | .m0 | .m1 | .m2 | .m3 | .m4 | .m5 | .m6 | .m7 => .n4
  | .p0 | .p1 | .p2 | .p3 | .p4 | .p5 | .p6 | .p7 => .n4
  | .s0 | .s1 | .s2 | .s3 => .n2
  | .pack | .unpack | .decode | .encx | .encs | .enct => .op

/-- The operations defined for the 16-code alphabet only (R235, R260). -/
def Instr.needsWidth4 : Instr → Bool
  | .encs | .enct => true
  | .m0 | .m1 | .m2 | .m3 | .m4 | .m5 | .m6 | .m7 => true
  | .p0 | .p1 | .p2 | .p3 | .p4 | .p5 | .p6 | .p7 => true
  | .s0 | .s1 | .s2 | .s3 => false
  | .pack | .unpack | .decode | .encx => false

/-- Well-formedness under the width `w`: the width is legal (R77), and the instruction exists under it (R83, R82). -/
def Instr.wellFormed (w : Nat) (i : Instr) : Bool :=
  match i.format with
  | .n4 => w == 4
  | .n2 => w == 2
  | .op => w == 4 || (w == 2 && !i.needsWidth4)

end Sys2Proof
end

