-- ==== Sys2Proof/Decode.lean ====
section
/-! DEFINITION. The decoder, total on any bits and rejecting by name, and the encoder: the formats `N4`, `N2`, `B4`, `B2`
and `OP` of 30_encoding.md, and the order of units within a byte (R41). -/

namespace Sys2Proof

/-- `cpb(W)`, codes to a byte (R4): 2 for width 4, 4 for width 2; no other width has codes. -/
def cpb : Nat → Nat
  | 4 => 2
  | 2 => 4
  | _ => 0

/-- `base(W)`, the size of the code alphabet (R4). -/
def base : Nat → Nat
  | 4 => 16
  | 2 => 4
  | _ => 0

/-- `unit(x, u, W)`, the unit of index `u` of a packed byte, unit 0 the most significant (R41). -/
def unitField (x : Byte) (u w : Nat) : Byte :=
  (x >>> (8 - w * (u + 1))) &&& BitVec.ofNat 8 (2 ^ w - 1)

/-- A packed byte that holds the code `c` in unit `u` and zeros elsewhere (R73, R74). -/
def placeUnit (c : Byte) (u w : Nat) : Byte :=
  c <<< (8 - w * (u + 1))

/-- Why bits are no instruction. -/
inductive DecodeReject where
  /-- `W = 3`, the declared and unimplemented 3-bit format (R82, R286). -/
  | threeBitFormat
  /-- a width that is not 2, 3 or 4 (R82, R284). -/
  | illegalWidth
  /-- a unit index that is not below `cpb(W)` (R25, R41). -/
  | unitOutOfRange
  /-- the selectors 6 and 7 (R76, R82). -/
  | reservedSelector
  deriving DecidableEq, Repr

/-- What the decoder answers. -/
inductive Decoded where
  | instr (i : Instr)
  | rejected (why : DecodeReject)
  deriving DecidableEq, Repr

/-- The instruction, where there is one. -/
def Decoded.toOption : Decoded → Option Instr
  | .instr i => some i
  | .rejected _ => none

/-- Format `N4`: all 16 values are legal (R71, R80, R81). -/
def decode4 (n : BitVec 4) : Instr :=
  match n.toNat with
  | 0 => .m0
  | 1 => .m1
  | 2 => .m2
  | 3 => .m3
  | 4 => .m4
  | 5 => .m5
  | 6 => .m6
  | 7 => .m7
  | 8 => .p0
  | 9 => .p1
  | 10 => .p2
  | 11 => .p3
  | 12 => .p4
  | 13 => .p5
  | 14 => .p6
  | _ => .p7

/-- Format `N2`: all 4 values are legal (R72, R80, R81). -/
def decode2 (c : BitVec 2) : Instr :=
  match c.toNat with
  | 0 => .s0
  | 1 => .s1
  | 2 => .s2
  | _ => .s3

/-- Format `OP`: the selector `OPSEL` (R76). -/
def decodeOp (sel : BitVec 3) : Decoded :=
  match sel.toNat with
  | 0 => .instr .pack
  | 1 => .instr .unpack
  | 2 => .instr .decode
  | 3 => .instr .encx
  | 4 => .instr .encs
  | 5 => .instr .enct
  | _ => .rejected .reservedSelector

/-- The code that stands in unit `u` of the packed byte `x` under the width `w` (R83, R41). -/
def decodeUnit (w : Nat) (x : Byte) (u : Nat) : Decoded :=
  if w = 4 then
    if u < cpb 4 then .instr (decode4 ((unitField x u 4).setWidth 4)) else .rejected .unitOutOfRange
  else if w = 2 then
    if u < cpb 2 then .instr (decode2 ((unitField x u 2).setWidth 2)) else .rejected .unitOutOfRange
  else if w = 3 then .rejected .threeBitFormat
  else .rejected .illegalWidth

/-- All codes of one packed byte, in stream order (R41). -/
def decodeByte (w : Nat) (x : Byte) : List Decoded :=
  (List.range (cpb w)).map (decodeUnit w x)

/-- All codes of a sequence of packed bytes, in stream order (R41, R103). -/
def decodeBytes (w : Nat) (xs : List Byte) : List Decoded :=
  xs.flatMap (decodeByte w)

/-- The bits of an instruction in its own format (R70). -/
inductive CodeWord where
  | n4 (bits : BitVec 4)
  | n2 (bits : BitVec 2)
  | op (bits : BitVec 3)
  deriving DecidableEq, Repr

/-- The decoder on a word of a known format. -/
def decodeWord : CodeWord → Decoded
  | .n4 n => .instr (decode4 n)
  | .n2 c => .instr (decode2 c)
  | .op sel => decodeOp sel

/-- The encoder: the bits of every instruction (R80, R76). -/
def encode : Instr → CodeWord
  | .m0 => .n4 0b0000#4
  | .m1 => .n4 0b0001#4
  | .m2 => .n4 0b0010#4
  | .m3 => .n4 0b0011#4
  | .m4 => .n4 0b0100#4
  | .m5 => .n4 0b0101#4
  | .m6 => .n4 0b0110#4
  | .m7 => .n4 0b0111#4
  | .p0 => .n4 0b1000#4
  | .p1 => .n4 0b1001#4
  | .p2 => .n4 0b1010#4
  | .p3 => .n4 0b1011#4
  | .p4 => .n4 0b1100#4
  | .p5 => .n4 0b1101#4
  | .p6 => .n4 0b1110#4
  | .p7 => .n4 0b1111#4
  | .s0 => .n2 0b00#2
  | .s1 => .n2 0b01#2
  | .s2 => .n2 0b10#2
  | .s3 => .n2 0b11#2
  | .pack => .op 0b000#3
  | .unpack => .op 0b001#3
  | .decode => .op 0b010#3
  | .encx => .op 0b011#3
  | .encs => .op 0b100#3
  | .enct => .op 0b101#3

/-- The bits of a word, zero-extended to a byte. -/
def CodeWord.toByte : CodeWord → Byte
  | .n4 n => n.setWidth 8
  | .n2 c => c.setWidth 8
  | .op sel => sel.setWidth 8

/-- A code stored in unit `u` of a packed byte whose other units are those of `x` (R73, R74). -/
def encodeUnit (w : Nat) (x : Byte) (u : Nat) (i : Instr) : Byte :=
  (x &&& ~~~(placeUnit (BitVec.ofNat 8 (2 ^ w - 1)) u w)) ||| placeUnit (encode i).toByte u w

/-- The instruction of a word of the opcode table. The three formats are told apart by their length in bits, 4, 2
and 3 (R70): the bits alone do not tell them apart (R83). A code is laid out as the block stores it, in the most
significant unit of a byte with the units after it zero (R41). DESIGN CHOICE (log 15): a length given in whole bytes, 8, is
read as the format `N4`. -/
def decodeTableWord (nbits w : Nat) : Option Instr :=
  match nbits with
  | 2 => if w < 4 then (decodeUnit 2 (placeUnit (BitVec.ofNat 8 w) 0 2) 0).toOption else none
  | 3 => if w < 8 then (decodeOp (BitVec.ofNat 3 w)).toOption else none
  | 4 => if w < 16 then (decodeUnit 4 (placeUnit (BitVec.ofNat 8 w) 0 4) 0).toOption else none
  | 8 => if w < 16 then (decodeUnit 4 (placeUnit (BitVec.ofNat 8 w) 0 4) 0).toOption else none
  | _ => none

end Sys2Proof
end

