-- ==== Sys2Proof/Machine/State.lean ====
section
/-! DEFINITION. The state of the block as plain data (10_state.md), its errors, the reasons a step can stop, and the state
after hardware reset (R30, R320). -/

namespace Sys2Proof.Machine

/-- A byte space of the block (`IN` or `OUT`, R40): the bytes that have a value, addresses strictly rising. A byte
that is not listed has no value (R30, R322; log 14). -/
abbrev Memory := List Host.Cell

/-- The state of the 4-bit decoder (R140): `PREV` and `ACC`. -/
structure Dec4 where
  prev : Byte
  acc  : BitVec 4
  deriving DecidableEq, Repr

/-- The state of the 2-bit decoder (R180): `PREV` and `SCALE`. -/
structure Dec2 where
  prev  : Byte
  scale : Byte
  deriving DecidableEq, Repr

/-- A decoder state snapshot: of the codec that the operation runs (R27). -/
inductive Snapshot where
  | four (d : Dec4)
  | two (d : Dec2)
  deriving DecidableEq, Repr

/-- A branch of an encoder (R27): decoder state snapshot, codes emitted so far (one to a byte, first code first) and
cumulative squared error, a natural number of unbounded width (D19). -/
structure Branch where
  state : Snapshot
  hist  : List Byte
  err   : Nat
  deriving DecidableEq, Repr

/-- The error kinds (R283). -/
inductive Err where
  | invalidCodeWidth
  | emptyInput
  | unsupportedFormat
  | groupSizeTooLarge
  | protocolError
  deriving DecidableEq, Repr

/-- The six operations (R76), as the checks of R101 speak of them. -/
inductive Operation where
  | pack | unpack | decode | encx | encs | enct
  deriving DecidableEq, Repr

/-- The operand registers that the host writes (R323). -/
inductive OperandReg where
  | opsel | w | g | b | nr | inLen
  deriving DecidableEq, Repr

/-- Which operand registers have a value, that is, were written since reset (R30, R322). -/
structure Written where
  opsel : Bool
  w     : Bool
  g     : Bool
  b     : Bool
  nr    : Bool
  inLen : Bool
  deriving DecidableEq, Repr

/-- The state of the block (R10). The last four fields are the model's own: `has` is the "no value" of R30 as
data; `cfg` is the block's parameters, which no step changes (R32, log 1); `draw` names the draw `pick` of the next
ENCT (R20, log 9); `free` counts the free values taken (log 6). -/
structure State where
  /-- `PREV` (R11). -/
  prev     : Byte
  /-- whether `PREV` has a value (R30). -/
  prevSet  : Bool
  /-- `ACC` (R12). -/
  acc      : BitVec 4
  /-- `SCALE` (R13). -/
  scale    : Byte
  /-- `TBL.DELTA` and `TBL.ADJ` (R14). -/
  tbl      : Tables
  /-- `W` (R15). -/
  w        : Nat
  /-- `OPSEL` (R16). -/
  opsel    : BitVec 3
  /-- `G` (R17). -/
  g        : Nat
  /-- `B` (R18). -/
  b        : Nat
  /-- `NR` (R19). -/
  nr       : Nat
  /-- `IN` (R21). -/
  inMem    : Memory
  /-- `INLEN` (R21). -/
  inLen    : Nat
  /-- `OUT` (R22). -/
  outMem   : Memory
  /-- `OUTLEN` (R22). -/
  outLen   : Nat
  /-- `DONE` (R23). -/
  done     : Bool
  /-- `ERR` (R24). -/
  err      : BitVec 3
  /-- `POS` (R25). -/
  pos      : Nat
  /-- `UNIT` (R25). -/
  unit     : Nat
  /-- `PKB` (R26). -/
  pkb      : Byte
  /-- `PKN` (R26). -/
  pkn      : Nat
  /-- the branch store (R27). -/
  branches : List Branch
  /-- which operand registers have a value (R30). -/
  has      : Written
  /-- the parameters of R4. -/
  cfg      : Params
  /-- the name of the current draw `pick` (R20). -/
  draw     : Nat
  /-- the number of the next free value. -/
  free     : Nat
  deriving DecidableEq, Repr

/-- What stops the machine as a fault. -/
inductive Fault where
  /-- Raised by `step` (Machine/Step.lean) when a running DECODE stands at no code: its `W` or `UNIT` is one that R31
  excludes while an operation runs. Safe: no run reaches it (log 18). -/
  | notAtACode (why : DecodeReject)
  deriving DecidableEq, Repr

/-- What the model has no step for. -/
inductive Refusal where
  /-- Raised only by an arm of `exec` for an instruction without a meaning yet. Safe. -/
  | notModelled (mnemonic : String)
  /-- Raised by `step` for `OPSEL`, and by every operation, when `START` reads an operand register that has no
  value: "the operation has no defined result: a model refuses it (no step), it does not pick zero" (R322; also R30, D10, U8, V45).
  Safe (log 5). -/
  | noValue (r : OperandReg)
  /-- Raised by every operation and by the code fetch when a byte of `IN` that is read has no value (R322). Safe (log 5). -/
  | noValueByte (addr : Nat)
  /-- Raised by `step` when an operation other than DECODE is found running: the spec gives it no intermediate state
  (R23, R100). Safe: no run reaches it (log 18). -/
  | midOperation
  /-- Raised by the host's writes (Machine/HostPort.lean) while an operation runs: the spec has no move for it (R52, R327,
  U16). Safe (log 16). -/
  | hostWhileBusy
  deriving DecidableEq, Repr

/-- Nothing written yet (R30). -/
def Written.none : Written :=
  { opsel := false, w := false, g := false, b := false, nr := false, inLen := false }

/-- The block right after hardware reset (R30, R320): `DONE = 1`, `ERR = 0`, `OUTLEN = 0`, `ACC = 1`, `SCALE = 0`,
`POS = UNIT = PKB = PKN = 0`, the branch store empty, nothing else with a value. DESIGN CHOICE (log 4): a register with no value
holds 0 and is marked as unwritten. -/
def State.reset : State where
  prev     := 0
  prevSet  := false
  acc      := 1
  scale    := 0
  tbl      := Config.tables
  w        := 0
  opsel    := 0
  g        := 0
  b        := 0
  nr       := 0
  inMem    := []
  inLen    := 0
  outMem   := []
  outLen   := 0
  done     := true
  err      := 0
  pos      := 0
  unit     := 0
  pkb      := 0
  pkn      := 0
  branches := []
  has      := Written.none
  cfg      := Config.params
  draw     := 0
  free     := 0

end Sys2Proof.Machine
end

