-- ==== Sys2Proof/Machine/Flags.lean ====
section
/-! DEFINITION. Status. The block has no condition flags (R28); its status bits are `DONE` and `ERR` (R23, R24), and `ERR` holds
the numbers below. -/

namespace Sys2Proof.Machine

/-- The number of each error in `ERR` (R283, R24). -/
def errCode : Err → BitVec 3
  | .invalidCodeWidth => 1
  | .emptyInput => 2
  | .unsupportedFormat => 3
  | .groupSizeTooLarge => 4
  | .protocolError => 5

/-- The number of success in `ERR` (R24, R283). -/
def errNone : BitVec 3 := 0

end Sys2Proof.Machine
end

