-- ==== Sys2Proof/Machine/Operands.lean ====
section
/-! DEFINITION. Operand assembly and integer laws: the fields of a code (R78, R79), the clamp, the magnitude and the
adaptation of `ACC` (R142, R144), the table index (R182), the squared difference (R205). The block has no other operand form (R105). -/

namespace Sys2Proof.Machine

/-- `clamp(v, lo, hi)` (00_scope section 5). -/
def clamp (v lo hi : Int) : Int :=
  if v < lo then lo else if v > hi then hi else v

/-- The sample that a sum saturates to (R143, R184). -/
def clampByte (v : Int) : Byte :=
  BitVec.ofInt 8 (clamp v 0 255)

/-- `data = n[2:0]` of a 4-bit code (R71, R78). -/
def codeData (n : BitVec 4) : Nat :=
  n.toNat % 8

/-- `sgn` of a 4-bit code: +1 when `n[3] = 1`, else -1 (R71, R78, R141). UNVERIFIED against a chip (G3, log 17). -/
def codeSgn (n : BitVec 4) : Int :=
  if n.getLsbD 3 then 1 else -1

/-- `delta = data * ACC + ACC / 2` (R141, R142). -/
def codeDelta (data : Nat) (acc : BitVec 4) : Nat :=
  data * acc.toNat + acc.toNat / 2

/-- `ACC` after a step, from `data` and the old `ACC` alone (R141, R144). -/
def adaptAcc (data : Nat) (acc : BitVec 4) : BitVec 4 :=
  if data = 0 ∧ 1 < acc.toNat then BitVec.ofNat 4 (acc.toNat / 2)
  else if 5 ≤ data ∧ acc.toNat < 8 then BitVec.ofNat 4 (acc.toNat * 2)
  else acc

/-- `idx = clamp(s + SCALE, 0, 23)`, the sum an integer that does not wrap (R79, R182). -/
def tableIndex (c : BitVec 2) (scale : Byte) : Fin 24 :=
  ⟨min (c.toNat + scale.toNat) 23, by omega⟩

/-- `(SCALE + adj) mod 256` (R184). -/
def addScale (scale : Byte) (adj : Int) : Byte :=
  BitVec.ofInt 8 ((scale.toNat : Int) + adj)

/-- `sq(v - target)` of two samples (R205). -/
def sqDiff (v target : Byte) : Nat :=
  ((v.toNat : Int) - (target.toNat : Int)).natAbs ^ 2

/-- `PAD_CODE` for the width, one code to a byte (R123, D12). -/
def padCode (p : Params) (w : Nat) : Byte :=
  if w = 4 then p.pad4.setWidth 8 else p.pad2.setWidth 8

end Sys2Proof.Machine
end

