-- ==== Sys2Proof/Machine/Ops.lean ====
section
/-! DEFINITION. The named operations over memory and registers: one-byte reads and writes, `emit`, the sequencer's advance,
seeding, `push` and `flush`, the start of an operation, its successful end, and raising an error (the block's only
exception, R290); there is no return from one (R293). -/

namespace Sys2Proof.Machine

/-- `MemRead(sp, a, 1)`: the byte at address `a`, none where it has no value (R40, R322). -/
def Memory.read : Memory → Nat → Option Byte
  | [], _ => none
  | (k, x) :: rest, a => if k = a then some x else Memory.read rest a

/-- `MemWrite(sp, a, 1, v)`, keeping the canonical form. -/
def Memory.write : Memory → Nat → Byte → Memory
  | [], a, v => [(a, v)]
  | (k, x) :: rest, a, v =>
    if a < k then (a, v) :: (k, x) :: rest
    else if a = k then (a, v) :: rest
    else (k, x) :: Memory.write rest a v

/-- The canonical form: addresses strictly rising. (An unlisted byte has no value, which no entry equals.) -/
def Memory.wf : Memory → Bool
  | [] => true
  | [_] => true
  | (j, _) :: (k, x) :: rest => decide (j < k) && Memory.wf ((k, x) :: rest)

/-- `IN[0 .. INLEN-1]`, the bytes that an operation reads (R21, R103). -/
def State.inBytes (s : State) : List Byte :=
  (List.range s.inLen).filterMap s.inMem.read

/-- `OUT[0 .. OUTLEN-1]`, the bytes that an operation left (R22). -/
def State.outBytes (s : State) : List Byte :=
  (List.range s.outLen).filterMap s.outMem.read

/-- `emit(v)`: `OUT[OUTLEN] <- v; OUTLEN <- OUTLEN + 1` (00_scope section 5, R105). -/
def State.emit (s : State) (v : Byte) : State :=
  { s with outMem := s.outMem.write s.outLen v, outLen := s.outLen + 1 }

/-- Stand at a code: write `POS` and `UNIT` (R25). -/
def State.setPos (s : State) (pos unit : Nat) : State :=
  { s with pos := pos, unit := unit }

/-- The fixed advance of `(POS, UNIT)` after one code of a byte of `n` codes (R25, R104). -/
def State.advance (s : State) (n : Nat) : State :=
  if s.unit + 1 < n then s.setPos s.pos (s.unit + 1) else s.setPos (s.pos + 1) 0

/-- Seeding with the byte `b` (R140, R180, R102): both codecs' registers are written. -/
def State.seed (s : State) (b : Byte) : State :=
  { s with prev := b, prevSet := true, acc := 1, scale := 0 }

/-- Write a state of the 4-bit decoder to its registers. -/
def State.setDec4 (s : State) (d : Dec4) : State :=
  { s with prev := d.prev, prevSet := true, acc := d.acc }

/-- Write a state of the 2-bit decoder to its registers. -/
def State.setDec2 (s : State) (d : Dec2) : State :=
  { s with prev := d.prev, prevSet := true, scale := d.scale }

/-- Write a snapshot to the registers of its codec: the last line of the encoders (R200, R250). -/
def State.setSnapshot (s : State) : Snapshot → State
  | .four d => s.setDec4 d
  | .two d => s.setDec2 d

/-- Replace the branch store (R27). -/
def State.setBranches (s : State) (l : List Branch) : State :=
  { s with branches := l }

/-- Name the draw `pick` of the next ENCT (R20, log 9). -/
def State.setDraw (s : State) (n : Nat) : State :=
  { s with draw := n }

/-- Write the packer's registers `PKB` and `PKN` (R26). -/
def State.setPacker (s : State) (x : Byte) (n : Nat) : State :=
  { s with pkb := x, pkn := n }

/-- `push(c)` of the packer (R121). -/
def State.push (s : State) (c : Byte) : State :=
  let byte := (s.pkb <<< s.w) ||| c
  if s.pkn + 1 = cpb s.w then (s.emit byte).setPacker 0 0
  else s.setPacker byte (s.pkn + 1)

/-- `push` of every code of a sequence, in order. -/
def State.pushAll (s : State) (codes : List Byte) : State :=
  codes.foldl State.push s

/-- At most `fuel` rounds of the loop of `flush` (R121). -/
def State.flushLoop (s : State) : Nat → State
  | 0 => s
  | fuel + 1 => if s.pkn = 0 then s else (s.push (padCode s.cfg s.w)).flushLoop fuel

/-- `flush()`: push `PAD_CODE` while `PKN` is not 0 (R121, R123). `PKN < cpb(W)` bounds the rounds (R26). -/
def State.flush (s : State) : State :=
  s.flushLoop (cpb s.w)

/-- What `START` does before its checks (R100). `PREV` has no value: a free one (log 6). -/
def State.startInit (s : State) : State :=
  { s with
    done := false, err := errNone, outLen := 0
    prev := Config.freePrev s.free, prevSet := false, acc := 1, scale := 0
    pos := 0, unit := 0, pkb := 0, pkn := 0, branches := []
    free := s.free + 1 }

/-- The successful end of an operation: `ERR <- 0; DONE <- 1` (R100). -/
def State.finishOk (s : State) : State :=
  { s with err := errNone, done := true }

/-- `raise e` (R290): `OUTLEN <- 0; ERR <- code(e); DONE <- 1`, nothing saved and nowhere to go. `PREV`, `ACC`, `SCALE`, `POS`,
`UNIT`, `PKB` and `PKN` "after an error hold no value a host may rely on": free values, `ACC` among its four legal
ones (R31, log 7). The branch store ends with the operation (R27). -/
def State.raiseError (s : State) (e : Err) : State :=
  { s with
    outLen := 0, err := errCode e, done := true
    prev := Config.freePrev s.free, prevSet := false
    acc := BitVec.ofNat 4 (2 ^ (Config.freeAcc s.free).val)
    scale := Config.freeScale s.free
    pos := Config.freePos s.free, unit := (Config.freeUnit s.free).val
    pkb := Config.freePkb s.free, pkn := (Config.freePkn s.free).val
    branches := []
    free := s.free + 1 }

end Sys2Proof.Machine
end

