-- ==== Sys2Proof/Machine/Codec2.lean ====
section
/-! DEFINITION. The 2-bit decoder state machine (43_adpcm2.md): `step2`, the code step, and the four codes. -/

namespace Sys2Proof.Machine

/-- `step2((prev, scale), s)` for the given tables (R181): the next state; the sample emitted is its `prev`. -/
def step2 (tbl : Tables) (d : Dec2) (c : BitVec 2) : Dec2 :=
  { prev := clampByte ((d.prev.toNat : Int) + tbl.delta.get (tableIndex c d.scale))
    scale := addScale d.scale (tbl.adj.get (tableIndex c d.scale)) }

/-- `STEP2(s)` on the block (R181, R185): step, emit the new `PREV`, advance by one unit of a byte of four (R25). It raises
nothing and writes no flag, in any state. -/
def codeStep2 (c : BitVec 2) (s : State) : State :=
  let d := step2 s.tbl { prev := s.prev, scale := s.scale } c
  ((s.setDec2 d).emit d.prev).advance (cpb 2)

/-- `S0`, code 0 (R186). -/
def execS0 (s : State) : Host.Outcome State Fault Refusal := .next (codeStep2 0b00#2 s)

/-- `S1`, code 1 (R187). -/
def execS1 (s : State) : Host.Outcome State Fault Refusal := .next (codeStep2 0b01#2 s)

/-- `S2`, code 2 (R188). -/
def execS2 (s : State) : Host.Outcome State Fault Refusal := .next (codeStep2 0b10#2 s)

/-- `S3`, code 3 (R189). -/
def execS3 (s : State) : Host.Outcome State Fault Refusal := .next (codeStep2 0b11#2 s)

end Sys2Proof.Machine
end

