-- ==== Sys2Proof/Machine/Codec4.lean ====
section
/-! DEFINITION. The 4-bit decoder state machine (42_adpcm4.md): `step4`, the code step, and the sixteen codes. -/

namespace Sys2Proof.Machine

/-- `step4((prev, acc), n)` (R141): the next state; the sample emitted is its `prev`. -/
def step4 (d : Dec4) (n : BitVec 4) : Dec4 :=
  { prev := clampByte ((d.prev.toNat : Int) + codeSgn n * (codeDelta (codeData n) d.acc : Int))
    acc := adaptAcc (codeData n) d.acc }

/-- `STEP4(n)` on the block (R141, R145): step, emit the new `PREV`, advance by one unit of a byte of two (R25). It raises
nothing and writes no flag, in any state. -/
def codeStep4 (n : BitVec 4) (s : State) : State :=
  let d := step4 { prev := s.prev, acc := s.acc } n
  ((s.setDec4 d).emit d.prev).advance (cpb 4)

/-- `M0`, code 0 (R147). -/
def execM0 (s : State) : Host.Outcome State Fault Refusal := .next (codeStep4 0b0000#4 s)

/-- `M1`, code 1 (R148). -/
def execM1 (s : State) : Host.Outcome State Fault Refusal := .next (codeStep4 0b0001#4 s)

/-- `M2`, code 2 (R149). -/
def execM2 (s : State) : Host.Outcome State Fault Refusal := .next (codeStep4 0b0010#4 s)

/-- `M3`, code 3 (R150). -/
def execM3 (s : State) : Host.Outcome State Fault Refusal := .next (codeStep4 0b0011#4 s)

/-- `M4`, code 4 (R151). -/
def execM4 (s : State) : Host.Outcome State Fault Refusal := .next (codeStep4 0b0100#4 s)

/-- `M5`, code 5 (R152). -/
def execM5 (s : State) : Host.Outcome State Fault Refusal := .next (codeStep4 0b0101#4 s)

/-- `M6`, code 6 (R153). -/
def execM6 (s : State) : Host.Outcome State Fault Refusal := .next (codeStep4 0b0110#4 s)

/-- `M7`, code 7 (R154). -/
def execM7 (s : State) : Host.Outcome State Fault Refusal := .next (codeStep4 0b0111#4 s)

/-- `P0`, code 8 (R155). -/
def execP0 (s : State) : Host.Outcome State Fault Refusal := .next (codeStep4 0b1000#4 s)

/-- `P1`, code 9 (R156). -/
def execP1 (s : State) : Host.Outcome State Fault Refusal := .next (codeStep4 0b1001#4 s)

/-- `P2`, code 10 (R157). -/
def execP2 (s : State) : Host.Outcome State Fault Refusal := .next (codeStep4 0b1010#4 s)

/-- `P3`, code 11 (R158). -/
def execP3 (s : State) : Host.Outcome State Fault Refusal := .next (codeStep4 0b1011#4 s)

/-- `P4`, code 12 (R159). -/
def execP4 (s : State) : Host.Outcome State Fault Refusal := .next (codeStep4 0b1100#4 s)

/-- `P5`, code 13 (R160). -/
def execP5 (s : State) : Host.Outcome State Fault Refusal := .next (codeStep4 0b1101#4 s)

/-- `P6`, code 14 (R161). -/
def execP6 (s : State) : Host.Outcome State Fault Refusal := .next (codeStep4 0b1110#4 s)

/-- `P7`, code 15 (R162). -/
def execP7 (s : State) : Host.Outcome State Fault Refusal := .next (codeStep4 0b1111#4 s)

end Sys2Proof.Machine
end

