-- ==== Sys2Proof/Machine/Start.lean ====
section
/-! DEFINITION. `START` (R100): the registers it reads (R322), its checks in their order (R101), the run of an operation's body as
one atomic transition, and its end (R100, R290). Every operation is one call of `start`. -/

namespace Sys2Proof.Machine

/-- Whether the selector names an engine that the block does not have (R101 check 1, D2). -/
def absentEngine (p : Params) : Operation → Bool
  | .encx => !p.hasEncx
  | .encs => !p.hasEncs
  | .enct => !p.hasEnct
  | .pack | .unpack | .decode => false

/-- The operations that read `G` (R17). -/
def usesGroup : Operation → Bool
  | .encx | .encs => true
  | .enct | .pack | .unpack | .decode => false

/-- The operations that read `B` and `NR` (R18, R19). -/
def usesBeam : Operation → Bool
  | .enct => true
  | .encx | .encs | .pack | .unpack | .decode => false

/-- The three encoders. -/
def isEncoder : Operation → Bool
  | .encx | .encs | .enct => true
  | .pack | .unpack | .decode => false

/-- The operations defined for `W = 4` only (R101 check 4). -/
def onlyWidth4 : Operation → Bool
  | .encs | .enct => true
  | .encx | .pack | .unpack | .decode => false

/-- The least `INLEN` of an operation (R101 check 6, R285). -/
def leastInLen : Operation → Nat
  | .decode => 2
  | .encx | .encs | .enct => 1
  | .pack | .unpack => 0

/-- The seven checks of R101 in their order: whether each fails, and the error it then raises. -/
def checks (op : Operation) (s : State) : List (Bool × Err) :=
  [ (absentEngine s.cfg op, .protocolError),
    (s.w == 3, .unsupportedFormat),
    (s.w != 2 && s.w != 4, .invalidCodeWidth),
    (onlyWidth4 op && s.w == 2, .protocolError),
    ((usesGroup op && s.g == 0) || (usesBeam op && (s.b == 0 || decide (s.b < s.nr))), .protocolError),
    (decide (s.inLen < leastInLen op), .emptyInput),
    (usesGroup op && decide (s.cfg.maxComb < base s.w ^ s.g), .groupSizeTooLarge) ]

/-- "The first that fails raises its error and no later check is made" (R101). -/
def firstError : List (Bool × Err) → Option Err
  | [] => none
  | (fails, e) :: rest => if fails then some e else firstError rest

/-- Whether the first `n` checks pass, so that what comes after them is reached. -/
def passes (n : Nat) (op : Operation) (s : State) : Bool :=
  (firstError ((checks op s).take n)).isNone

/-- The first operand register that `START` reads and that has no value (R322). A register is read by the first check that
names it, `INLEN` by check 6 or by the body; an earlier failing check ends the operation before it (R101, log 5). -/
def unwritten (op : Operation) (s : State) : Option OperandReg :=
  if !s.has.w && passes 1 op s then some .w
  else if usesGroup op && !s.has.g && passes 4 op s then some .g
  else if usesBeam op && !s.has.b && passes 4 op s then some .b
  else if usesBeam op && !s.has.nr && passes 4 op s then some .nr
  else if !s.has.inLen && passes 5 op s then some .inLen
  else none

/-- Whether reading this byte ends the operation: PACK stops at its first out-of-range byte (R124). -/
def stopsAt (op : Operation) (w : Nat) (x : Byte) : Bool :=
  match op with
  | .pack => decide (base w ≤ x.toNat)
  | .unpack | .decode | .encx | .encs | .enct => false

/-- The first address of a list, read in order, that has no value, before one whose byte ends the reading. -/
def firstMissing (m : Memory) (stop : Byte → Bool) : List Nat → Option Nat
  | [] => none
  | a :: rest =>
    match m.read a with
    | none => some a
    | some x => if stop x then none else firstMissing m stop rest

/-- The first byte of `IN` that the operation reads and that has no value (R322). An error at `START` comes before any
byte is read (R290). -/
def missingByte (op : Operation) (s : State) : Option Nat :=
  match firstMissing s.inMem (stopsAt op s.w) (List.range s.inLen) with
  | none => none
  | some a => if passes 7 op s then some a else none

/-- How an operation's body ends: at its end, or by raising an error; with the state it left. -/
inductive BodyResult where
  | ok (t : State)
  | raise (e : Err) (t : State)
  deriving DecidableEq, Repr

/-- The end of an operation by the result of its body (R100, R290). -/
def endOperation : BodyResult → State
  | .ok t => t.finishOk
  | .raise e t => t.raiseError e

/-- The transition of one operation whose registers and bytes have values (R100). -/
def runOperation (op : Operation) (body : State → BodyResult) (s : State) : State :=
  match firstError (checks op s) with
  | some e => s.startInit.raiseError e
  | none => endOperation (body s.startInit)

/-- `START` of an operation (R100): refused where it reads what has no value (R322), else one atomic transition. -/
def start (op : Operation) (body : State → BodyResult) (s : State) : Host.Outcome State Fault Refusal :=
  match unwritten op s with
  | some r => .refused (.noValue r)
  | none =>
    match missingByte op s with
    | some a => .refused (.noValueByte a)
    | none => .next (runOperation op body s)

end Sys2Proof.Machine
end

