-- ==== Sys2Proof/Machine/Packer.lean ====
section
/-! DEFINITION. The code packer and unpacker (41_packer.md): the functions `pack` and `unpack` on whole sequences, and the
operations PACK and UNPACK. -/

namespace Sys2Proof.Machine

/-- `pack(codes, 4)` on whole bytes (R120, R73); a code short of a byte is left out. -/
def packWhole4 : List Byte → List Byte
  | c0 :: c1 :: rest => (c0 * 16 + c1) :: packWhole4 rest
  | _ => []

/-- `pack(codes, 2)` on whole bytes (R120, R74); codes short of a byte are left out. -/
def packWhole2 : List Byte → List Byte
  | c0 :: c1 :: c2 :: c3 :: rest => (c0 * 64 + c1 * 16 + c2 * 4 + c3) :: packWhole2 rest
  | _ => []

/-- `pack` on whole bytes, the first code of each byte most significant (R120). -/
def packWhole (w : Nat) (codes : List Byte) : List Byte :=
  if w = 4 then packWhole4 codes else packWhole2 codes

/-- A code sequence extended with the pad code up to a multiple of `cpb(W)` (R123). -/
def padCodes (w : Nat) (pad : Byte) (codes : List Byte) : List Byte :=
  codes ++ List.replicate ((cpb w - codes.length % cpb w) % cpb w) pad

/-- `pack(codes, W)` (R120, R123). -/
def packCodes (w : Nat) (pad : Byte) (codes : List Byte) : List Byte :=
  packWhole w (padCodes w pad codes)

/-- The units of one byte, in stream order (R41). -/
def unitsOf (w : Nat) (x : Byte) : List Byte :=
  (List.range (cpb w)).map (fun u => unitField x u w)

/-- `unpack(bytes, W)` (R126). -/
def unpackBytes (w : Nat) (xs : List Byte) : List Byte :=
  xs.flatMap (unitsOf w)

/-- The loop of PACK over the bytes left (R122): a byte that is no code of the width raises ProtocolError (R124). -/
def packLoop (s : State) : List Byte → BodyResult
  | [] => .ok s.flush
  | c :: rest =>
    if base s.w ≤ c.toNat then .raise .protocolError s
    else packLoop (((s.push c).advance 1)) rest

/-- The body of PACK (R122). -/
def packBody (s : State) : BodyResult :=
  packLoop s s.inBytes

/-- `PACK` (R122). -/
def execPack (s : State) : Host.Outcome State Fault Refusal :=
  start .pack packBody s

/-- Emit one code and advance: the inner statement of UNPACK (R125). -/
def emitUnit (s : State) (c : Byte) : State :=
  (s.emit c).advance (cpb s.w)

/-- The body of UNPACK (R125): one code to an output byte, zero-extended. -/
def unpackBody (s : State) : BodyResult :=
  .ok (s.inBytes.foldl (fun t x => (unitsOf t.w x).foldl emitUnit t) s)

/-- `UNPACK` (R125). -/
def execUnpack (s : State) : Host.Outcome State Fault Refusal :=
  start .unpack unpackBody s

end Sys2Proof.Machine
end

