-- ==== Sys2Proof/Machine/Decoder.lean ====
section
/-! DEFINITION. The operation DECODE (R102, R103): a compressed stream to PCM bytes. -/

namespace Sys2Proof.Machine

/-- One code of the stream, one to a byte, by the state machine that `W` selects (R102, R83). -/
def stepCode (s : State) (c : Byte) : State :=
  if s.w = 4 then codeStep4 (c.setWidth 4) s else codeStep2 (c.setWidth 2) s

/-- All units of one byte, in order (R102). -/
def stepByte (s : State) (x : Byte) : State :=
  (unitsOf s.w x).foldl stepCode s

/-- The head of DECODE: seed with the initial byte, emit it, stand at the first code (R102). -/
def beginStream (s : State) (b : Byte) : State :=
  ((s.seed b).emit b).setPos 1 0

/-- The body of DECODE (R102). Check 6 has excluded an empty `IN`. -/
def decodeBody (s : State) : BodyResult :=
  match s.inBytes with
  | [] => .ok s
  | b :: xs => .ok (xs.foldl stepByte (beginStream s b))

/-- `DECODE` (R102). -/
def execDecode (s : State) : Host.Outcome State Fault Refusal :=
  start .decode decodeBody s

/-- The block between the head of DECODE and its first code, for the view of DECODE code by code (log 2). -/
def State.beginDecode (s : State) : State :=
  match s.startInit.inBytes with
  | [] => s.startInit
  | b :: _ => beginStream s.startInit b

end Sys2Proof.Machine
end

