-- ==== Sys2Proof/Machine/Oracle.lean ====
section
/-! DEFINITION. What the encoders share: the decoder as a scoring oracle on copies of its state (R107), the replay of a code
sequence (R204), the winner among live branches (R257), and the frame of an encoder's body (R200, R250). -/

namespace Sys2Proof.Machine

/-- The sample that a snapshot's last step emitted, its `PREV` (R107). -/
def Snapshot.sample : Snapshot → Byte
  | .four d => d.prev
  | .two d => d.prev

/-- One oracle step on a copy of a decoder state (R107). -/
def oracle (tbl : Tables) (st : Snapshot) (c : Byte) : Snapshot :=
  match st with
  | .four d => .four (step4 d (c.setWidth 4))
  | .two d => .two (step2 tbl d (c.setWidth 2))

/-- `score(st, target, codes)` (R204): the cumulative squared error and the final state of a replay. -/
def score (tbl : Tables) (st : Snapshot) : List Byte → List Byte → Nat × Snapshot
  | t :: ts, c :: cs =>
    let st' := oracle tbl st c
    let r := score tbl st' ts cs
    (sqDiff st'.sample t + r.1, r.2)
  | _, _ => (0, st)

/-- The committed state at the head of an encoder's stream (R201, R251). -/
def seedSnapshot (w : Nat) (b : Byte) : Snapshot :=
  if w = 4 then .four { prev := b, acc := 1 } else .two { prev := b, scale := 0 }

/-- The branch at the head of an encoder's stream: no codes, no error (R251, R27). -/
def rootBranch (w : Nat) (b : Byte) : Branch :=
  { state := seedSnapshot w b, hist := [], err := 0 }

/-- The better of the best branch so far and a later one: only a smaller error replaces it (R257). -/
def betterBranch (best : Option Branch) (x : Branch) : Option Branch :=
  match best with
  | none => some x
  | some y => if x.err < y.err then some x else some y

/-- `winner(live)`: the first branch of minimal error (R257). -/
def winner (live : List Branch) : Option Branch :=
  live.foldl betterBranch none

/-- The last lines of an encoder's body: pack the codes, leave the final state in the decoder registers (R200, R250), and discard
the branch store (R27). -/
def commitWinner (s : State) (x : Branch) : State :=
  (((s.pushAll x.hist).flush).setSnapshot x.state).setBranches []

/-- The body of an encoder whose branch store evolves over the targets `IN[1 .. N-1]` by `evolve` (R200, R250). Check 6 has
excluded an empty `IN`; the store is never empty when the winner is taken. -/
def encodeBody (evolve : List Byte → List Branch → List Branch) (s : State) : BodyResult :=
  match s.inBytes with
  | [] => .ok s
  | b :: targets =>
    let s1 := (s.emit b).setBranches [rootBranch s.w b]
    let s2 := s1.setBranches (evolve targets s1.branches)
    match winner s2.branches with
    | none => .ok (s2.setBranches [])
    | some x => .ok (commitWinner s2 x)

end Sys2Proof.Machine
end

