-- ==== Sys2Proof/Machine/Exhaustive.lean ====
section
/-! DEFINITION. The exhaustive encoder ENCX (44_exhaustive.md). The parallel variant gives the same result (R209, log 20). -/

namespace Sys2Proof.Machine

/-- `digit(k, j, g)`: the code `c_j` of the combination of index `k` (R203); with `COMBO_MSD_FIRST` false the other digit order. -/
def comboDigit (msdFirst : Bool) (bas k j g : Nat) : Nat :=
  if msdFirst then (k / bas ^ (g - 1 - j)) % bas else (k / bas ^ j) % bas

/-- The codes of the combination of index `k`, one to a byte, first code first (R203). -/
def comboCodes (msdFirst : Bool) (bas g k : Nat) : List Byte :=
  (List.range g).map (fun j => BitVec.ofNat 8 (comboDigit msdFirst bas k j g))

/-- `index(c_0 .. c_{g-1})` (R203). -/
def comboIndex (msdFirst : Bool) (bas : Nat) (codes : List Byte) : Nat :=
  if msdFirst then codes.foldl (fun k c => k * bas + c.toNat) 0 else codes.foldr (fun c k => k * bas + c.toNat) 0

/-- A candidate of a group's search: its error, its combination index and its final state (R206). -/
structure Best where
  err   : Nat
  index : Nat
  state : Snapshot
  deriving DecidableEq, Repr

/-- The best so far after one more candidate: strict less-than keeps the lowest index (R206). -/
def better (best : Option Best) (x : Best) : Option Best :=
  match best with
  | none => some x
  | some y => if x.err < y.err then some x else some y

/-- The candidate of index `k` for the group (R204). -/
def candidate (tbl : Tables) (bas : Nat) (st : Snapshot) (target : List Byte) (k : Nat) : Best :=
  let r := score tbl st target (comboCodes Config.comboMsdFirst bas target.length k)
  { err := r.1, index := k, state := r.2 }

/-- `search(st, target, g)` with `g` the number of targets (R206). -/
def search (tbl : Tables) (bas : Nat) (st : Snapshot) (target : List Byte) : Option Best :=
  (List.range (bas ^ target.length)).foldl (fun best k => better best (candidate tbl bas st target k)) none

/-- Commit the winner of a group of `g` codes to the committed branch (R207). -/
def commitGroup (bas g : Nat) (x : Branch) (best : Option Best) : Branch :=
  match best with
  | none => x
  | some y =>
    { state := y.state, hist := x.hist ++ comboCodes Config.comboMsdFirst bas g y.index, err := x.err + y.err }

/-- The loop over the groups of at most `gsize` targets (R200, R202), with a bound on its rounds. -/
def encodeGroups (find : Snapshot → List Byte → Option Best) (bas gsize : Nat) : Nat → List Byte → Branch → Branch
  | 0, _, x => x
  | _ + 1, [], x => x
  | fuel + 1, t :: ts, x =>
    let group := (t :: ts).take gsize
    encodeGroups find bas gsize fuel ((t :: ts).drop gsize) (commitGroup bas group.length x (find x.state group))

/-- The branch store of ENCX and ENCS: one committed branch, advanced group by group (R27, R200). -/
def evolveGroups (find : Snapshot → List Byte → Option Best) (bas gsize : Nat) (targets : List Byte)
    (live : List Branch) : List Branch :=
  live.map (encodeGroups find bas gsize targets.length targets)

/-- The body of ENCX (R200). -/
def encxBody (s : State) : BodyResult :=
  encodeBody (evolveGroups (search s.tbl (base s.w)) (base s.w) s.g) s

/-- `ENCX` (R200). -/
def execEncx (s : State) : Host.Outcome State Fault Refusal :=
  start .encx encxBody s

end Sys2Proof.Machine
end

