-- ==== Sys2Proof/Machine/Simd.lean ====
section
/-! DEFINITION. The SIMD exhaustive encoder ENCS (45_simd.md): `STEP16` and the depth-first search on it. The two vector
backends are not told apart (R234, log 20). -/

namespace Sys2Proof.Machine

/-- `STEP16((prev, acc))` (R231): lane `i` is the scalar step for code `i`. -/
def step16 (d : Dec4) : List Dec4 :=
  (List.range 16).map (fun i => step4 d (BitVec.ofNat 4 i))

/-- The running best of the depth-first search: error, codes and final state (R232). -/
structure BestPath where
  err   : Nat
  codes : List Byte
  state : Dec4
  deriving DecidableEq, Repr

/-- The best path so far after one more complete one: replaced only on a strictly smaller error (R232). -/
def betterPath (best : Option BestPath) (x : BestPath) : Option BestPath :=
  match best with
  | none => some x
  | some y => if x.err < y.err then some x else some y

/-- `dfs(s, j, e, prefix)` over the targets left, carrying the running best (R232). -/
def dfs : List Byte → Dec4 → Nat → List Byte → Option BestPath → Option BestPath
  | [], _, _, _, best => best
  | [t], d, e, pre, best =>
    (step16 d).zipIdx.foldl
      (fun best lane =>
        betterPath best
          { err := e + sqDiff lane.1.prev t, codes := pre ++ [BitVec.ofNat 8 lane.2], state := lane.1 })
      best
  | t :: t' :: ts, d, e, pre, best =>
    (step16 d).zipIdx.foldl
      (fun best lane =>
        dfs (t' :: ts) lane.1 (e + sqDiff lane.1.prev t) (pre ++ [BitVec.ofNat 8 lane.2]) best)
      best

/-- `search_simd(st, target, g)` (R232): the winner by its combination index. Only 4-bit states occur: ENCS needs `W = 4` (R235). -/
def searchSimd (st : Snapshot) (target : List Byte) : Option Best :=
  match st with
  | .four d =>
    (dfs target d 0 [] none).map
      (fun x => { err := x.err, index := comboIndex Config.comboMsdFirst 16 x.codes, state := .four x.state })
  | .two _ => none

/-- The body of ENCS: that of ENCX with the depth-first search (R230). -/
def encsBody (s : State) : BodyResult :=
  encodeBody (evolveGroups searchSimd (base s.w) s.g) s

/-- `ENCS` (R230). -/
def execEncs (s : State) : Host.Outcome State Fault Refusal :=
  start .encs encsBody s

end Sys2Proof.Machine
end

