-- ==== Sys2Proof/Machine/Trellis.lean ====
section
/-! DEFINITION. The trellis/beam encoder ENCT (46_trellis.md), for any draw `pick`. -/

namespace Sys2Proof.Machine

/-- Stable sort by ascending error (R252). -/
def sortBranches (live : List Branch) : List Branch :=
  live.insertionSort (fun x y => x.err ≤ y.err)

/-- The random slots: slot `t` holds the pool branch that `pick` draws, with replacement (R254). `pick` may be any
function; its value is taken modulo the pool size, so that every draw in range is admitted (R20). -/
def drawSlots (pick : Nat → Nat → Nat → Nat) (p nr : Nat) (pool : List Branch) : List Branch :=
  (List.range nr).filterMap (fun t => pool[pick p t pool.length % pool.length]?)

/-- `survivors(sorted, B, NR, p)` (R253, R254, R255). -/
def survivors (pick : Nat → Nat → Nat → Nat) (b nr p : Nat) (sorted : List Branch) : List Branch :=
  if sorted.length ≤ b then sorted
  else sorted.take (b - nr) ++ drawSlots pick p nr (sorted.drop b)

/-- The child of a branch by code `i` at the target `t` (R256). -/
def childBranch (tbl : Tables) (t : Byte) (x : Branch) (i : Nat) : Branch :=
  let st := oracle tbl x.state (BitVec.ofNat 8 i)
  { state := st, hist := x.hist ++ [BitVec.ofNat 8 i], err := x.err + sqDiff st.sample t }

/-- `expand(surv, t)` (R256): survivor order, then code ascending. -/
def expand (tbl : Tables) (surv : List Branch) (t : Byte) : List Branch :=
  surv.flatMap (fun x => (List.range 16).map (childBranch tbl t x))

/-- The loop over the positions from `p` on (R250). -/
def trellis (tbl : Tables) (pick : Nat → Nat → Nat → Nat) (b nr : Nat) : Nat → List Byte → List Branch → List Branch
  | _, [], live => live
  | p, t :: ts, live =>
    trellis tbl pick b nr (p + 1) ts (expand tbl (survivors pick b nr p (sortBranches live)) t)

/-- The body of ENCT for a draw `pick` (R250). The draw named in the state is used up (log 9). -/
def enctBody (pick : Nat → Nat → Nat → Nat) (s : State) : BodyResult :=
  encodeBody (trellis s.tbl pick s.b s.nr 1) (s.setDraw (s.draw + 1))

/-- `ENCT` (R250): the draw is the free one that the state names (R20). -/
def execEnct (s : State) : Host.Outcome State Fault Refusal :=
  start .enct (enctBody (Config.pick s.draw)) s

end Sys2Proof.Machine
end

