-- ==== Sys2Proof/Machine/Dispatch.lean ====
section
/-! DEFINITION. One arm for each instruction: a direct call of its meaning. -/

namespace Sys2Proof.Machine

def exec (i : Instr) (s : State) : Host.Outcome State Fault Refusal :=
  match i with
  | .m0 => Sys2Proof.Machine.execM0 s
  | .m1 => Sys2Proof.Machine.execM1 s
  | .m2 => Sys2Proof.Machine.execM2 s
  | .m3 => Sys2Proof.Machine.execM3 s
  | .m4 => Sys2Proof.Machine.execM4 s
  | .m5 => Sys2Proof.Machine.execM5 s
  | .m6 => Sys2Proof.Machine.execM6 s
  | .m7 => Sys2Proof.Machine.execM7 s
  | .p0 => Sys2Proof.Machine.execP0 s
  | .p1 => Sys2Proof.Machine.execP1 s
  | .p2 => Sys2Proof.Machine.execP2 s
  | .p3 => Sys2Proof.Machine.execP3 s
  | .p4 => Sys2Proof.Machine.execP4 s
  | .p5 => Sys2Proof.Machine.execP5 s
  | .p6 => Sys2Proof.Machine.execP6 s
  | .p7 => Sys2Proof.Machine.execP7 s
  | .s0 => Sys2Proof.Machine.execS0 s
  | .s1 => Sys2Proof.Machine.execS1 s
  | .s2 => Sys2Proof.Machine.execS2 s
  | .s3 => Sys2Proof.Machine.execS3 s
  | .pack => Sys2Proof.Machine.execPack s
  | .unpack => Sys2Proof.Machine.execUnpack s
  | .decode => Sys2Proof.Machine.execDecode s
  | .encx => Sys2Proof.Machine.execEncx s
  | .encs => Sys2Proof.Machine.execEncs s
  | .enct => Sys2Proof.Machine.execEnct s

end Sys2Proof.Machine
end

