-- ==== Sys2Proof/Machine/Fetch.lean ====
section
/-! DEFINITION. Where an instruction comes from: an operation from `OPSEL` at `START` (R100), a code from the unit of `IN` at
`(POS, UNIT)` while a DECODE runs (R25, R40); and how one word of the opcode table is placed there. -/

namespace Sys2Proof.Machine

/-- What a fetch gives. -/
inductive Fetched where
  /-- an instruction to run -/
  | instr (i : Instr)
  /-- `START` of a selector that is no operation (R288) -/
  | reservedRequest
  /-- the sequencer has consumed `IN`: the operation ends (R102, R332) -/
  | endOfStream
  /-- the running operation stands at no code -/
  | noCode (why : DecodeReject)
  /-- what is read has no value, or has no step (R322, log 18) -/
  | refused (r : Refusal)
  deriving DecidableEq, Repr

/-- The fetch of an idle block at `START`: the selector (R100, R322). -/
def fetchRequest (s : State) : Fetched :=
  if s.has.opsel then
    match decodeOp s.opsel with
    | .instr i => .instr i
    | .rejected _ => .reservedRequest
  else .refused (.noValue .opsel)

/-- The fetch of a running DECODE: the loop test, then the code at `(POS, UNIT)` (R102, R103, R105). DESIGN CHOICE (log 18): it does
not ask whether `PREV` has a value, since no run reaches a running DECODE that is not seeded (R324, R30). -/
def fetchCode (s : State) : Fetched :=
  if s.pos < s.inLen then
    match s.inMem.read s.pos with
    | none => .refused (.noValueByte s.pos)
    | some x =>
      match decodeUnit s.w x s.unit with
      | .instr i => .instr i
      | .rejected why => .noCode why
  else .endOfStream

/-- The next instruction of the block. -/
def fetch (s : State) : Fetched :=
  if s.done then fetchRequest s
  else if s.opsel = 2 then fetchCode s
  else .refused .midOperation

/-- Every operand register has a value. -/
def Written.all : Written :=
  { opsel := true, w := true, g := true, b := true, nr := true, inLen := true }

/-- The block in a running DECODE of width `w` whose next code is the first of the byte `x`. The decoder counts as seeded (R324) with
the byte that `PREV` holds (log 2). -/
def State.loadCode (s : State) (w : Nat) (x : Byte) : State :=
  { s with
    done := false, opsel := 2, w := w, pos := 1, unit := 0, prevSet := true
    inMem := s.inMem.write 1 x, inLen := 2, has := Written.all }

/-- The idle block with the request `sel` and with a value in everything that `START` may read (R323, log 2): `W = 4`, `G = 1`,
`B = 1`, `NR = 0`, two bytes of input. -/
def State.loadRequest (s : State) (sel : BitVec 3) : State :=
  { s with
    done := true, opsel := sel, w := 4, g := 1, b := 1, nr := 0
    inMem := (s.inMem.write 0 0).write 1 0, inLen := 2, has := Written.all }

end Sys2Proof.Machine
end

