-- ==== Sys2Proof/Machine/Step.lean ====
section
/-! DEFINITION. One step. Of an idle block it is `START` (R100): the whole operation, one atomic transition. Of a block found
in a running DECODE it is one code, or the end of the operation (R102; log 2, log 3). -/

namespace Sys2Proof.Machine

/-- One step of the block. -/
def step (s : State) : Host.Outcome State Fault Refusal :=
  match fetch s with
  | .instr i => exec i s
  | .reservedRequest => .next (s.startInit.raiseError .protocolError)
  | .endOfStream => .next s.finishOk
  | .noCode why => .fault (.notAtACode why)
  | .refused r => .refused r

/-- The state with one word of the opcode table where `step` fetches next, by its length in bits (R70): a code of width 4 or 2
in the first unit of a byte of a running DECODE, a selector in `OPSEL`. DESIGN CHOICE (log 15): 8 bits are read as 4. -/
def State.withFetchWord (s : State) (nbits w : Nat) : State :=
  match nbits with
  | 2 => s.loadCode 2 (placeUnit (BitVec.ofNat 8 w) 0 2)
  | 3 => s.loadRequest (BitVec.ofNat 3 w)
  | 4 => s.loadCode 4 (placeUnit (BitVec.ofNat 8 w) 0 4)
  | 8 => s.loadCode 4 (placeUnit (BitVec.ofNat 8 w) 0 4)
  | _ => s

end Sys2Proof.Machine
end

