-- ==== Sys2Proof/Machine/HostPort.lean ====
section
/-! DEFINITION. What the host may do besides `START` (R323): write operand registers and `IN` while no operation runs, seed the draw,
read the status, and read the results when `DONE = 1`. These are inputs, not steps (log 16). -/

namespace Sys2Proof.Machine

/-- The host's writes (R15 to R19, R21, R323). -/
inductive HostWrite where
  | opsel (v : BitVec 3)
  | w (v : Nat)
  | g (v : Nat)
  | b (v : Nat)
  | nr (v : Nat)
  | inLen (v : Nat)
  | inByte (addr : Nat) (v : Byte)
  | seedDraw (n : Nat)
  deriving DecidableEq, Repr

/-- The effect of a host write on an idle block. -/
def applyHostWrite (s : State) : HostWrite → State
  | .opsel v => { s with opsel := v, has := { s.has with opsel := true } }
  | .w v => { s with w := v, has := { s.has with w := true } }
  | .g v => { s with g := v, has := { s.has with g := true } }
  | .b v => { s with b := v, has := { s.has with b := true } }
  | .nr v => { s with nr := v, has := { s.has with nr := true } }
  | .inLen v => { s with inLen := v, has := { s.has with inLen := true } }
  | .inByte a v => { s with inMem := s.inMem.write a v }
  | .seedDraw n => s.setDraw n

/-- A host write: "host-writable when no operation is running" (R15, R16); while one runs it has no move (R52, R327). -/
def hostWrite (m : HostWrite) (s : State) : Host.Outcome State Fault Refusal :=
  if s.done then .next (applyHostWrite s m) else .refused .hostWhileBusy

/-- The block after the host's writes, in order, each taken as on an idle block: for writing down a request. -/
def hostWrites (s : State) (ms : List HostWrite) : State :=
  ms.foldl applyHostWrite s

/-- The block after a hardware reset (R320); the tables and the parameters are constants (R30, R32). DESIGN CHOICE (log 22): the spec
says nothing of the random source at a reset, so the next draw is a free one, and the counter of free values goes on. -/
def State.hardwareReset (s : State) : State :=
  { State.reset with tbl := s.tbl, cfg := s.cfg, draw := Config.freeDraw s.free, free := s.free + 1 }

/-- Hardware reset of an idle block (R320). A reset during an operation has no move (R321, log 16). -/
def hardwareReset (s : State) : Host.Outcome State Fault Refusal :=
  if s.done then .next s.hardwareReset else .refused .hostWhileBusy

/-- `DONE` as the host reads it, for which it waits (R300, R323). -/
def hostReadDone (s : State) : Bool := s.done

/-- `ERR` as the host reads it (R24, R300, R323). -/
def hostReadErr (s : State) : BitVec 3 := s.err

/-- `W` as the host reads it, "host-readable always" (R15), while it has a value (R30). -/
def hostReadW (s : State) : Option Nat :=
  if s.has.w then some s.w else none

/-- `OUTLEN` as the host may read it: at `DONE = 1` (R22). -/
def hostReadOutLen (s : State) : Option Nat :=
  if s.done then some s.outLen else none

/-- `PREV` as the host may read it: at `DONE = 1`, and only while it has a value (R11, R30, R329). -/
def hostReadPrev (s : State) : Option Byte :=
  if s.done && s.prevSet then some s.prev else none

/-- `ACC` as the host may read it (R12), not after an error (R290). -/
def hostReadAcc (s : State) : Option (BitVec 4) :=
  if s.done && s.err == errNone then some s.acc else none

/-- `SCALE` as the host may read it (R13), not after an error (R290). -/
def hostReadScale (s : State) : Option Byte :=
  if s.done && s.err == errNone then some s.scale else none

/-- `OUT[a]` as the host may read it: at `DONE = 1` and `ERR = 0`, below `OUTLEN` (R22, R323, R329; log 8). -/
def hostReadOut (s : State) (a : Nat) : Option Byte :=
  if s.done && s.err == errNone && decide (a < s.outLen) then s.outMem.read a else none

end Sys2Proof.Machine
end

