-- ==== Sys2Proof/Safety.lean ====
section
/-! DEFINITION. The terms that claims use: what a good state is (R31, R24, R291), what a legal request is (R101, R322), what an
operation leaves alone, what it appends to `OUT`, and the replay of codes as the decoder's samples. -/

namespace Sys2Proof.Machine

/-- `ACC` is one of 1, 2, 4, 8 (R12, R31). -/
abbrev accLegal (acc : BitVec 4) : Prop := acc = 1 ∨ acc = 2 ∨ acc = 4 ∨ acc = 8

/-- The invariant of the block. `ACC` is legal (R31); both spaces are in canonical form; every byte of `OUT` below `OUTLEN` has a
value (R22); `ERR` is never 6 or 7 (R24), and an error leaves no output (R291); `ERR` is 0 until an operation ends (R30);
`UNIT` and `PKN` are below 4 (R10), and while an operation with a legal `W` runs `UNIT` is below `cpb(W)` (R31); a running decoder is
seeded (R324); the branch store lives only inside an operation (R27). -/
structure State.Inv (s : State) : Prop where
  accOk     : accLegal s.acc
  inWf      : s.inMem.wf = true
  outWf     : s.outMem.wf = true
  outFull   : ∀ a, a < s.outLen → (s.outMem.read a).isSome
  errOk     : s.err.toNat ≤ 5
  errNoOut  : s.err ≠ errNone → s.outLen = 0
  busyNoErr : s.done = false → s.err = errNone
  unitOk    : s.unit < 4
  unitRun   : s.done = false → s.w = 2 ∨ s.w = 4 → s.unit < cpb s.w
  seeded    : s.done = false → s.prevSet = true
  pknOk     : s.pkn < 4
  storeNone : s.branches = []

/-- The second state has the tables, the parameters, the operand registers and the input of the first (R14, R32, R40). -/
structure State.SameOperands (s t : State) : Prop where
  tbl   : t.tbl = s.tbl
  cfg   : t.cfg = s.cfg
  w     : t.w = s.w
  opsel : t.opsel = s.opsel
  g     : t.g = s.g
  b     : t.b = s.b
  nr    : t.nr = s.nr
  has   : t.has = s.has
  inMem : t.inMem = s.inMem
  inLen : t.inLen = s.inLen

/-- The second state's `OUT` is that of the first with the bytes `l` stored from address `OUTLEN` on and every other byte as
before (R22, R40, R105). -/
structure State.Emits (s t : State) (l : List Byte) : Prop where
  len   : t.outLen = s.outLen + l.length
  bytes : ∀ a, t.outMem.read a =
    if s.outLen ≤ a ∧ a < s.outLen + l.length then l[a - s.outLen]? else s.outMem.read a
  wf    : s.outMem.wf = true → t.outMem.wf = true

/-- Every byte `IN[0 .. INLEN-1]` has a value (R322). -/
def inputWritten (s : State) : Bool :=
  (List.range s.inLen).all (fun a => (s.inMem.read a).isSome)

/-- What `START` of an operation reads has a value, and all seven checks of R101 pass. -/
structure RequestOk (op : Operation) (s : State) : Prop where
  registers : unwritten op s = none
  input     : inputWritten s = true
  checked   : firstError (checks op s) = none

/-- Each operation's instruction (R76). -/
def Operation.instr : Operation → Instr
  | .pack => .pack
  | .unpack => .unpack
  | .decode => .decode
  | .encx => .encx
  | .encs => .encs
  | .enct => .enct

/-- The codes that subtract, with their `data` (R80). -/
def minusCodes : List (Instr × Nat) :=
  [(.m0, 0), (.m1, 1), (.m2, 2), (.m3, 3), (.m4, 4), (.m5, 5), (.m6, 6), (.m7, 7)]

/-- The codes that add, with their `data` (R80). -/
def plusCodes : List (Instr × Nat) :=
  [(.p0, 0), (.p1, 1), (.p2, 2), (.p3, 3), (.p4, 4), (.p5, 5), (.p6, 6), (.p7, 7)]

/-- The two-bit codes, with their value (R80). -/
def twoBitCodes : List (Instr × Nat) :=
  [(.s0, 0), (.s1, 1), (.s2, 2), (.s3, 3)]

/-- The samples that a decoder emits for a code sequence, one to a code (R107, R145, R185). -/
def replay (tbl : Tables) : Snapshot → List Byte → List Byte
  | _, [] => []
  | st, c :: cs => (oracle tbl st c).sample :: replay tbl (oracle tbl st c) cs

/-- The decoder state after a code sequence (R48). -/
def replayEnd (tbl : Tables) (st : Snapshot) (codes : List Byte) : Snapshot :=
  codes.foldl (oracle tbl) st

/-- The sum of the squared differences of two sample sequences, position by position (R204, R205). -/
def squaredError : List Byte → List Byte → Nat
  | v :: vs, t :: ts => sqDiff v t + squaredError vs ts
  | _, _ => 0

/-- What an exhaustive encoder leaves (R200): the first sample verbatim, then one code for each further sample, packed; each group
of `G` codes, the last one shorter, is the one that `search` (R206) finds from the state that the codes before it leave. The decoder
registers hold the final committed state. -/
def ExhaustiveResult (s t : State) (snapshot : Snapshot) : Prop :=
  ∃ (b : Byte) (targets codes : List Byte),
    s.inBytes = b :: targets ∧ codes.length = s.inLen - 1 ∧ (∀ c ∈ codes, c.toNat < base s.w) ∧
    t.outBytes = b :: packCodes s.w (padCode s.cfg s.w) codes ∧
    t.outLen = 1 + (s.inLen - 1 + cpb s.w - 1) / cpb s.w ∧
    snapshot = replayEnd s.tbl (seedSnapshot s.w b) codes ∧
    ∀ q, q * s.g < targets.length →
      ∃ y, search s.tbl (base s.w) (replayEnd s.tbl (seedSnapshot s.w b) (codes.take (q * s.g)))
          ((targets.drop (q * s.g)).take s.g) = some y ∧
        (codes.drop (q * s.g)).take s.g
          = comboCodes true (base s.w) ((targets.drop (q * s.g)).take s.g).length y.index

/-- The decoder state that the registers of the codec of width `w` hold (R27). -/
def State.snapshot (s : State) : Snapshot :=
  if s.w = 4 then .four { prev := s.prev, acc := s.acc } else .two { prev := s.prev, scale := s.scale }

end Sys2Proof.Machine
end

