-- ==== Sys2Proof/Certificates/Slice0/Obligations.lean ====
section
/-! DEFINITION. The statements for the provers, each with the rules of spec/ that it formalises. -/

open Sys2Proof Sys2Proof.Machine

/-! Reset, fetching and decoding. -/

/-- R320: the values that hardware reset leaves; no register of the operands, no byte of either buffer and not `PREV` has a value. -/
def Obligations.ResetLeavesTheSpecifiedValues : Prop :=
  State.reset.done = true ∧ State.reset.err = 0 ∧ State.reset.outLen = 0 ∧ State.reset.acc = 1 ∧
  State.reset.scale = 0 ∧ State.reset.pos = 0 ∧ State.reset.unit = 0 ∧ State.reset.pkb = 0 ∧
  State.reset.pkn = 0 ∧ State.reset.branches = [] ∧ State.reset.prevSet = false ∧
  State.reset.has = Written.none ∧ (∀ a, State.reset.inMem.read a = none) ∧
  (∀ a, State.reset.outMem.read a = none)

/-- A step runs the instruction it fetches: an idle block the operation that `OPSEL` selects, a running DECODE the code at
`(POS, UNIT)`; with nothing added around `exec`. At the end of the input a running DECODE ends with `ERR = 0` and `DONE = 1`
(R100, R102). The view of DECODE code by code is the model's (log 2). -/
def Obligations.StepRunsTheDecodedInstruction : Prop :=
  (∀ (s : State) (i : Instr), s.done = true → s.has.opsel = true → decodeOp s.opsel = .instr i →
    step s = exec i s) ∧
  (∀ (s : State) (i : Instr) (x : Byte), s.done = false → s.opsel = 2 → s.pos < s.inLen →
    s.inMem.read s.pos = some x → decodeUnit s.w x s.unit = .instr i → step s = exec i s) ∧
  (∀ s : State, s.done = false → s.opsel = 2 → s.inLen ≤ s.pos →
    step s = .next { s with err := 0, done := true })

/-- Words written out from the encoding of R80 and R76, and units of bytes from R41, decode to their instructions. -/
def Obligations.SpecWordsDecodeToTheirInstructions : Prop :=
  decode4 0b0000#4 = .m0 ∧ decode4 0b0111#4 = .m7 ∧ decode4 0b1000#4 = .p0 ∧ decode4 0b1101#4 = .p5 ∧
  decode2 0b01#2 = .s1 ∧ decode2 0b10#2 = .s2 ∧ decodeOp 0b010#3 = .instr .decode ∧
  decodeOp 0b101#3 = .instr .enct ∧ decodeOp 0b110#3 = .rejected .reservedSelector ∧
  decodeByte 4 0x9D = [.instr .p1, .instr .p5] ∧
  decodeByte 2 0x9D = [.instr .s2, .instr .s1, .instr .s3, .instr .s1]

/-- Decode of encode: a code stored in any unit of any byte decodes to itself, and storing it leaves every other unit's code
as it was (R41, R73, R74, R83); and the selector of every operation, and the bits of every code, decode to it (R76, R80). -/
def Obligations.EncodedCodesDecodeInEveryUnit : Prop :=
  (∀ (w : Nat) (x : Byte) (u : Nat) (i : Instr), i.format ≠ .op → i.wellFormed w = true → u < cpb w →
    decodeUnit w (encodeUnit w x u i) u = .instr i ∧
    ∀ v, v < cpb w → v ≠ u → decodeUnit w (encodeUnit w x u i) v = decodeUnit w x v) ∧
  (∀ i : Instr, decodeWord (encode i) = .instr i)

/-- Encode of decode, and no illegal code (R81): under a legal width every unit of every byte is a code of that width, and storing
that code where it stands changes nothing. -/
def Obligations.EveryByteIsALegalCodeByte : Prop :=
  ∀ (w : Nat) (x : Byte) (u : Nat), w = 2 ∨ w = 4 → u < cpb w →
    ∃ i, decodeUnit w x u = .instr i ∧ i.wellFormed w = true ∧ encodeUnit w x u i = x

/-! The codes. -/

/-- R147 to R154, the codes that subtract: result, adaptation of `ACC`, the emitted byte, no flag, no error. -/
def Obligations.MinusCodesSubtractTheirDelta : Prop :=
  ∀ (s : State) (i : Instr) (d : Nat), (i, d) ∈ minusCodes → accLegal s.acc →
    encode i = .n4 (BitVec.ofNat 4 d) ∧
    ∃ t, exec i s = .next t ∧
      (t.prev.toNat : Int) = max 0 ((s.prev.toNat : Int) - (d * s.acc.toNat + s.acc.toNat / 2)) ∧
      t.acc.toNat = (if d = 0 then (if s.acc = 1 then 1 else s.acc.toNat / 2)
        else if d < 5 then s.acc.toNat else (if s.acc = 8 then 8 else s.acc.toNat * 2)) ∧
      s.Emits t [t.prev] ∧ t.done = s.done ∧ t.err = s.err

/-- R155 to R162, the codes that add: result, adaptation of `ACC`, the emitted byte, no flag, no error. -/
def Obligations.PlusCodesAddTheirDelta : Prop :=
  ∀ (s : State) (i : Instr) (d : Nat), (i, d) ∈ plusCodes → accLegal s.acc →
    encode i = .n4 (BitVec.ofNat 4 (8 + d)) ∧
    ∃ t, exec i s = .next t ∧
      (t.prev.toNat : Int) = min 255 ((s.prev.toNat : Int) + (d * s.acc.toNat + s.acc.toNat / 2)) ∧
      t.acc.toNat = (if d = 0 then (if s.acc = 1 then 1 else s.acc.toNat / 2)
        else if d < 5 then s.acc.toNat else (if s.acc = 8 then 8 else s.acc.toNat * 2)) ∧
      s.Emits t [t.prev] ∧ t.done = s.done ∧ t.err = s.err

/-- R186 to R189, the two-bit codes, for any contents of the tables: the index, both lookups, the saturation of `PREV`, the wrap
of `SCALE`, the emitted byte, no flag, no error. -/
def Obligations.TwoBitCodesUseTheTables : Prop :=
  ∀ (s : State) (i : Instr) (c : Nat), (i, c) ∈ twoBitCodes →
    encode i = .n2 (BitVec.ofNat 2 c) ∧
    ∃ (t : State) (idx : Fin 24), exec i s = .next t ∧ idx.val = min (c + s.scale.toNat) 23 ∧
      (t.prev.toNat : Int) = max 0 (min 255 ((s.prev.toNat : Int) + s.tbl.delta.get idx)) ∧
      (t.scale.toNat : Int) = ((s.scale.toNat : Int) + s.tbl.adj.get idx) % 256 ∧
      s.Emits t [t.prev] ∧ t.done = s.done ∧ t.err = s.err

/-- The frame of every code: it writes `PREV`, the step size of its own codec, one byte of `OUT` at `OUTLEN`, `OUTLEN`, and the
position, which advances by one unit (R25, R104, R141, R181); nothing else. -/
def Obligations.CodesLeaveEverythingElse : Prop :=
  ∀ (i : Instr) (s t : State), i.format ≠ .op → exec i s = .next t →
    s.SameOperands t ∧ t.prevSet = true ∧ t.outLen = s.outLen + 1 ∧
    (i.format = .n4 → t.scale = s.scale) ∧ (i.format = .n2 → t.acc = s.acc) ∧
    t.done = s.done ∧ t.err = s.err ∧ t.pkb = s.pkb ∧ t.pkn = s.pkn ∧ t.branches = s.branches ∧
    t.draw = s.draw ∧ t.free = s.free ∧
    (∀ a, a ≠ s.outLen → t.outMem.read a = s.outMem.read a) ∧
    (let n := if i.format = .n4 then 2 else 4
     if s.unit + 1 < n then t.unit = s.unit + 1 ∧ t.pos = s.pos else t.unit = 0 ∧ t.pos = s.pos + 1)

/-- R144: from a legal `ACC`, after any code sequence `ACC` is legal, and one more code halves, keeps or doubles it as the
table says. -/
def Obligations.AccumulatorFollowsItsTable : Prop :=
  ∀ (tbl : Tables) (d : Dec4) (codes : List Byte), accLegal d.acc →
    ∃ e, replayEnd tbl (.four d) codes = .four e ∧ accLegal e.acc ∧
      ∀ n : BitVec 4,
        (codeData n = 0 → (step4 e n).acc = (if e.acc = 1 then 1 else e.acc / 2)) ∧
        (1 ≤ codeData n → codeData n ≤ 4 → (step4 e n).acc = e.acc) ∧
        (5 ≤ codeData n → (step4 e n).acc = (if e.acc = 8 then 8 else e.acc * 2))

/-- R143: the magnitude is at most 60 and the sum before the clamp lies in [-60, 315]; R142: its value. -/
def Obligations.StepSumStaysInRange : Prop :=
  ∀ (d : Dec4) (n : BitVec 4), accLegal d.acc →
    codeDelta (codeData n) d.acc ≤ 60 ∧
    -60 ≤ (d.prev.toNat : Int) + codeSgn n * (codeDelta (codeData n) d.acc : Int) ∧
    (d.prev.toNat : Int) + codeSgn n * (codeDelta (codeData n) d.acc : Int) ≤ 315

/-- R190 (b): when `SCALE >= 23` the four two-bit codes are indistinguishable. -/
def Obligations.LargeScaleMakesTwoBitCodesAlike : Prop :=
  ∀ s : State, 23 ≤ s.scale.toNat →
    exec .s1 s = exec .s0 s ∧ exec .s2 s = exec .s0 s ∧ exec .s3 s = exec .s0 s

/-- R231, R107: `STEP16` has 16 lanes, and lane `n` holds the decoder state, and so the sample, that executing the code `n`
on the block leaves. -/
def Obligations.LanesEqualTheCodeSteps : Prop :=
  ∀ (s : State) (n : BitVec 4),
    (step16 { prev := s.prev, acc := s.acc }).length = 16 ∧
    ∃ t, exec (decode4 n) s = .next t ∧
      (step16 { prev := s.prev, acc := s.acc })[n.toNat]? = some { prev := t.prev, acc := t.acc } ∧
      s.Emits t [t.prev]

/-! START, its checks, errors and refusals. -/

/-- R101: with every operand register written, an operation ends in the error of the first failing check of the seven, in their
order, whatever `IN` holds (no byte of it is read) and with nothing emitted; when all pass, and the input has values, it completes, with
`ERR = 0` (PACK excepted, whose codes are checked later, R124). A reserved selector is check 1 too. That `OUT` keeps its bytes when
`OUTLEN` is 0 is the model's reading (log 8), and that a reserved selector is an error even where `W` or `INLEN` was never written, since
check 1 comes before they are read, is the model's reading of R322 (log 5). -/
def Obligations.StartChecksInTheirOrder : Prop :=
  (∀ (op : Operation) (s : State), s.has = Written.all →
    let e : Option Err :=
      if (op = .encx ∧ s.cfg.hasEncx = false) ∨ (op = .encs ∧ s.cfg.hasEncs = false) ∨
          (op = .enct ∧ s.cfg.hasEnct = false) then some .protocolError
      else if s.w = 3 then some .unsupportedFormat
      else if s.w ≠ 2 ∧ s.w ≠ 4 then some .invalidCodeWidth
      else if (op = .encs ∨ op = .enct) ∧ s.w = 2 then some .protocolError
      else if ((op = .encx ∨ op = .encs) ∧ s.g = 0) ∨ (op = .enct ∧ (s.b = 0 ∨ s.b < s.nr)) then some .protocolError
      else if (op = .decode ∧ s.inLen < 2) ∨ ((op = .encx ∨ op = .encs ∨ op = .enct) ∧ s.inLen = 0)
        then some .emptyInput
      else if (op = .encx ∨ op = .encs) ∧ s.cfg.maxComb < (if s.w = 4 then 16 else 4) ^ s.g
        then some .groupSizeTooLarge
      else none
    match e with
    | some e => ∃ t, exec op.instr s = .next t ∧ t.done = true ∧ t.err = errCode e ∧ t.outLen = 0 ∧ t.outMem = s.outMem
    | none => inputWritten s = true → ∃ t, exec op.instr s = .next t ∧ t.done = true ∧ (op ≠ .pack → t.err = 0)) ∧
  (∀ s : State, s.done = true → s.has.opsel = true → 6 ≤ s.opsel.toNat →
    ∃ t, step s = .next t ∧ t.done = true ∧ t.err = errCode .protocolError ∧ t.outLen = 0 ∧ t.outMem = s.outMem)

/-- R291, R24, R100: every operation that is not refused ends with `DONE = 1`; `ERR` is at most 5; with an error there is no output,
and the branch store is empty. -/
def Obligations.OperationsEndDoneAndErrorsLeaveNoOutput : Prop :=
  ∀ (op : Operation) (s t : State), exec op.instr s = .next t →
    t.done = true ∧ t.err.toNat ≤ 5 ∧ (t.err ≠ 0 → t.outLen = 0 ∧ t.prevSet = false ∧ accLegal t.acc) ∧
    t.branches = []

/-- R322: an operation whose width has no value is refused, as is one that meets, at the check that reads it, another register
with no value, or, all checks passed, a byte of `IN` with no value (for PACK, before any byte that is no code); an idle block whose
selector has no value is refused. The registers that an operation ignores do not matter. Which check reads a register is the model's
reading (log 5). -/
def Obligations.RequestsWithoutValuesAreRefused : Prop :=
  (∀ s : State, s.done = true → s.has.opsel = false → step s = .refused (.noValue .opsel)) ∧
  (∀ (op : Operation) (s : State), s.has.w = false → absentEngine s.cfg op = false →
    exec op.instr s = .refused (.noValue .w)) ∧
  (∀ (op : Operation) (s : State), (op = .encx ∨ op = .encs) → s.has.w = true → s.has.g = false →
    firstError ((checks op s).take 4) = none → exec op.instr s = .refused (.noValue .g)) ∧
  (∀ (s : State), s.has.w = true → s.has.b = false →
    firstError ((checks .enct s).take 4) = none → exec .enct s = .refused (.noValue .b)) ∧
  (∀ (s : State), s.has.w = true → s.has.b = true → s.has.nr = false →
    firstError ((checks .enct s).take 4) = none → exec .enct s = .refused (.noValue .nr)) ∧
  (∀ (op : Operation) (s : State), s.has.w = true → ((op = .encx ∨ op = .encs) → s.has.g = true) →
    (op = .enct → s.has.b = true ∧ s.has.nr = true) → s.has.inLen = false →
    firstError ((checks op s).take 5) = none → exec op.instr s = .refused (.noValue .inLen)) ∧
  (∀ (op : Operation) (s : State) (a : Nat), s.has.w = true → ((op = .encx ∨ op = .encs) → s.has.g = true) →
    (op = .enct → s.has.b = true ∧ s.has.nr = true) → s.has.inLen = true →
    firstError (checks op s) = none → a < s.inLen → s.inMem.read a = none →
    (∀ k, k < a → ∃ x, s.inMem.read k = some x ∧ (op = .pack → x.toNat < base s.w)) →
    exec op.instr s = .refused (.noValueByte a))

/-- The registers that an operation ignores may be unwritten (R322): `G`, `B` and `NR` for PACK, UNPACK and DECODE. -/
def Obligations.IgnoredRegistersMayBeUnwritten : Prop :=
  ∀ (op : Operation) (s : State), op = .pack ∨ op = .unpack ∨ op = .decode →
    s.has.w = true → s.has.inLen = true → inputWritten s = true → ∃ t, exec op.instr s = .next t ∧ t.done = true

/-! Packer and unpacker. -/

/-- R120: `pack` on whole bytes, byte by byte, for both widths. -/
def Obligations.PackPlacesTheFirstCodeHighest : Prop :=
  ∀ (pad : Byte) (codes : List Byte),
    ((∀ c ∈ codes, c.toNat < 16) → codes.length % 2 = 0 →
      (packCodes 4 pad codes).length = codes.length / 2 ∧
      ∀ k, k < codes.length / 2 → ∃ c0 c1 x, codes[2 * k]? = some c0 ∧ codes[2 * k + 1]? = some c1 ∧
        (packCodes 4 pad codes)[k]? = some x ∧ x.toNat = c0.toNat * 16 + c1.toNat) ∧
    ((∀ c ∈ codes, c.toNat < 4) → codes.length % 4 = 0 →
      (packCodes 2 pad codes).length = codes.length / 4 ∧
      ∀ k, k < codes.length / 4 → ∃ c0 c1 c2 c3 x, codes[4 * k]? = some c0 ∧ codes[4 * k + 1]? = some c1 ∧
        codes[4 * k + 2]? = some c2 ∧ codes[4 * k + 3]? = some c3 ∧ (packCodes 2 pad codes)[k]? = some x ∧
        x.toNat = c0.toNat * 64 + c1.toNat * 16 + c2.toNat * 4 + c3.toNat)

/-- R127: the round trips of the packer, the padded one included, for both widths and every pad code in range. -/
def Obligations.UnpackInvertsPack : Prop :=
  ∀ (w : Nat) (pad : Byte), w = 2 ∨ w = 4 → pad.toNat < base w →
    (∀ codes : List Byte, (∀ c ∈ codes, c.toNat < base w) →
      unpackBytes w (packCodes w pad codes)
        = codes ++ List.replicate ((cpb w - codes.length % cpb w) % cpb w) pad) ∧
    (∀ xs : List Byte, packCodes w pad (unpackBytes w xs) = xs)

/-- R121: `push` of every code and then `flush`, from an empty packer, append to `OUT` what `pack` gives, and leave the packer
empty and everything but `OUT`, `OUTLEN`, `PKB`, `PKN` as it was. -/
def Obligations.PushAndFlushComputePack : Prop :=
  ∀ (s : State) (codes : List Byte), s.w = 2 ∨ s.w = 4 → s.pkn = 0 → s.pkb = 0 → (∀ c ∈ codes, c.toNat < base s.w) →
    s.Emits ((s.pushAll codes).flush) (packCodes s.w (padCode s.cfg s.w) codes) ∧
    ∃ m n, (s.pushAll codes).flush = { s with outMem := m, outLen := n }

/-- R122, R124: PACK packs the codes of `IN` and leaves the decoder registers as `START` left them; a byte that is no code of the
width ends it with ProtocolError and no output. -/
def Obligations.PackOperationPacksOrRaises : Prop :=
  ∀ s : State, RequestOk .pack s →
    ∃ t, exec .pack s = .next t ∧ t.done = true ∧
      ((∀ c ∈ s.inBytes, c.toNat < base s.w) →
        t.err = 0 ∧ t.outBytes = packCodes s.w (padCode s.cfg s.w) s.inBytes ∧
        t.outLen = (s.inLen + cpb s.w - 1) / cpb s.w ∧ t.prevSet = false ∧ t.acc = 1 ∧ t.scale = 0 ∧
        t.pkb = 0 ∧ t.pkn = 0) ∧
      ((∃ c ∈ s.inBytes, base s.w ≤ c.toNat) → t.err = errCode .protocolError ∧ t.outLen = 0)

/-- R125: UNPACK gives the codes of the packed bytes, one to a byte, and leaves the decoder registers as `START` left them. -/
def Obligations.UnpackOperationUnpacks : Prop :=
  ∀ s : State, RequestOk .unpack s →
    ∃ t, exec .unpack s = .next t ∧ t.done = true ∧ t.err = 0 ∧ t.outBytes = unpackBytes s.w s.inBytes ∧
      t.outLen = s.inLen * cpb s.w ∧ t.prevSet = false ∧ t.acc = 1 ∧ t.scale = 0

/-! DECODE. -/

/-- R102: DECODE gives the initial byte, then the sample after each code of the packed bytes; the decoder registers hold the final
state, and the position stands after the last byte. -/
def Obligations.DecodeReplaysTheStream : Prop :=
  ∀ s : State, RequestOk .decode s →
    ∃ (t : State) (b : Byte) (xs : List Byte), s.inBytes = b :: xs ∧ exec .decode s = .next t ∧
      t.done = true ∧ t.err = 0 ∧
      t.outBytes = b :: replay s.tbl (seedSnapshot s.w b) (unpackBytes s.w xs) ∧
      t.outLen = 1 + cpb s.w * (s.inLen - 1) ∧
      t.snapshot = replayEnd s.tbl (seedSnapshot s.w b) (unpackBytes s.w xs) ∧ t.prevSet = true ∧
      t.pos = s.inLen ∧ t.unit = 0

/-- DECODE as one atomic transition (R100) is its head followed by its codes, each executed as an instruction by `step`, and its end
(R102, R107): the two views of the block agree. -/
def Obligations.DecodeEqualsItsCodesStepByStep : Prop :=
  ∀ s : State, RequestOk .decode s → s.opsel = 2 →
    ∃ t, exec .decode s = .next t ∧
      Host.Core.run Sys2Proof.core (cpb s.w * (s.inLen - 1) + 1) s.beginDecode = .next t

/-! The encoders. -/

/-- R203: the combination index and its digits are inverse, first code most significant. -/
def Obligations.CombinationIndexAndDigitsAgree : Prop :=
  ∀ (bas g : Nat), 1 < bas → bas ≤ 16 →
    (∀ k, k < bas ^ g → comboIndex true bas (comboCodes true bas g k) = k ∧
      (comboCodes true bas g k).length = g ∧ ∀ c ∈ comboCodes true bas g k, c.toNat < bas) ∧
    (∀ codes : List Byte, codes.length = g → (∀ c ∈ codes, c.toNat < bas) →
      comboIndex true bas codes < bas ^ g ∧ comboCodes true bas g (comboIndex true bas codes) = codes ∧
      ∀ c rest, codes = c :: rest → comboIndex true bas codes = c.toNat * bas ^ (g - 1) + comboIndex true bas rest)

/-- R206, R204: the search of a group finds a combination whose squared error is at most that of every other, and of those of
equal error the one of lowest index; the error is that of the decoder's own samples. -/
def Obligations.SearchIsOptimalWithinAGroup : Prop :=
  ∀ (tbl : Tables) (bas : Nat) (st : Snapshot) (target : List Byte), 0 < bas →
    ∃ y, search tbl bas st target = some y ∧ y.index < bas ^ target.length ∧
      y.state = replayEnd tbl st (comboCodes true bas target.length y.index) ∧
      y.err = squaredError (replay tbl st (comboCodes true bas target.length y.index)) target ∧
      ∀ k, k < bas ^ target.length →
        y.err ≤ squaredError (replay tbl st (comboCodes true bas target.length k)) target ∧
        (squaredError (replay tbl st (comboCodes true bas target.length k)) target = y.err → y.index ≤ k)

/-- R200, R202, R207: what ENCX leaves. -/
def Obligations.EncxEncodesGroupByGroup : Prop :=
  ∀ s : State, RequestOk .encx s →
    ∃ t, exec .encx s = .next t ∧ t.done = true ∧ t.err = 0 ∧ t.prevSet = true ∧ ExhaustiveResult s t t.snapshot

/-- R230: ENCS completes with the result of the exhaustive search. -/
def Obligations.EncsEncodesGroupByGroup : Prop :=
  ∀ s : State, RequestOk .encs s →
    ∃ t, exec .encs s = .next t ∧ t.done = true ∧ t.err = 0 ∧ t.prevSet = true ∧ ExhaustiveResult s t t.snapshot

/-- R233: with `W = 4`, and the two engines both present or both absent, ENCS and ENCX do the same, in every state. -/
def Obligations.EncsEqualsEncx : Prop :=
  ∀ s : State, s.w = 4 → s.cfg.hasEncs = s.cfg.hasEncx → exec .encs s = exec .encx s

/-- R252: the sort is a permutation, ascending by error, and keeps the order of branches of equal error. -/
def Obligations.BranchSortIsStable : Prop :=
  ∀ live : List Branch,
    (sortBranches live).Perm live ∧ (sortBranches live).Pairwise (fun x y => x.err ≤ y.err) ∧
    ∀ e, (sortBranches live).filter (fun x => x.err == e) = live.filter (fun x => x.err == e)

/-- R253, R254, R255: which branches survive, for every draw. That the draw is taken modulo the pool size is the model's choice
(log 9). -/
def Obligations.SurvivorsAreTheTopAndTheDrawn : Prop :=
  ∀ (pick : Nat → Nat → Nat → Nat) (b nr p : Nat) (sorted : List Branch), nr ≤ b →
    (sorted.length ≤ b → survivors pick b nr p sorted = sorted) ∧
    (b < sorted.length →
      (survivors pick b nr p sorted).length = b ∧
      (∀ k, k < b - nr → (survivors pick b nr p sorted)[k]? = sorted[k]?) ∧
      ∀ k, k < nr → (survivors pick b nr p sorted)[b - nr + k]?
        = sorted[b + pick p k (sorted.length - b) % (sorted.length - b)]?)

/-- R256, R258 (a): for every draw, every live branch after the positions has one code for each target, holds the decoder state
that replaying its codes leaves, and its error is the squared error of that replay; at most 16 times `B` are live (R259). -/
def Obligations.LiveBranchesAreReplays : Prop :=
  ∀ (tbl : Tables) (pick : Nat → Nat → Nat → Nat) (b nr : Nat) (b0 : Byte) (targets : List Byte), 0 < b → nr ≤ b →
    (∀ x ∈ trellis tbl pick b nr 1 targets [rootBranch 4 b0],
      x.hist.length = targets.length ∧ (∀ c ∈ x.hist, c.toNat < 16) ∧
      x.state = replayEnd tbl (seedSnapshot 4 b0) x.hist ∧
      x.err = squaredError (replay tbl (seedSnapshot 4 b0) x.hist) targets) ∧
    (trellis tbl pick b nr 1 targets [rootBranch 4 b0]).length ≤ 16 * b

/-- R257: the winner is the first live branch of minimal error. -/
def Obligations.WinnerIsTheFirstOfMinimalError : Prop :=
  ∀ live : List Branch, live ≠ [] →
    ∃ pre x post, live = pre ++ x :: post ∧ winner live = some x ∧
      (∀ y ∈ pre, x.err < y.err) ∧ ∀ y ∈ post, x.err ≤ y.err

/-- R250: what ENCT leaves: the first sample verbatim, then the winner's codes, packed; the winner's state in the decoder
registers. The draw is the free one that the state names, and is used up (log 9). -/
def Obligations.EnctEncodesTheWinner : Prop :=
  ∀ s : State, RequestOk .enct s →
    ∃ (t : State) (b : Byte) (targets : List Byte) (x : Branch),
      s.inBytes = b :: targets ∧
      winner (trellis s.tbl (Config.pick s.draw) s.b s.nr 1 targets [rootBranch 4 b]) = some x ∧
      exec .enct s = .next t ∧ t.done = true ∧ t.err = 0 ∧ x.hist.length = s.inLen - 1 ∧
      t.outBytes = b :: packCodes 4 (padCode s.cfg 4) x.hist ∧ t.outLen = 1 + (s.inLen - 1 + 1) / 2 ∧
      x.state = .four { prev := t.prev, acc := t.acc } ∧ t.prevSet = true ∧ t.draw = s.draw + 1

/-- R258 (d): with a beam that never prunes, the winner's error is the least over all code sequences, for every draw. -/
def Obligations.WideBeamIsGloballyOptimal : Prop :=
  ∀ (tbl : Tables) (pick : Nat → Nat → Nat → Nat) (b nr : Nat) (b0 : Byte) (targets : List Byte) (x : Branch),
    targets ≠ [] → 16 ^ (targets.length - 1) ≤ b →
    winner (trellis tbl pick b nr 1 targets [rootBranch 4 b0]) = some x →
    ∀ codes : List Byte, codes.length = targets.length → (∀ c ∈ codes, c.toNat < 16) →
      x.err ≤ squaredError (replay tbl (seedSnapshot 4 b0) codes) targets

/-- V40: ENCT with `B = 1` and `NR = 0` equals ENCX with `G = 1` on every input. -/
def Obligations.BeamOfOneEqualsGroupsOfOne : Prop :=
  ∀ s : State, RequestOk .enct s → RequestOk .encx s → s.b = 1 → s.nr = 0 → s.g = 1 →
    ∃ t u, exec .enct s = .next t ∧ exec .encx s = .next u ∧ t.outBytes = u.outBytes ∧ t.outLen = u.outLen ∧
      t.err = u.err ∧ t.snapshot = u.snapshot

/-- R107, R258 (a): DECODE of what an encoder left gives the first sample of the encoder's input and then, sample for sample, the
samples the encoder scored. -/
def Obligations.DecodeOfEncodedGivesTheScoredSamples : Prop :=
  ∀ (op : Operation) (s : State), isEncoder op = true → RequestOk op s →
    ∃ (t : State) (b : Byte) (targets codes : List Byte), s.inBytes = b :: targets ∧ exec op.instr s = .next t ∧
      codes.length = s.inLen - 1 ∧
      t.outBytes = b :: packCodes s.w (padCode s.cfg s.w) codes ∧
      t.snapshot = replayEnd s.tbl (seedSnapshot s.w b) codes ∧
      ∀ u : State, RequestOk .decode u → u.w = s.w → u.tbl = s.tbl → u.inBytes = t.outBytes →
        ∃ v, exec .decode u = .next v ∧
          v.outBytes.take s.inLen = b :: replay s.tbl (seedSnapshot s.w b) codes

/-! The whole machine. -/

/-- R31, R24, R291, R324: the invariant holds at reset. -/
def Obligations.InvariantHoldsAtReset : Prop := State.reset.Inv

/-- R31, R24, R291, R324: every step, every host write and every hardware reset keeps the invariant, from every state that has it. -/
def Obligations.StepsKeepTheInvariant : Prop :=
  (∀ s t : State, s.Inv → step s = .next t → t.Inv) ∧
  (∀ (m : HostWrite) (s t : State), s.Inv → hostWrite m s = .next t → t.Inv) ∧
  (∀ s t : State, s.Inv → hardwareReset s = .next t → t.Inv)

/-- R40, R14, R52: no step writes `IN`, `INLEN`, an operand register, the tables or the parameters. -/
def Obligations.StepsNeverWriteTheOperands : Prop :=
  ∀ s t : State, step s = .next t → s.SameOperands t

/-- The frame of the operations: on success `OUT` is written below the new `OUTLEN` only; on an error at `START` not at all; by a
PACK that raises, below `INLEN` only. The packer, the branch store and the step size of the codec not in use are as `START` left
them, and the draw is used by ENCT only (R22, R100, R102, R122, R125, R200, R250). That `OUT` keeps its bytes at and above `OUTLEN` is
the model's reading of R30 and R40 (log 8). -/
def Obligations.OperationsLeaveEverythingElse : Prop :=
  ∀ (op : Operation) (s t : State), exec op.instr s = .next t →
    (t.err = 0 → (∀ a, t.outLen ≤ a → t.outMem.read a = s.outMem.read a) ∧ t.pkb = 0 ∧ t.pkn = 0 ∧
      (s.w = 4 → t.scale = 0) ∧ (s.w = 2 → t.acc = 1)) ∧
    (t.err ≠ 0 → op ≠ .pack → ∀ a, t.outMem.read a = s.outMem.read a) ∧
    (t.err ≠ 0 → op = .pack → ∀ a, s.inLen ≤ a → t.outMem.read a = s.outMem.read a) ∧
    (op ≠ .enct → t.draw = s.draw) ∧ t.branches = []

/-- R54, R293: an operation's `ERR`, `OUTLEN` and `OUT`, and on success its decoder registers, are a function of the operand registers,
the input and, for ENCT, the draw: no earlier operation matters. -/
def Obligations.EarlierOperationsDoNotMatter : Prop :=
  ∀ (op : Operation) (s₁ s₂ t₁ : State), s₁.SameOperands s₂ → (op = .enct → s₂.draw = s₁.draw) →
    exec op.instr s₁ = .next t₁ →
    ∃ t₂, exec op.instr s₂ = .next t₂ ∧ t₂.err = t₁.err ∧ t₂.outLen = t₁.outLen ∧ t₂.outBytes = t₁.outBytes ∧
      (t₁.err = 0 → t₂.prevSet = t₁.prevSet ∧ t₂.acc = t₁.acc ∧ t₂.scale = t₁.scale ∧
        (t₁.prevSet = true → t₂.prev = t₁.prev))

/-! The host. -/

/-- R15 to R19, R21, R323: each host write sets its register to the value written and marks it as written, or stores its byte of
`IN`, and leaves every other field as it was; R52, R327: while an operation runs the host has no move. That the refusal is the form
of having no move, and the naming of draws by a seed, are the model's (log 16, log 9). -/
def Obligations.HostWritesOnlyWhileIdle : Prop :=
  ∀ s : State,
    (s.done = true →
      (∀ v, hostWrite (.opsel v) s = .next { s with opsel := v, has := { s.has with opsel := true } }) ∧
      (∀ v, hostWrite (.w v) s = .next { s with w := v, has := { s.has with w := true } }) ∧
      (∀ v, hostWrite (.g v) s = .next { s with g := v, has := { s.has with g := true } }) ∧
      (∀ v, hostWrite (.b v) s = .next { s with b := v, has := { s.has with b := true } }) ∧
      (∀ v, hostWrite (.nr v) s = .next { s with nr := v, has := { s.has with nr := true } }) ∧
      (∀ v, hostWrite (.inLen v) s = .next { s with inLen := v, has := { s.has with inLen := true } }) ∧
      (∀ a v, ∃ t, hostWrite (.inByte a v) s = .next t ∧ t.inMem.read a = some v ∧
        (∀ k, k ≠ a → t.inMem.read k = s.inMem.read k) ∧ t = { s with inMem := t.inMem }) ∧
      (∀ n, hostWrite (.seedDraw n) s = .next { s with draw := n })) ∧
    (s.done = false → ∀ m, hostWrite m s = .refused .hostWhileBusy)

/-- R320, R321, V45: hardware reset of an idle block leaves the values of R30, whatever it held before, with the tables and the
parameters as they were, so that a `START` right after it is refused; while an operation runs there is no move for it (log 16). The
next draw after a reset is the model's choice and is not stated (log 22). -/
def Obligations.HardwareResetOfAnIdleBlock : Prop :=
  ∀ s : State,
    (s.done = true → ∃ t, hardwareReset s = .next t ∧ t.done = true ∧ t.err = 0 ∧ t.outLen = 0 ∧ t.acc = 1 ∧ t.scale = 0 ∧
      t.pos = 0 ∧ t.unit = 0 ∧ t.pkb = 0 ∧ t.pkn = 0 ∧ t.branches = [] ∧ t.prevSet = false ∧ t.has = Written.none ∧
      (∀ a, t.inMem.read a = none) ∧ (∀ a, t.outMem.read a = none) ∧ t.tbl = s.tbl ∧ t.cfg = s.cfg ∧
      hostReadPrev t = none ∧ hostReadW t = none ∧ hostReadOutLen t = some 0 ∧ step t = .refused (.noValue .opsel)) ∧
    (s.done = false → hardwareReset s = .refused .hostWhileBusy)

/-- R11 to R13, R15, R22, R24, R290, R291, R300, R323, R329: what the host reads. `W`, `DONE` and `ERR` always, `W` once written; while an
operation runs no result; after an operation that succeeded `OUTLEN`, each byte of `OUT` below it and none above, `ACC`, `SCALE`, and
`PREV` unless the operation steps no decoder; after an error `OUTLEN = 0` and no other result. That a register with no value reads as
nothing is the form of log 16. -/
def Obligations.HostReadsTheResults : Prop :=
  (∀ s : State, hostReadW s = (if s.has.w then some s.w else none) ∧ hostReadDone s = s.done ∧ hostReadErr s = s.err) ∧
  (∀ s : State, s.done = false → hostReadPrev s = none ∧ hostReadAcc s = none ∧ hostReadScale s = none ∧
    hostReadOutLen s = none ∧ ∀ a, hostReadOut s a = none) ∧
  (∀ (op : Operation) (s t : State), exec op.instr s = .next t →
    hostReadDone t = true ∧ hostReadW t = hostReadW s ∧
    (t.err = 0 → hostReadOutLen t = some t.outBytes.length ∧ (∀ a, hostReadOut t a = t.outBytes[a]?) ∧
      hostReadAcc t = some t.acc ∧ hostReadScale t = some t.scale ∧
      hostReadPrev t = (if op = .pack ∨ op = .unpack then none else some t.prev)) ∧
    (t.err ≠ 0 → hostReadOutLen t = some 0 ∧ (∀ a, hostReadOut t a = none) ∧ hostReadAcc t = none ∧
      hostReadScale t = none ∧ hostReadPrev t = none))
end

