-- ==== Sys2Proof/Laws/Memory.lean ====
section
/-! SUPPORT. The laws of a byte space: a read after a write, and the canonical form. -/

namespace Sys2Proof.Machine

@[simp] theorem Memory.read_nil (a : Nat) : Memory.read [] a = none := rfl

theorem Memory.read_write_same (m : Memory) (a : Nat) (v : Byte) : (m.write a v).read a = some v := by
  induction m with
  | nil => simp [Memory.write, Memory.read]
  | cons c rest ih =>
    obtain ⟨k, x⟩ := c
    simp only [Memory.write]
    split
    · simp [Memory.read]
    · split
      · simp [Memory.read]
      · next h1 h2 =>
        have : k ≠ a := fun h => h2 h.symm
        simp [Memory.read, this, ih]

theorem Memory.read_write_ne (m : Memory) {a b : Nat} (v : Byte) (h : b ≠ a) :
    (m.write a v).read b = m.read b := by
  induction m with
  | nil => simp [Memory.write, Memory.read, h.symm]
  | cons c rest ih =>
    obtain ⟨k, x⟩ := c
    simp only [Memory.write]
    split
    · simp [Memory.read, h.symm]
    · split
      · next h1 h2 => subst h2; simp [Memory.read, h.symm]
      · simp [Memory.read, ih]

theorem Memory.read_write (m : Memory) (a b : Nat) (v : Byte) :
    (m.write a v).read b = if b = a then some v else m.read b := by
  split
  · next h => subst h; exact m.read_write_same _ v
  · next h => exact m.read_write_ne v h

theorem Memory.wf_tail {c : Host.Cell} {m : Memory} (h : Memory.wf (c :: m) = true) : Memory.wf m = true := by
  obtain ⟨k, x⟩ := c
  cases m with
  | nil => rfl
  | cons c' m' => obtain ⟨k', x'⟩ := c'; simp only [Memory.wf, Bool.and_eq_true] at h; exact h.2

theorem Memory.wf_cons_write {j : Nat} {y : Byte} {m : Memory} {a : Nat} {v : Byte} (hj : j < a)
    (h : Memory.wf ((j, y) :: m) = true) (hw : Memory.wf (m.write a v) = true) :
    Memory.wf ((j, y) :: m.write a v) = true := by
  cases m with
  | nil => simpa [Memory.write, Memory.wf] using hj
  | cons c m' =>
    obtain ⟨k', x'⟩ := c
    simp only [Memory.wf, Bool.and_eq_true, decide_eq_true_eq] at h
    simp only [Memory.write] at hw ⊢
    split
    · next h1 => rw [if_pos h1] at hw; simp [Memory.wf, hj] at hw ⊢; exact hw
    · split
      · next h1 h2 => rw [if_neg h1, if_pos h2] at hw; simp [Memory.wf, hj] at hw ⊢; exact hw
      · next h1 h2 => rw [if_neg h1, if_neg h2] at hw; simp [Memory.wf, h.1] at hw ⊢; exact hw

/-- A write keeps the canonical form. -/
theorem Memory.wf_write (m : Memory) (a : Nat) (v : Byte) (h : m.wf = true) : (m.write a v).wf = true := by
  induction m with
  | nil => rfl
  | cons c rest ih =>
    obtain ⟨k, x⟩ := c
    have ih' := ih (Memory.wf_tail h)
    simp only [Memory.write]
    split
    · next h1 => simp [Memory.wf, h1]; exact h
    · split
      · next h1 h2 =>
        subst h2
        cases rest with
        | nil => rfl
        | cons c' m' => obtain ⟨k', x'⟩ := c'; simpa [Memory.wf] using h
      · next h1 h2 => exact Memory.wf_cons_write (by omega) h ih'

end Sys2Proof.Machine
end

