-- ==== Sys2Proof/Laws/State.lean ====
section
/-! SUPPORT. One lemma for each field of each update of the state, so that no proof unfolds a record update. -/

namespace Sys2Proof.Machine

/-! The fields after `emit`. -/

@[simp] theorem State.emit_prev (s : State) (v : Byte) : (s.emit v).prev = s.prev := rfl
@[simp] theorem State.emit_prevSet (s : State) (v : Byte) : (s.emit v).prevSet = s.prevSet := rfl
@[simp] theorem State.emit_acc (s : State) (v : Byte) : (s.emit v).acc = s.acc := rfl
@[simp] theorem State.emit_scale (s : State) (v : Byte) : (s.emit v).scale = s.scale := rfl
@[simp] theorem State.emit_tbl (s : State) (v : Byte) : (s.emit v).tbl = s.tbl := rfl
@[simp] theorem State.emit_w (s : State) (v : Byte) : (s.emit v).w = s.w := rfl
@[simp] theorem State.emit_opsel (s : State) (v : Byte) : (s.emit v).opsel = s.opsel := rfl
@[simp] theorem State.emit_g (s : State) (v : Byte) : (s.emit v).g = s.g := rfl
@[simp] theorem State.emit_b (s : State) (v : Byte) : (s.emit v).b = s.b := rfl
@[simp] theorem State.emit_nr (s : State) (v : Byte) : (s.emit v).nr = s.nr := rfl
@[simp] theorem State.emit_inMem (s : State) (v : Byte) : (s.emit v).inMem = s.inMem := rfl
@[simp] theorem State.emit_inLen (s : State) (v : Byte) : (s.emit v).inLen = s.inLen := rfl
@[simp] theorem State.emit_outMem (s : State) (v : Byte) : (s.emit v).outMem = s.outMem.write s.outLen v := rfl
@[simp] theorem State.emit_outLen (s : State) (v : Byte) : (s.emit v).outLen = s.outLen + 1 := rfl
@[simp] theorem State.emit_done (s : State) (v : Byte) : (s.emit v).done = s.done := rfl
@[simp] theorem State.emit_err (s : State) (v : Byte) : (s.emit v).err = s.err := rfl
@[simp] theorem State.emit_pos (s : State) (v : Byte) : (s.emit v).pos = s.pos := rfl
@[simp] theorem State.emit_unit (s : State) (v : Byte) : (s.emit v).unit = s.unit := rfl
@[simp] theorem State.emit_pkb (s : State) (v : Byte) : (s.emit v).pkb = s.pkb := rfl
@[simp] theorem State.emit_pkn (s : State) (v : Byte) : (s.emit v).pkn = s.pkn := rfl
@[simp] theorem State.emit_branches (s : State) (v : Byte) : (s.emit v).branches = s.branches := rfl
@[simp] theorem State.emit_has (s : State) (v : Byte) : (s.emit v).has = s.has := rfl
@[simp] theorem State.emit_cfg (s : State) (v : Byte) : (s.emit v).cfg = s.cfg := rfl
@[simp] theorem State.emit_draw (s : State) (v : Byte) : (s.emit v).draw = s.draw := rfl
@[simp] theorem State.emit_free (s : State) (v : Byte) : (s.emit v).free = s.free := rfl

/-! The fields after `seed`. -/

@[simp] theorem State.seed_prev (s : State) (b : Byte) : (s.seed b).prev = b := rfl
@[simp] theorem State.seed_prevSet (s : State) (b : Byte) : (s.seed b).prevSet = true := rfl
@[simp] theorem State.seed_acc (s : State) (b : Byte) : (s.seed b).acc = 1 := rfl
@[simp] theorem State.seed_scale (s : State) (b : Byte) : (s.seed b).scale = 0 := rfl
@[simp] theorem State.seed_tbl (s : State) (b : Byte) : (s.seed b).tbl = s.tbl := rfl
@[simp] theorem State.seed_w (s : State) (b : Byte) : (s.seed b).w = s.w := rfl
@[simp] theorem State.seed_opsel (s : State) (b : Byte) : (s.seed b).opsel = s.opsel := rfl
@[simp] theorem State.seed_g (s : State) (b : Byte) : (s.seed b).g = s.g := rfl
@[simp] theorem State.seed_b (s : State) (b : Byte) : (s.seed b).b = s.b := rfl
@[simp] theorem State.seed_nr (s : State) (b : Byte) : (s.seed b).nr = s.nr := rfl
@[simp] theorem State.seed_inMem (s : State) (b : Byte) : (s.seed b).inMem = s.inMem := rfl
@[simp] theorem State.seed_inLen (s : State) (b : Byte) : (s.seed b).inLen = s.inLen := rfl
@[simp] theorem State.seed_outMem (s : State) (b : Byte) : (s.seed b).outMem = s.outMem := rfl
@[simp] theorem State.seed_outLen (s : State) (b : Byte) : (s.seed b).outLen = s.outLen := rfl
@[simp] theorem State.seed_done (s : State) (b : Byte) : (s.seed b).done = s.done := rfl
@[simp] theorem State.seed_err (s : State) (b : Byte) : (s.seed b).err = s.err := rfl
@[simp] theorem State.seed_pos (s : State) (b : Byte) : (s.seed b).pos = s.pos := rfl
@[simp] theorem State.seed_unit (s : State) (b : Byte) : (s.seed b).unit = s.unit := rfl
@[simp] theorem State.seed_pkb (s : State) (b : Byte) : (s.seed b).pkb = s.pkb := rfl
@[simp] theorem State.seed_pkn (s : State) (b : Byte) : (s.seed b).pkn = s.pkn := rfl
@[simp] theorem State.seed_branches (s : State) (b : Byte) : (s.seed b).branches = s.branches := rfl
@[simp] theorem State.seed_has (s : State) (b : Byte) : (s.seed b).has = s.has := rfl
@[simp] theorem State.seed_cfg (s : State) (b : Byte) : (s.seed b).cfg = s.cfg := rfl
@[simp] theorem State.seed_draw (s : State) (b : Byte) : (s.seed b).draw = s.draw := rfl
@[simp] theorem State.seed_free (s : State) (b : Byte) : (s.seed b).free = s.free := rfl

/-! The fields after `setDec4`. -/

@[simp] theorem State.setDec4_prev (s : State) (d : Dec4) : (s.setDec4 d).prev = d.prev := rfl
@[simp] theorem State.setDec4_prevSet (s : State) (d : Dec4) : (s.setDec4 d).prevSet = true := rfl
@[simp] theorem State.setDec4_acc (s : State) (d : Dec4) : (s.setDec4 d).acc = d.acc := rfl
@[simp] theorem State.setDec4_scale (s : State) (d : Dec4) : (s.setDec4 d).scale = s.scale := rfl
@[simp] theorem State.setDec4_tbl (s : State) (d : Dec4) : (s.setDec4 d).tbl = s.tbl := rfl
@[simp] theorem State.setDec4_w (s : State) (d : Dec4) : (s.setDec4 d).w = s.w := rfl
@[simp] theorem State.setDec4_opsel (s : State) (d : Dec4) : (s.setDec4 d).opsel = s.opsel := rfl
@[simp] theorem State.setDec4_g (s : State) (d : Dec4) : (s.setDec4 d).g = s.g := rfl
@[simp] theorem State.setDec4_b (s : State) (d : Dec4) : (s.setDec4 d).b = s.b := rfl
@[simp] theorem State.setDec4_nr (s : State) (d : Dec4) : (s.setDec4 d).nr = s.nr := rfl
@[simp] theorem State.setDec4_inMem (s : State) (d : Dec4) : (s.setDec4 d).inMem = s.inMem := rfl
@[simp] theorem State.setDec4_inLen (s : State) (d : Dec4) : (s.setDec4 d).inLen = s.inLen := rfl
@[simp] theorem State.setDec4_outMem (s : State) (d : Dec4) : (s.setDec4 d).outMem = s.outMem := rfl
@[simp] theorem State.setDec4_outLen (s : State) (d : Dec4) : (s.setDec4 d).outLen = s.outLen := rfl
@[simp] theorem State.setDec4_done (s : State) (d : Dec4) : (s.setDec4 d).done = s.done := rfl
@[simp] theorem State.setDec4_err (s : State) (d : Dec4) : (s.setDec4 d).err = s.err := rfl
@[simp] theorem State.setDec4_pos (s : State) (d : Dec4) : (s.setDec4 d).pos = s.pos := rfl
@[simp] theorem State.setDec4_unit (s : State) (d : Dec4) : (s.setDec4 d).unit = s.unit := rfl
@[simp] theorem State.setDec4_pkb (s : State) (d : Dec4) : (s.setDec4 d).pkb = s.pkb := rfl
@[simp] theorem State.setDec4_pkn (s : State) (d : Dec4) : (s.setDec4 d).pkn = s.pkn := rfl
@[simp] theorem State.setDec4_branches (s : State) (d : Dec4) : (s.setDec4 d).branches = s.branches := rfl
@[simp] theorem State.setDec4_has (s : State) (d : Dec4) : (s.setDec4 d).has = s.has := rfl
@[simp] theorem State.setDec4_cfg (s : State) (d : Dec4) : (s.setDec4 d).cfg = s.cfg := rfl
@[simp] theorem State.setDec4_draw (s : State) (d : Dec4) : (s.setDec4 d).draw = s.draw := rfl
@[simp] theorem State.setDec4_free (s : State) (d : Dec4) : (s.setDec4 d).free = s.free := rfl

/-! The fields after `setDec2`. -/

@[simp] theorem State.setDec2_prev (s : State) (d : Dec2) : (s.setDec2 d).prev = d.prev := rfl
@[simp] theorem State.setDec2_prevSet (s : State) (d : Dec2) : (s.setDec2 d).prevSet = true := rfl
@[simp] theorem State.setDec2_acc (s : State) (d : Dec2) : (s.setDec2 d).acc = s.acc := rfl
@[simp] theorem State.setDec2_scale (s : State) (d : Dec2) : (s.setDec2 d).scale = d.scale := rfl
@[simp] theorem State.setDec2_tbl (s : State) (d : Dec2) : (s.setDec2 d).tbl = s.tbl := rfl
@[simp] theorem State.setDec2_w (s : State) (d : Dec2) : (s.setDec2 d).w = s.w := rfl
@[simp] theorem State.setDec2_opsel (s : State) (d : Dec2) : (s.setDec2 d).opsel = s.opsel := rfl
@[simp] theorem State.setDec2_g (s : State) (d : Dec2) : (s.setDec2 d).g = s.g := rfl
@[simp] theorem State.setDec2_b (s : State) (d : Dec2) : (s.setDec2 d).b = s.b := rfl
@[simp] theorem State.setDec2_nr (s : State) (d : Dec2) : (s.setDec2 d).nr = s.nr := rfl
@[simp] theorem State.setDec2_inMem (s : State) (d : Dec2) : (s.setDec2 d).inMem = s.inMem := rfl
@[simp] theorem State.setDec2_inLen (s : State) (d : Dec2) : (s.setDec2 d).inLen = s.inLen := rfl
@[simp] theorem State.setDec2_outMem (s : State) (d : Dec2) : (s.setDec2 d).outMem = s.outMem := rfl
@[simp] theorem State.setDec2_outLen (s : State) (d : Dec2) : (s.setDec2 d).outLen = s.outLen := rfl
@[simp] theorem State.setDec2_done (s : State) (d : Dec2) : (s.setDec2 d).done = s.done := rfl
@[simp] theorem State.setDec2_err (s : State) (d : Dec2) : (s.setDec2 d).err = s.err := rfl
@[simp] theorem State.setDec2_pos (s : State) (d : Dec2) : (s.setDec2 d).pos = s.pos := rfl
@[simp] theorem State.setDec2_unit (s : State) (d : Dec2) : (s.setDec2 d).unit = s.unit := rfl
@[simp] theorem State.setDec2_pkb (s : State) (d : Dec2) : (s.setDec2 d).pkb = s.pkb := rfl
@[simp] theorem State.setDec2_pkn (s : State) (d : Dec2) : (s.setDec2 d).pkn = s.pkn := rfl
@[simp] theorem State.setDec2_branches (s : State) (d : Dec2) : (s.setDec2 d).branches = s.branches := rfl
@[simp] theorem State.setDec2_has (s : State) (d : Dec2) : (s.setDec2 d).has = s.has := rfl
@[simp] theorem State.setDec2_cfg (s : State) (d : Dec2) : (s.setDec2 d).cfg = s.cfg := rfl
@[simp] theorem State.setDec2_draw (s : State) (d : Dec2) : (s.setDec2 d).draw = s.draw := rfl
@[simp] theorem State.setDec2_free (s : State) (d : Dec2) : (s.setDec2 d).free = s.free := rfl

/-! The fields after `setBranches`. -/

@[simp] theorem State.setBranches_prev (s : State) (l : List Branch) : (s.setBranches l).prev = s.prev := rfl
@[simp] theorem State.setBranches_prevSet (s : State) (l : List Branch) : (s.setBranches l).prevSet = s.prevSet := rfl
@[simp] theorem State.setBranches_acc (s : State) (l : List Branch) : (s.setBranches l).acc = s.acc := rfl
@[simp] theorem State.setBranches_scale (s : State) (l : List Branch) : (s.setBranches l).scale = s.scale := rfl
@[simp] theorem State.setBranches_tbl (s : State) (l : List Branch) : (s.setBranches l).tbl = s.tbl := rfl
@[simp] theorem State.setBranches_w (s : State) (l : List Branch) : (s.setBranches l).w = s.w := rfl
@[simp] theorem State.setBranches_opsel (s : State) (l : List Branch) : (s.setBranches l).opsel = s.opsel := rfl
@[simp] theorem State.setBranches_g (s : State) (l : List Branch) : (s.setBranches l).g = s.g := rfl
@[simp] theorem State.setBranches_b (s : State) (l : List Branch) : (s.setBranches l).b = s.b := rfl
@[simp] theorem State.setBranches_nr (s : State) (l : List Branch) : (s.setBranches l).nr = s.nr := rfl
@[simp] theorem State.setBranches_inMem (s : State) (l : List Branch) : (s.setBranches l).inMem = s.inMem := rfl
@[simp] theorem State.setBranches_inLen (s : State) (l : List Branch) : (s.setBranches l).inLen = s.inLen := rfl
@[simp] theorem State.setBranches_outMem (s : State) (l : List Branch) : (s.setBranches l).outMem = s.outMem := rfl
@[simp] theorem State.setBranches_outLen (s : State) (l : List Branch) : (s.setBranches l).outLen = s.outLen := rfl
@[simp] theorem State.setBranches_done (s : State) (l : List Branch) : (s.setBranches l).done = s.done := rfl
@[simp] theorem State.setBranches_err (s : State) (l : List Branch) : (s.setBranches l).err = s.err := rfl
@[simp] theorem State.setBranches_pos (s : State) (l : List Branch) : (s.setBranches l).pos = s.pos := rfl
@[simp] theorem State.setBranches_unit (s : State) (l : List Branch) : (s.setBranches l).unit = s.unit := rfl
@[simp] theorem State.setBranches_pkb (s : State) (l : List Branch) : (s.setBranches l).pkb = s.pkb := rfl
@[simp] theorem State.setBranches_pkn (s : State) (l : List Branch) : (s.setBranches l).pkn = s.pkn := rfl
@[simp] theorem State.setBranches_branches (s : State) (l : List Branch) : (s.setBranches l).branches = l := rfl
@[simp] theorem State.setBranches_has (s : State) (l : List Branch) : (s.setBranches l).has = s.has := rfl
@[simp] theorem State.setBranches_cfg (s : State) (l : List Branch) : (s.setBranches l).cfg = s.cfg := rfl
@[simp] theorem State.setBranches_draw (s : State) (l : List Branch) : (s.setBranches l).draw = s.draw := rfl
@[simp] theorem State.setBranches_free (s : State) (l : List Branch) : (s.setBranches l).free = s.free := rfl

/-! The fields after `setDraw`. -/

@[simp] theorem State.setDraw_prev (s : State) (n : Nat) : (s.setDraw n).prev = s.prev := rfl
@[simp] theorem State.setDraw_prevSet (s : State) (n : Nat) : (s.setDraw n).prevSet = s.prevSet := rfl
@[simp] theorem State.setDraw_acc (s : State) (n : Nat) : (s.setDraw n).acc = s.acc := rfl
@[simp] theorem State.setDraw_scale (s : State) (n : Nat) : (s.setDraw n).scale = s.scale := rfl
@[simp] theorem State.setDraw_tbl (s : State) (n : Nat) : (s.setDraw n).tbl = s.tbl := rfl
@[simp] theorem State.setDraw_w (s : State) (n : Nat) : (s.setDraw n).w = s.w := rfl
@[simp] theorem State.setDraw_opsel (s : State) (n : Nat) : (s.setDraw n).opsel = s.opsel := rfl
@[simp] theorem State.setDraw_g (s : State) (n : Nat) : (s.setDraw n).g = s.g := rfl
@[simp] theorem State.setDraw_b (s : State) (n : Nat) : (s.setDraw n).b = s.b := rfl
@[simp] theorem State.setDraw_nr (s : State) (n : Nat) : (s.setDraw n).nr = s.nr := rfl
@[simp] theorem State.setDraw_inMem (s : State) (n : Nat) : (s.setDraw n).inMem = s.inMem := rfl
@[simp] theorem State.setDraw_inLen (s : State) (n : Nat) : (s.setDraw n).inLen = s.inLen := rfl
@[simp] theorem State.setDraw_outMem (s : State) (n : Nat) : (s.setDraw n).outMem = s.outMem := rfl
@[simp] theorem State.setDraw_outLen (s : State) (n : Nat) : (s.setDraw n).outLen = s.outLen := rfl
@[simp] theorem State.setDraw_done (s : State) (n : Nat) : (s.setDraw n).done = s.done := rfl
@[simp] theorem State.setDraw_err (s : State) (n : Nat) : (s.setDraw n).err = s.err := rfl
@[simp] theorem State.setDraw_pos (s : State) (n : Nat) : (s.setDraw n).pos = s.pos := rfl
@[simp] theorem State.setDraw_unit (s : State) (n : Nat) : (s.setDraw n).unit = s.unit := rfl
@[simp] theorem State.setDraw_pkb (s : State) (n : Nat) : (s.setDraw n).pkb = s.pkb := rfl
@[simp] theorem State.setDraw_pkn (s : State) (n : Nat) : (s.setDraw n).pkn = s.pkn := rfl
@[simp] theorem State.setDraw_branches (s : State) (n : Nat) : (s.setDraw n).branches = s.branches := rfl
@[simp] theorem State.setDraw_has (s : State) (n : Nat) : (s.setDraw n).has = s.has := rfl
@[simp] theorem State.setDraw_cfg (s : State) (n : Nat) : (s.setDraw n).cfg = s.cfg := rfl
@[simp] theorem State.setDraw_draw (s : State) (n : Nat) : (s.setDraw n).draw = n := rfl
@[simp] theorem State.setDraw_free (s : State) (n : Nat) : (s.setDraw n).free = s.free := rfl

/-! The fields after `startInit`. -/

@[simp] theorem State.startInit_prev (s : State) : s.startInit.prev = Config.freePrev s.free := rfl
@[simp] theorem State.startInit_prevSet (s : State) : s.startInit.prevSet = false := rfl
@[simp] theorem State.startInit_acc (s : State) : s.startInit.acc = 1 := rfl
@[simp] theorem State.startInit_scale (s : State) : s.startInit.scale = 0 := rfl
@[simp] theorem State.startInit_tbl (s : State) : s.startInit.tbl = s.tbl := rfl
@[simp] theorem State.startInit_w (s : State) : s.startInit.w = s.w := rfl
@[simp] theorem State.startInit_opsel (s : State) : s.startInit.opsel = s.opsel := rfl
@[simp] theorem State.startInit_g (s : State) : s.startInit.g = s.g := rfl
@[simp] theorem State.startInit_b (s : State) : s.startInit.b = s.b := rfl
@[simp] theorem State.startInit_nr (s : State) : s.startInit.nr = s.nr := rfl
@[simp] theorem State.startInit_inMem (s : State) : s.startInit.inMem = s.inMem := rfl
@[simp] theorem State.startInit_inLen (s : State) : s.startInit.inLen = s.inLen := rfl
@[simp] theorem State.startInit_outMem (s : State) : s.startInit.outMem = s.outMem := rfl
@[simp] theorem State.startInit_outLen (s : State) : s.startInit.outLen = 0 := rfl
@[simp] theorem State.startInit_done (s : State) : s.startInit.done = false := rfl
@[simp] theorem State.startInit_err (s : State) : s.startInit.err = errNone := rfl
@[simp] theorem State.startInit_pos (s : State) : s.startInit.pos = 0 := rfl
@[simp] theorem State.startInit_unit (s : State) : s.startInit.unit = 0 := rfl
@[simp] theorem State.startInit_pkb (s : State) : s.startInit.pkb = 0 := rfl
@[simp] theorem State.startInit_pkn (s : State) : s.startInit.pkn = 0 := rfl
@[simp] theorem State.startInit_branches (s : State) : s.startInit.branches = [] := rfl
@[simp] theorem State.startInit_has (s : State) : s.startInit.has = s.has := rfl
@[simp] theorem State.startInit_cfg (s : State) : s.startInit.cfg = s.cfg := rfl
@[simp] theorem State.startInit_draw (s : State) : s.startInit.draw = s.draw := rfl
@[simp] theorem State.startInit_free (s : State) : s.startInit.free = s.free + 1 := rfl

/-! The fields after `finishOk`. -/

@[simp] theorem State.finishOk_prev (s : State) : s.finishOk.prev = s.prev := rfl
@[simp] theorem State.finishOk_prevSet (s : State) : s.finishOk.prevSet = s.prevSet := rfl
@[simp] theorem State.finishOk_acc (s : State) : s.finishOk.acc = s.acc := rfl
@[simp] theorem State.finishOk_scale (s : State) : s.finishOk.scale = s.scale := rfl
@[simp] theorem State.finishOk_tbl (s : State) : s.finishOk.tbl = s.tbl := rfl
@[simp] theorem State.finishOk_w (s : State) : s.finishOk.w = s.w := rfl
@[simp] theorem State.finishOk_opsel (s : State) : s.finishOk.opsel = s.opsel := rfl
@[simp] theorem State.finishOk_g (s : State) : s.finishOk.g = s.g := rfl
@[simp] theorem State.finishOk_b (s : State) : s.finishOk.b = s.b := rfl
@[simp] theorem State.finishOk_nr (s : State) : s.finishOk.nr = s.nr := rfl
@[simp] theorem State.finishOk_inMem (s : State) : s.finishOk.inMem = s.inMem := rfl
@[simp] theorem State.finishOk_inLen (s : State) : s.finishOk.inLen = s.inLen := rfl
@[simp] theorem State.finishOk_outMem (s : State) : s.finishOk.outMem = s.outMem := rfl
@[simp] theorem State.finishOk_outLen (s : State) : s.finishOk.outLen = s.outLen := rfl
@[simp] theorem State.finishOk_done (s : State) : s.finishOk.done = true := rfl
@[simp] theorem State.finishOk_err (s : State) : s.finishOk.err = errNone := rfl
@[simp] theorem State.finishOk_pos (s : State) : s.finishOk.pos = s.pos := rfl
@[simp] theorem State.finishOk_unit (s : State) : s.finishOk.unit = s.unit := rfl
@[simp] theorem State.finishOk_pkb (s : State) : s.finishOk.pkb = s.pkb := rfl
@[simp] theorem State.finishOk_pkn (s : State) : s.finishOk.pkn = s.pkn := rfl
@[simp] theorem State.finishOk_branches (s : State) : s.finishOk.branches = s.branches := rfl
@[simp] theorem State.finishOk_has (s : State) : s.finishOk.has = s.has := rfl
@[simp] theorem State.finishOk_cfg (s : State) : s.finishOk.cfg = s.cfg := rfl
@[simp] theorem State.finishOk_draw (s : State) : s.finishOk.draw = s.draw := rfl
@[simp] theorem State.finishOk_free (s : State) : s.finishOk.free = s.free := rfl

/-! The fields after `raiseError`. -/

@[simp] theorem State.raiseError_prev (s : State) (e : Err) : (s.raiseError e).prev = Config.freePrev s.free := rfl
@[simp] theorem State.raiseError_prevSet (s : State) (e : Err) : (s.raiseError e).prevSet = false := rfl
@[simp] theorem State.raiseError_acc (s : State) (e : Err) : (s.raiseError e).acc = BitVec.ofNat 4 (2 ^ (Config.freeAcc s.free).val) := rfl
@[simp] theorem State.raiseError_scale (s : State) (e : Err) : (s.raiseError e).scale = Config.freeScale s.free := rfl
@[simp] theorem State.raiseError_tbl (s : State) (e : Err) : (s.raiseError e).tbl = s.tbl := rfl
@[simp] theorem State.raiseError_w (s : State) (e : Err) : (s.raiseError e).w = s.w := rfl
@[simp] theorem State.raiseError_opsel (s : State) (e : Err) : (s.raiseError e).opsel = s.opsel := rfl
@[simp] theorem State.raiseError_g (s : State) (e : Err) : (s.raiseError e).g = s.g := rfl
@[simp] theorem State.raiseError_b (s : State) (e : Err) : (s.raiseError e).b = s.b := rfl
@[simp] theorem State.raiseError_nr (s : State) (e : Err) : (s.raiseError e).nr = s.nr := rfl
@[simp] theorem State.raiseError_inMem (s : State) (e : Err) : (s.raiseError e).inMem = s.inMem := rfl
@[simp] theorem State.raiseError_inLen (s : State) (e : Err) : (s.raiseError e).inLen = s.inLen := rfl
@[simp] theorem State.raiseError_outMem (s : State) (e : Err) : (s.raiseError e).outMem = s.outMem := rfl
@[simp] theorem State.raiseError_outLen (s : State) (e : Err) : (s.raiseError e).outLen = 0 := rfl
@[simp] theorem State.raiseError_done (s : State) (e : Err) : (s.raiseError e).done = true := rfl
@[simp] theorem State.raiseError_err (s : State) (e : Err) : (s.raiseError e).err = errCode e := rfl
@[simp] theorem State.raiseError_pos (s : State) (e : Err) : (s.raiseError e).pos = Config.freePos s.free := rfl
@[simp] theorem State.raiseError_unit (s : State) (e : Err) : (s.raiseError e).unit = (Config.freeUnit s.free).val := rfl
@[simp] theorem State.raiseError_pkb (s : State) (e : Err) : (s.raiseError e).pkb = Config.freePkb s.free := rfl
@[simp] theorem State.raiseError_pkn (s : State) (e : Err) : (s.raiseError e).pkn = (Config.freePkn s.free).val := rfl
@[simp] theorem State.raiseError_branches (s : State) (e : Err) : (s.raiseError e).branches = [] := rfl
@[simp] theorem State.raiseError_has (s : State) (e : Err) : (s.raiseError e).has = s.has := rfl
@[simp] theorem State.raiseError_cfg (s : State) (e : Err) : (s.raiseError e).cfg = s.cfg := rfl
@[simp] theorem State.raiseError_draw (s : State) (e : Err) : (s.raiseError e).draw = s.draw := rfl
@[simp] theorem State.raiseError_free (s : State) (e : Err) : (s.raiseError e).free = s.free + 1 := rfl

/-! The fields after `setPacker`. -/

@[simp] theorem State.setPacker_prev (s : State) (x : Byte) (n : Nat) : (s.setPacker x n).prev = s.prev := rfl
@[simp] theorem State.setPacker_prevSet (s : State) (x : Byte) (n : Nat) : (s.setPacker x n).prevSet = s.prevSet := rfl
@[simp] theorem State.setPacker_acc (s : State) (x : Byte) (n : Nat) : (s.setPacker x n).acc = s.acc := rfl
@[simp] theorem State.setPacker_scale (s : State) (x : Byte) (n : Nat) : (s.setPacker x n).scale = s.scale := rfl
@[simp] theorem State.setPacker_tbl (s : State) (x : Byte) (n : Nat) : (s.setPacker x n).tbl = s.tbl := rfl
@[simp] theorem State.setPacker_w (s : State) (x : Byte) (n : Nat) : (s.setPacker x n).w = s.w := rfl
@[simp] theorem State.setPacker_opsel (s : State) (x : Byte) (n : Nat) : (s.setPacker x n).opsel = s.opsel := rfl
@[simp] theorem State.setPacker_g (s : State) (x : Byte) (n : Nat) : (s.setPacker x n).g = s.g := rfl
@[simp] theorem State.setPacker_b (s : State) (x : Byte) (n : Nat) : (s.setPacker x n).b = s.b := rfl
@[simp] theorem State.setPacker_nr (s : State) (x : Byte) (n : Nat) : (s.setPacker x n).nr = s.nr := rfl
@[simp] theorem State.setPacker_inMem (s : State) (x : Byte) (n : Nat) : (s.setPacker x n).inMem = s.inMem := rfl
@[simp] theorem State.setPacker_inLen (s : State) (x : Byte) (n : Nat) : (s.setPacker x n).inLen = s.inLen := rfl
@[simp] theorem State.setPacker_outMem (s : State) (x : Byte) (n : Nat) : (s.setPacker x n).outMem = s.outMem := rfl
@[simp] theorem State.setPacker_outLen (s : State) (x : Byte) (n : Nat) : (s.setPacker x n).outLen = s.outLen := rfl
@[simp] theorem State.setPacker_done (s : State) (x : Byte) (n : Nat) : (s.setPacker x n).done = s.done := rfl
@[simp] theorem State.setPacker_err (s : State) (x : Byte) (n : Nat) : (s.setPacker x n).err = s.err := rfl
@[simp] theorem State.setPacker_pos (s : State) (x : Byte) (n : Nat) : (s.setPacker x n).pos = s.pos := rfl
@[simp] theorem State.setPacker_unit (s : State) (x : Byte) (n : Nat) : (s.setPacker x n).unit = s.unit := rfl
@[simp] theorem State.setPacker_pkb (s : State) (x : Byte) (n : Nat) : (s.setPacker x n).pkb = x := rfl
@[simp] theorem State.setPacker_pkn (s : State) (x : Byte) (n : Nat) : (s.setPacker x n).pkn = n := rfl
@[simp] theorem State.setPacker_branches (s : State) (x : Byte) (n : Nat) : (s.setPacker x n).branches = s.branches := rfl
@[simp] theorem State.setPacker_has (s : State) (x : Byte) (n : Nat) : (s.setPacker x n).has = s.has := rfl
@[simp] theorem State.setPacker_cfg (s : State) (x : Byte) (n : Nat) : (s.setPacker x n).cfg = s.cfg := rfl
@[simp] theorem State.setPacker_draw (s : State) (x : Byte) (n : Nat) : (s.setPacker x n).draw = s.draw := rfl
@[simp] theorem State.setPacker_free (s : State) (x : Byte) (n : Nat) : (s.setPacker x n).free = s.free := rfl

/-! The fields after `setPos`. -/

@[simp] theorem State.setPos_prev (s : State) (p u : Nat) : (s.setPos p u).prev = s.prev := rfl
@[simp] theorem State.setPos_prevSet (s : State) (p u : Nat) : (s.setPos p u).prevSet = s.prevSet := rfl
@[simp] theorem State.setPos_acc (s : State) (p u : Nat) : (s.setPos p u).acc = s.acc := rfl
@[simp] theorem State.setPos_scale (s : State) (p u : Nat) : (s.setPos p u).scale = s.scale := rfl
@[simp] theorem State.setPos_tbl (s : State) (p u : Nat) : (s.setPos p u).tbl = s.tbl := rfl
@[simp] theorem State.setPos_w (s : State) (p u : Nat) : (s.setPos p u).w = s.w := rfl
@[simp] theorem State.setPos_opsel (s : State) (p u : Nat) : (s.setPos p u).opsel = s.opsel := rfl
@[simp] theorem State.setPos_g (s : State) (p u : Nat) : (s.setPos p u).g = s.g := rfl
@[simp] theorem State.setPos_b (s : State) (p u : Nat) : (s.setPos p u).b = s.b := rfl
@[simp] theorem State.setPos_nr (s : State) (p u : Nat) : (s.setPos p u).nr = s.nr := rfl
@[simp] theorem State.setPos_inMem (s : State) (p u : Nat) : (s.setPos p u).inMem = s.inMem := rfl
@[simp] theorem State.setPos_inLen (s : State) (p u : Nat) : (s.setPos p u).inLen = s.inLen := rfl
@[simp] theorem State.setPos_outMem (s : State) (p u : Nat) : (s.setPos p u).outMem = s.outMem := rfl
@[simp] theorem State.setPos_outLen (s : State) (p u : Nat) : (s.setPos p u).outLen = s.outLen := rfl
@[simp] theorem State.setPos_done (s : State) (p u : Nat) : (s.setPos p u).done = s.done := rfl
@[simp] theorem State.setPos_err (s : State) (p u : Nat) : (s.setPos p u).err = s.err := rfl
@[simp] theorem State.setPos_pos (s : State) (p u : Nat) : (s.setPos p u).pos = p := rfl
@[simp] theorem State.setPos_unit (s : State) (p u : Nat) : (s.setPos p u).unit = u := rfl
@[simp] theorem State.setPos_pkb (s : State) (p u : Nat) : (s.setPos p u).pkb = s.pkb := rfl
@[simp] theorem State.setPos_pkn (s : State) (p u : Nat) : (s.setPos p u).pkn = s.pkn := rfl
@[simp] theorem State.setPos_branches (s : State) (p u : Nat) : (s.setPos p u).branches = s.branches := rfl
@[simp] theorem State.setPos_has (s : State) (p u : Nat) : (s.setPos p u).has = s.has := rfl
@[simp] theorem State.setPos_cfg (s : State) (p u : Nat) : (s.setPos p u).cfg = s.cfg := rfl
@[simp] theorem State.setPos_draw (s : State) (p u : Nat) : (s.setPos p u).draw = s.draw := rfl
@[simp] theorem State.setPos_free (s : State) (p u : Nat) : (s.setPos p u).free = s.free := rfl

/-! The fields after `advance`: only `POS` and `UNIT` change. -/

@[simp] theorem State.advance_prev (s : State) (n : Nat) : (s.advance n).prev = s.prev := by
  unfold State.advance; split <;> rfl
@[simp] theorem State.advance_prevSet (s : State) (n : Nat) : (s.advance n).prevSet = s.prevSet := by
  unfold State.advance; split <;> rfl
@[simp] theorem State.advance_acc (s : State) (n : Nat) : (s.advance n).acc = s.acc := by
  unfold State.advance; split <;> rfl
@[simp] theorem State.advance_scale (s : State) (n : Nat) : (s.advance n).scale = s.scale := by
  unfold State.advance; split <;> rfl
@[simp] theorem State.advance_tbl (s : State) (n : Nat) : (s.advance n).tbl = s.tbl := by
  unfold State.advance; split <;> rfl
@[simp] theorem State.advance_w (s : State) (n : Nat) : (s.advance n).w = s.w := by
  unfold State.advance; split <;> rfl
@[simp] theorem State.advance_opsel (s : State) (n : Nat) : (s.advance n).opsel = s.opsel := by
  unfold State.advance; split <;> rfl
@[simp] theorem State.advance_g (s : State) (n : Nat) : (s.advance n).g = s.g := by
  unfold State.advance; split <;> rfl
@[simp] theorem State.advance_b (s : State) (n : Nat) : (s.advance n).b = s.b := by
  unfold State.advance; split <;> rfl
@[simp] theorem State.advance_nr (s : State) (n : Nat) : (s.advance n).nr = s.nr := by
  unfold State.advance; split <;> rfl
@[simp] theorem State.advance_inMem (s : State) (n : Nat) : (s.advance n).inMem = s.inMem := by
  unfold State.advance; split <;> rfl
@[simp] theorem State.advance_inLen (s : State) (n : Nat) : (s.advance n).inLen = s.inLen := by
  unfold State.advance; split <;> rfl
@[simp] theorem State.advance_outMem (s : State) (n : Nat) : (s.advance n).outMem = s.outMem := by
  unfold State.advance; split <;> rfl
@[simp] theorem State.advance_outLen (s : State) (n : Nat) : (s.advance n).outLen = s.outLen := by
  unfold State.advance; split <;> rfl
@[simp] theorem State.advance_done (s : State) (n : Nat) : (s.advance n).done = s.done := by
  unfold State.advance; split <;> rfl
@[simp] theorem State.advance_err (s : State) (n : Nat) : (s.advance n).err = s.err := by
  unfold State.advance; split <;> rfl
@[simp] theorem State.advance_pkb (s : State) (n : Nat) : (s.advance n).pkb = s.pkb := by
  unfold State.advance; split <;> rfl
@[simp] theorem State.advance_pkn (s : State) (n : Nat) : (s.advance n).pkn = s.pkn := by
  unfold State.advance; split <;> rfl
@[simp] theorem State.advance_branches (s : State) (n : Nat) : (s.advance n).branches = s.branches := by
  unfold State.advance; split <;> rfl
@[simp] theorem State.advance_has (s : State) (n : Nat) : (s.advance n).has = s.has := by
  unfold State.advance; split <;> rfl
@[simp] theorem State.advance_cfg (s : State) (n : Nat) : (s.advance n).cfg = s.cfg := by
  unfold State.advance; split <;> rfl
@[simp] theorem State.advance_draw (s : State) (n : Nat) : (s.advance n).draw = s.draw := by
  unfold State.advance; split <;> rfl
@[simp] theorem State.advance_free (s : State) (n : Nat) : (s.advance n).free = s.free := by
  unfold State.advance; split <;> rfl

@[simp] theorem State.advance_pos (s : State) (n : Nat) :
    (s.advance n).pos = if s.unit + 1 < n then s.pos else s.pos + 1 := by
  unfold State.advance; split <;> rfl

@[simp] theorem State.advance_unit (s : State) (n : Nat) :
    (s.advance n).unit = if s.unit + 1 < n then s.unit + 1 else 0 := by
  unfold State.advance; split <;> rfl

/-! The fields after `setSnapshot` that both codecs leave alone. -/

@[simp] theorem State.setSnapshot_tbl (s : State) (x : Snapshot) : (s.setSnapshot x).tbl = s.tbl := by cases x <;> rfl
@[simp] theorem State.setSnapshot_w (s : State) (x : Snapshot) : (s.setSnapshot x).w = s.w := by cases x <;> rfl
@[simp] theorem State.setSnapshot_opsel (s : State) (x : Snapshot) : (s.setSnapshot x).opsel = s.opsel := by cases x <;> rfl
@[simp] theorem State.setSnapshot_g (s : State) (x : Snapshot) : (s.setSnapshot x).g = s.g := by cases x <;> rfl
@[simp] theorem State.setSnapshot_b (s : State) (x : Snapshot) : (s.setSnapshot x).b = s.b := by cases x <;> rfl
@[simp] theorem State.setSnapshot_nr (s : State) (x : Snapshot) : (s.setSnapshot x).nr = s.nr := by cases x <;> rfl
@[simp] theorem State.setSnapshot_inMem (s : State) (x : Snapshot) : (s.setSnapshot x).inMem = s.inMem := by cases x <;> rfl
@[simp] theorem State.setSnapshot_inLen (s : State) (x : Snapshot) : (s.setSnapshot x).inLen = s.inLen := by cases x <;> rfl
@[simp] theorem State.setSnapshot_outMem (s : State) (x : Snapshot) : (s.setSnapshot x).outMem = s.outMem := by cases x <;> rfl
@[simp] theorem State.setSnapshot_outLen (s : State) (x : Snapshot) : (s.setSnapshot x).outLen = s.outLen := by cases x <;> rfl
@[simp] theorem State.setSnapshot_done (s : State) (x : Snapshot) : (s.setSnapshot x).done = s.done := by cases x <;> rfl
@[simp] theorem State.setSnapshot_err (s : State) (x : Snapshot) : (s.setSnapshot x).err = s.err := by cases x <;> rfl
@[simp] theorem State.setSnapshot_pos (s : State) (x : Snapshot) : (s.setSnapshot x).pos = s.pos := by cases x <;> rfl
@[simp] theorem State.setSnapshot_unit (s : State) (x : Snapshot) : (s.setSnapshot x).unit = s.unit := by cases x <;> rfl
@[simp] theorem State.setSnapshot_pkb (s : State) (x : Snapshot) : (s.setSnapshot x).pkb = s.pkb := by cases x <;> rfl
@[simp] theorem State.setSnapshot_pkn (s : State) (x : Snapshot) : (s.setSnapshot x).pkn = s.pkn := by cases x <;> rfl
@[simp] theorem State.setSnapshot_branches (s : State) (x : Snapshot) : (s.setSnapshot x).branches = s.branches := by cases x <;> rfl
@[simp] theorem State.setSnapshot_has (s : State) (x : Snapshot) : (s.setSnapshot x).has = s.has := by cases x <;> rfl
@[simp] theorem State.setSnapshot_cfg (s : State) (x : Snapshot) : (s.setSnapshot x).cfg = s.cfg := by cases x <;> rfl
@[simp] theorem State.setSnapshot_draw (s : State) (x : Snapshot) : (s.setSnapshot x).draw = s.draw := by cases x <;> rfl
@[simp] theorem State.setSnapshot_free (s : State) (x : Snapshot) : (s.setSnapshot x).free = s.free := by cases x <;> rfl

/-! Updates of the packer's registers among others. -/

@[simp] theorem State.setPacker_setPacker (s : State) (x y : Byte) (m n : Nat) :
    (s.setPacker x m).setPacker y n = s.setPacker y n := rfl

theorem State.emit_setPacker (s : State) (x v : Byte) (n : Nat) : (s.setPacker x n).emit v = (s.emit v).setPacker x n := rfl

theorem State.setPacker_self {s : State} {x : Byte} {n : Nat} (hb : s.pkb = x) (hn : s.pkn = n) : s.setPacker x n = s := by
  subst hb; subst hn; rfl

end Sys2Proof.Machine
end

