-- ==== Sys2Proof/Laws/Ops.lean ====
section
/-! SUPPORT. What the shared operations do: what they leave alone (`SameOperands`) and what they append to `OUT` (`Emits`). -/

namespace Sys2Proof.Machine

theorem State.SameOperands.refl (s : State) : s.SameOperands s :=
  ⟨rfl, rfl, rfl, rfl, rfl, rfl, rfl, rfl, rfl, rfl⟩

theorem State.SameOperands.trans {s t u : State} (h : s.SameOperands t) (k : t.SameOperands u) : s.SameOperands u :=
  ⟨k.tbl.trans h.tbl, k.cfg.trans h.cfg, k.w.trans h.w, k.opsel.trans h.opsel, k.g.trans h.g, k.b.trans h.b,
    k.nr.trans h.nr, k.has.trans h.has, k.inMem.trans h.inMem, k.inLen.trans h.inLen⟩

theorem State.sameOperands_emit (s : State) (v : Byte) : s.SameOperands (s.emit v) := by constructor <;> rfl
theorem State.sameOperands_seed (s : State) (v : Byte) : s.SameOperands (s.seed v) := by constructor <;> rfl
theorem State.sameOperands_startInit (s : State) : s.SameOperands s.startInit := by constructor <;> rfl
theorem State.sameOperands_finishOk (s : State) : s.SameOperands s.finishOk := by constructor <;> rfl
theorem State.sameOperands_setDraw (s : State) (n : Nat) : s.SameOperands (s.setDraw n) := by constructor <;> rfl
theorem State.sameOperands_raiseError (s : State) (e : Err) : s.SameOperands (s.raiseError e) := by constructor <;> rfl
theorem State.sameOperands_setBranches (s : State) (l : List Branch) : s.SameOperands (s.setBranches l) := by
  constructor <;> rfl
theorem State.sameOperands_advance (s : State) (n : Nat) : s.SameOperands (s.advance n) := by constructor <;> simp
theorem State.sameOperands_setSnapshot (s : State) (x : Snapshot) : s.SameOperands (s.setSnapshot x) := by
  constructor <;> simp

theorem State.sameOperands_push (s : State) (c : Byte) : s.SameOperands (s.push c) := by
  unfold State.push; split <;> constructor <;> rfl

/-- A fold of updates that leave the operands alone leaves them alone. -/
theorem State.sameOperands_foldl {α : Type} {f : State → α → State} (hf : ∀ (s : State) (x : α), s.SameOperands (f s x)) (l : List α)
    (s : State) : s.SameOperands (l.foldl f s) := by
  induction l generalizing s with
  | nil => exact .refl s
  | cons x l ih => exact (hf s x).trans (ih _)

theorem State.sameOperands_pushAll (s : State) (l : List Byte) : s.SameOperands (s.pushAll l) :=
  State.sameOperands_foldl State.sameOperands_push l s

theorem State.sameOperands_flushLoop (n : Nat) (s : State) : s.SameOperands (s.flushLoop n) := by
  induction n generalizing s with
  | zero => exact .refl s
  | succ n ih =>
    unfold State.flushLoop
    split
    · exact .refl s
    · exact (s.sameOperands_push _).trans (ih _)

theorem State.sameOperands_flush (s : State) : s.SameOperands s.flush := State.sameOperands_flushLoop _ s

theorem State.SameOperands.inBytes {s t : State} (h : s.SameOperands t) : t.inBytes = s.inBytes := by
  simp [State.inBytes, h.inMem, h.inLen]

theorem State.Emits.refl (s : State) : s.Emits s [] where
  len := rfl
  bytes a := by rw [if_neg (by simp)]
  wf := id

/-- An update that does not touch `OUT` appends nothing. -/
theorem State.Emits.of_same {s t : State} (hm : t.outMem = s.outMem) (hl : t.outLen = s.outLen) : s.Emits t [] where
  len := by simp [hl]
  bytes a := by rw [if_neg (by simp), hm]
  wf h := by rw [hm]; exact h

theorem State.Emits.trans {s t u : State} {l m : List Byte} (h : s.Emits t l) (k : t.Emits u m) : s.Emits u (l ++ m) where
  len := by simp [k.len, h.len]; omega
  bytes a := by
    have hl := h.len
    rw [k.bytes, h.bytes, hl, List.length_append]
    by_cases h1 : a < s.outLen
    · rw [if_neg (by omega), if_neg (by omega), if_neg (by omega)]
    · by_cases h2 : a < s.outLen + l.length
      · rw [if_neg (by omega), if_pos (by omega), if_pos (by omega), List.getElem?_append_left (by omega)]
      · by_cases h3 : a < s.outLen + l.length + m.length
        · rw [if_pos (by omega), if_pos (by omega), List.getElem?_append_right (by omega)]; congr 1; omega
        · rw [if_neg (by omega), if_neg (by omega), if_neg (by omega)]
  wf hs := k.wf (h.wf hs)

theorem State.emits_emit (s : State) (v : Byte) : s.Emits (s.emit v) [v] where
  len := rfl
  bytes a := by
    simp only [State.emit_outMem, Memory.read_write, List.length_singleton]
    by_cases h : a = s.outLen
    · subst h; simp
    · rw [if_neg h, if_neg (by omega)]
  wf h := Memory.wf_write _ _ _ h

/-- What an emitting update followed by a silent one appends. -/
theorem State.Emits.silent {s t u : State} {l : List Byte} (h : s.Emits t l) (hm : u.outMem = t.outMem)
    (hl : u.outLen = t.outLen) : s.Emits u l := by
  simpa using h.trans (State.Emits.of_same hm hl)

/-- Reading `OUT[0 .. OUTLEN-1]` after bytes were appended to an empty output gives those bytes. -/
theorem State.Emits.outBytes {s t : State} {l : List Byte} (h : s.Emits t l) (h0 : s.outLen = 0) : t.outBytes = l := by
  have hl : t.outLen = l.length := by rw [h.len, h0]; omega
  have hb : ∀ a ∈ List.range l.length, t.outMem.read a = (fun a => l[a]?) a := by
    intro a ha
    rw [h.bytes, h0, if_pos (by simp at ha; omega)]; simp
  rw [State.outBytes, hl, List.filterMap_congr hb]
  clear hb hl h0 h
  induction l with
  | nil => rfl
  | cons x l ih =>
    rw [List.length_cons, List.range_succ_eq_map, List.filterMap_cons]
    simp only [List.getElem?_cons_zero, List.filterMap_map]
    congr 1

end Sys2Proof.Machine
end

