-- ==== Sys2Proof/Laws/Codes.lean ====
section
/-! SUPPORT. The code steps: what they append to `OUT`, what they leave alone, and which code each instruction runs. -/

namespace Sys2Proof.Machine

theorem clampByte_toNat (v : Int) : ((clampByte v).toNat : Int) = max 0 (min 255 v) := by
  unfold clampByte clamp
  rw [BitVec.toNat_ofInt]
  split
  · simp; omega
  · split <;> omega

/-- `ACC` stays legal in a step. -/
theorem accLegal_adaptAcc : ∀ (a n : BitVec 4), accLegal a → accLegal (adaptAcc (codeData n) a) := by
  decide +kernel

theorem exec_decode4 (n : BitVec 4) (s : State) : exec (decode4 n) s = .next (codeStep4 n s) := by
  have h : ∀ n : BitVec 4, n ∈ (List.range 16).map (BitVec.ofNat 4) := by decide
  have hn := h n
  simp only [List.range, List.range.loop, List.map, List.mem_cons, List.not_mem_nil, or_false] at hn
  rcases hn with h|h|h|h|h|h|h|h|h|h|h|h|h|h|h|h <;> subst h <;> rfl

theorem exec_decode2 (c : BitVec 2) (s : State) : exec (decode2 c) s = .next (codeStep2 c s) := by
  have h : ∀ c : BitVec 2, c ∈ (List.range 4).map (BitVec.ofNat 2) := by decide
  have hc := h c
  simp only [List.range, List.range.loop, List.map, List.mem_cons, List.not_mem_nil, or_false] at hc
  rcases hc with h|h|h|h <;> subst h <;> rfl

theorem codeStep4_sameOperands (n : BitVec 4) (s : State) : s.SameOperands (codeStep4 n s) := by
  constructor <;> simp [codeStep4]

theorem codeStep2_sameOperands (c : BitVec 2) (s : State) : s.SameOperands (codeStep2 c s) := by
  constructor <;> simp [codeStep2]

theorem codeStep4_emits (n : BitVec 4) (s : State) : s.Emits (codeStep4 n s) [(codeStep4 n s).prev] := by
  have h0 : s.Emits (s.setDec4 (step4 { prev := s.prev, acc := s.acc } n)) [] := State.Emits.of_same rfl rfl
  have h1 := (h0.trans (State.emits_emit _ (step4 { prev := s.prev, acc := s.acc } n).prev)).silent
    (u := codeStep4 n s) (by simp [codeStep4]) (by simp [codeStep4])
  simpa [codeStep4] using h1

theorem codeStep2_emits (c : BitVec 2) (s : State) : s.Emits (codeStep2 c s) [(codeStep2 c s).prev] := by
  have h0 : s.Emits (s.setDec2 (step2 s.tbl { prev := s.prev, scale := s.scale } c)) [] := State.Emits.of_same rfl rfl
  have h1 := (h0.trans (State.emits_emit _ (step2 s.tbl { prev := s.prev, scale := s.scale } c).prev)).silent
    (u := codeStep2 c s) (by simp [codeStep2]) (by simp [codeStep2])
  simpa [codeStep2] using h1

end Sys2Proof.Machine
end

