-- ==== Sys2Proof/Laws/Packer.lean ====
section
/-! SUPPORT. The packer: whole bytes of pushes, the flush of a partial byte, and the units of a byte. -/

namespace Sys2Proof.Machine

theorem ofNat_toNat_byte (c : Byte) : BitVec.ofNat 8 c.toNat = c := by simp

/-- A push that does not fill the byte. -/
theorem push_part {s : State} {c : Byte} (h : s.pkn + 1 ≠ cpb s.w) :
    s.push c = s.setPacker ((s.pkb <<< s.w) ||| c) (s.pkn + 1) := by
  simp [State.push, h]

/-- A push that fills the byte emits it and empties the packer. -/
theorem push_full {s : State} {c : Byte} (h : s.pkn + 1 = cpb s.w) :
    s.push c = (s.emit ((s.pkb <<< s.w) ||| c)).setPacker 0 0 := by
  simp [State.push, h]

/-- Two pushes of 4-bit codes into an empty packer emit one byte (R121, R73). -/
theorem push_two {s : State} (hw : s.w = 4) (hn : s.pkn = 0) (hb : s.pkb = 0) {c d : Byte} (hc : c.toNat < 16)
    (hd : d.toNat < 16) : (s.push c).push d = s.emit (c * 16 + d) := by
  have key : ∀ c d : Fin 16, (((((0 : Byte) <<< 4) ||| BitVec.ofNat 8 c.val) <<< 4) ||| BitVec.ofNat 8 d.val)
      = BitVec.ofNat 8 c.val * 16 + BitVec.ofNat 8 d.val := by decide +kernel
  have hk := key ⟨_, hc⟩ ⟨_, hd⟩
  simp only [ofNat_toNat_byte] at hk
  rw [push_part (s := s) (c := c) (by rw [hn, hw]; decide), push_full (by simp [hn, hw, cpb])]
  simp only [State.setPacker_pkb, State.setPacker_w, hb, hw, hk, State.emit_setPacker, State.setPacker_setPacker]
  exact State.setPacker_self (by simpa using hb) (by simpa using hn)

/-- Four pushes of 2-bit codes into an empty packer emit one byte (R121, R74). -/
theorem push_four {s : State} (hw : s.w = 2) (hn : s.pkn = 0) (hb : s.pkb = 0) {c d e f : Byte} (hc : c.toNat < 4)
    (hd : d.toNat < 4) (he : e.toNat < 4) (hf : f.toNat < 4) :
    (((s.push c).push d).push e).push f = s.emit (c * 64 + d * 16 + e * 4 + f) := by
  have key : ∀ c d e f : Fin 4, (((((((((0 : Byte) <<< 2) ||| BitVec.ofNat 8 c.val) <<< 2) ||| BitVec.ofNat 8 d.val) <<< 2)
      ||| BitVec.ofNat 8 e.val) <<< 2) ||| BitVec.ofNat 8 f.val)
      = BitVec.ofNat 8 c.val * 64 + BitVec.ofNat 8 d.val * 16 + BitVec.ofNat 8 e.val * 4 + BitVec.ofNat 8 f.val := by
    decide +kernel
  have hk := key ⟨_, hc⟩ ⟨_, hd⟩ ⟨_, he⟩ ⟨_, hf⟩
  simp only [ofNat_toNat_byte] at hk
  rw [push_part (s := s) (c := c) (by rw [hn, hw]; decide), push_part (c := d) (by simp [hn, hw, cpb]),
    push_part (c := e) (by simp [hn, hw, cpb]), push_full (by simp [hn, hw, cpb])]
  simp only [State.setPacker_pkb, State.setPacker_w, hb, hw, hk, State.emit_setPacker, State.setPacker_setPacker]
  exact State.setPacker_self (by simpa using hb) (by simpa using hn)

/-- After a push the packer holds one code more, or is empty when that fills the byte (R121). -/
theorem push_pkn (s : State) (c : Byte) :
    (s.push c).pkn = if s.pkn + 1 = cpb s.w then 0 else s.pkn + 1 := by
  unfold State.push; split <;> rfl

theorem pushAll_append (s : State) (l m : List Byte) : s.pushAll (l ++ m) = (s.pushAll l).pushAll m := by
  simp [State.pushAll]

theorem pushAll_cons (s : State) (c : Byte) (l : List Byte) : s.pushAll (c :: l) = (s.push c).pushAll l := rfl

/-- The flush of a partial byte pushes the pad code into the units left (R121, R123). -/
theorem flushLoop_eq (k : Nat) : ∀ (n : Nat) (s : State), 0 < s.pkn → s.pkn + k = cpb s.w → k ≤ n → 0 < k →
    s.flushLoop n = s.pushAll (List.replicate k (padCode s.cfg s.w)) := by
  induction k with
  | zero => intro n s _ _ _ h; omega
  | succ k ih =>
    intro n s h0 h1 h2 _
    obtain ⟨n, rfl⟩ : ∃ m, n = m + 1 := ⟨n - 1, by omega⟩
    rw [State.flushLoop, if_neg (by omega), List.replicate_succ, pushAll_cons]
    have hs := s.sameOperands_push (padCode s.cfg s.w)
    by_cases hk : k = 0
    · subst hk
      have hp : (s.push (padCode s.cfg s.w)).pkn = 0 := by rw [push_pkn, if_pos (by omega)]
      cases n with
      | zero => rfl
      | succ n => rw [State.flushLoop, if_pos hp]; rfl
    · have hp : (s.push (padCode s.cfg s.w)).pkn = s.pkn + 1 := by rw [push_pkn, if_neg (by omega)]
      rw [ih n _ (by omega) (by rw [hp, hs.w]; omega) (by omega) (by omega), hs.cfg, hs.w]

theorem flush_empty {s : State} (h : s.pkn = 0) : s.flush = s := by
  unfold State.flush
  cases cpb s.w with
  | zero => rfl
  | succ n => rw [State.flushLoop, if_pos h]

theorem flush_partial {s : State} (h0 : 0 < s.pkn) (h1 : s.pkn < cpb s.w) :
    s.flush = s.pushAll (List.replicate (cpb s.w - s.pkn) (padCode s.cfg s.w)) :=
  flushLoop_eq _ _ s h0 (by omega) (by omega) (by omega)

/-- Emitting a list appends it. -/
theorem emitAll_emits (s : State) (l : List Byte) : s.Emits (l.foldl State.emit s) l := by
  induction l generalizing s with
  | nil => exact .refl s
  | cons x l ih => simpa using (State.emits_emit s x).trans (ih (s.emit x))

/-- Pushing whole bytes of 4-bit codes emits their bytes (R120). -/
theorem pushAll_whole4 : ∀ (codes : List Byte) (s : State), s.w = 4 → s.pkn = 0 → s.pkb = 0 →
    (∀ c ∈ codes, c.toNat < 16) → codes.length % 2 = 0 → s.pushAll codes = (packWhole4 codes).foldl State.emit s
  | [], _, _, _, _, _, _ => rfl
  | [a], _, _, _, _, _, hl => by simp at hl
  | c0 :: c1 :: rest, s, hw, hn, hb, hc, hl => by
    rw [pushAll_cons, pushAll_cons, push_two hw hn hb (hc _ (by simp)) (hc _ (by simp)),
      pushAll_whole4 rest (s.emit (c0 * 16 + c1)) hw hn hb (fun c h => hc c (by simp [h])) (by simp at hl; omega)]
    rfl

/-- Pushing whole bytes of 2-bit codes emits their bytes (R120). -/
theorem pushAll_whole2 : ∀ (codes : List Byte) (s : State), s.w = 2 → s.pkn = 0 → s.pkb = 0 →
    (∀ c ∈ codes, c.toNat < 4) → codes.length % 4 = 0 → s.pushAll codes = (packWhole2 codes).foldl State.emit s
  | [], _, _, _, _, _, _ => rfl
  | [a], _, _, _, _, _, hl => by simp at hl
  | [a, b], _, _, _, _, _, hl => by simp at hl
  | [a, b, c], _, _, _, _, _, hl => by simp at hl
  | c0 :: c1 :: c2 :: c3 :: rest, s, hw, hn, hb, hc, hl => by
    rw [pushAll_cons, pushAll_cons, pushAll_cons, pushAll_cons,
      push_four hw hn hb (hc _ (by simp)) (hc _ (by simp)) (hc _ (by simp)) (hc _ (by simp)),
      pushAll_whole2 rest (s.emit (c0 * 64 + c1 * 16 + c2 * 4 + c3)) hw hn hb (fun c h => hc c (by simp [h])) (by simp at hl; omega)]
    rfl

/-- Pushing whole bytes of codes emits their bytes (R120, R121). -/
theorem pushAll_whole (s : State) (hw : s.w = 2 ∨ s.w = 4) (hn : s.pkn = 0) (hb : s.pkb = 0) (codes : List Byte)
   (hc : ∀ c ∈ codes, c.toNat < base s.w) (hl : codes.length % cpb s.w = 0) :
   s.pushAll codes = (packWhole s.w codes).foldl State.emit s := by
  rcases hw with hw | hw <;> rw [hw] at hc hl ⊢
  · exact pushAll_whole2 codes s hw hn hb hc hl
  · exact pushAll_whole4 codes s hw hn hb hc hl

/-- How many codes the packer holds after pushes (R26). -/
theorem pkn_pushAll (s : State) (h0 : 0 < cpb s.w) (hn : s.pkn < cpb s.w) (l : List Byte) : (s.pushAll l).pkn = (s.pkn + l.length) % cpb s.w := by
  induction l generalizing s with
  | nil => simp [State.pushAll, Nat.mod_eq_of_lt hn]
  | cons x l ih =>
    rw [pushAll_cons]
    have hs := s.sameOperands_push x
    have hp := push_pkn s x
    by_cases h : s.pkn + 1 = cpb s.w
    · rw [if_pos h] at hp
      rw [ih _ (by rw [hs.w]; exact h0) (by rw [hs.w, hp]; exact h0), hp, hs.w]
      have : s.pkn + (x::l).length = l.length + cpb s.w := by simp; omega
      rw [this]; simp
    · rw [if_neg h] at hp
      rw [ih _ (by rw [hs.w]; exact h0) (by rw [hs.w, hp]; omega), hp, hs.w]
      congr 1; simp; omega

/-- The flush pads the pushed codes (R123). -/
theorem flush_pushAll (s : State) (hw : s.w = 2 ∨ s.w = 4) (hn : s.pkn = 0) (codes : List Byte) :
    (s.pushAll codes).flush = s.pushAll (padCodes s.w (padCode s.cfg s.w) codes) := by
  have h0 : 0 < cpb s.w := by rcases hw with h | h <;> rw [h] <;> decide
  have hp := pkn_pushAll s h0 (by omega) codes
  have hs := s.sameOperands_pushAll codes
  rw [hn, Nat.zero_add] at hp
  by_cases h : codes.length % cpb s.w = 0
  · rw [flush_empty (by omega)]
    simp [padCodes, h]
  · have := Nat.mod_lt codes.length h0
    rw [flush_partial (by omega) (by rw [hs.w]; omega), hs.w, hs.cfg, hp, padCodes, pushAll_append]
    rw [Nat.mod_eq_of_lt (a := cpb s.w - _) (by omega)]

/-- The pad code is a code of the width (D12). -/
theorem padCode_lt (p : Params) {w : Nat} (hw : w = 2 ∨ w = 4) : (padCode p w).toNat < base w := by
  rcases hw with h | h <;> subst h
  · simp [padCode, base]; have := p.pad2.isLt; omega
  · simp [padCode, base]; have := p.pad4.isLt; omega

/-- A padded sequence fills whole bytes (R123). -/
theorem padCodes_length {w : Nat} (hw : w = 2 ∨ w = 4) (pad) (codes) : (padCodes w pad codes).length % cpb w = 0 := by
  rcases hw with h | h <;> subst h <;> simp [padCodes, cpb] <;> omega

/-- The packer does not read the position. -/
theorem push_setPos (s : State) (c : Byte) (p u : Nat) : (s.setPos p u).push c = (s.push c).setPos p u := by
  by_cases h : s.pkn + 1 = cpb s.w
  · rw [push_full (s := s.setPos p u) h, push_full h]; rfl
  · rw [push_part (s := s.setPos p u) h, push_part h]; rfl

theorem pushAll_setPos (l : List Byte) (s : State) (p u : Nat) : (s.setPos p u).pushAll l = (s.pushAll l).setPos p u := by
  induction l generalizing s with
  | nil => rfl
  | cons x l ih => rw [pushAll_cons, push_setPos, ih, pushAll_cons]

theorem flushLoop_setPos (n : Nat) (s : State) (p u : Nat) : (s.setPos p u).flushLoop n = (s.flushLoop n).setPos p u := by
  induction n generalizing s with
  | zero => rfl
  | succ n ih =>
    by_cases h : s.pkn = 0
    · rw [State.flushLoop, if_pos (show (s.setPos p u).pkn = 0 from h), State.flushLoop, if_pos h]
    · rw [State.flushLoop, if_neg (show ¬ (s.setPos p u).pkn = 0 from h), State.flushLoop, if_neg h, push_setPos, ih]
      rfl

theorem flush_setPos (s : State) (p u : Nat) : (s.setPos p u).flush = s.flush.setPos p u := flushLoop_setPos _ s p u

/-- The loop of PACK on codes in range (R122). -/
theorem packLoop_ok (l : List Byte) (s : State) (hu : s.unit = 0) (h : ∀ c ∈ l, c.toNat < base s.w) :
    packLoop s l = .ok ((s.pushAll l).flush.setPos (s.pos + l.length) 0) := by
  induction l generalizing s with
  | nil =>
    have : s.setPos s.pos 0 = s := by rw [← hu]; rfl
    simp only [packLoop, State.pushAll, List.foldl_nil, List.length_nil, Nat.add_zero]
    rw [← flush_setPos, this]
  | cons c l ih =>
    have hc := h c (by simp)
    have ha : (s.push c).advance 1 = (s.push c).setPos (s.pos+1) 0 := by
      unfold State.advance; rw [if_neg (by omega)]; unfold State.push; split <;> rfl
    have hs := s.sameOperands_push c
    rw [packLoop, if_neg (by omega), ha, ih _ rfl (by intro d hd; simp [hs.w]; exact h d (by simp [hd]))]
    simp only [pushAll_setPos, pushAll_cons, State.setPos_pos, State.flush, flushLoop_setPos, List.length_cons, State.setPos_w]
    congr 1
    simp [State.setPos]; omega

/-- The loop of PACK on a byte that is no code (R124). -/
theorem packLoop_raise (l : List Byte) (s : State) (h : ∃ c ∈ l, base s.w ≤ c.toNat) :
    ∃ t, packLoop s l = .raise .protocolError t := by
  induction l generalizing s with
  | nil => simp at h
  | cons c l ih =>
    rw [packLoop]
    split
    · exact ⟨_, rfl⟩
    · next hc =>
      apply ih
      have hs := (s.sameOperands_push c).trans (State.sameOperands_advance _ 1)
      rw [hs.w]
      simp only [List.mem_cons, exists_eq_or_imp] at h
      exact h.resolve_left hc

/-- A legal width has codes. -/
theorem cpb_pos {w} (hw : w = 2 ∨ w = 4) : 0 < cpb w := by rcases hw with h | h <;> rw [h] <;> decide

theorem packWhole4_length : ∀ l, (packWhole4 l).length = l.length / 2
  | [] => rfl
  | [_] => by simp [packWhole4]
  | _ :: _ :: r => by simp [packWhole4, packWhole4_length r]; omega

theorem packWhole2_length : ∀ l, (packWhole2 l).length = l.length / 4
  | [] => rfl
  | [_] => by simp [packWhole2]
  | [_, _] => by simp [packWhole2]
  | [_, _, _] => by simp [packWhole2]
  | _ :: _ :: _ :: _ :: r => by simp [packWhole2, packWhole2_length r]; omega

/-- The length of a packed sequence (R123). -/
theorem packCodes_length {w} (hw : w = 2 ∨ w = 4) (pad) (l) : (packCodes w pad l).length = (l.length + cpb w - 1) / cpb w := by
  rcases hw with h | h <;> subst h
  · simp [packCodes, packWhole, packWhole2_length, padCodes, cpb]; omega
  · simp [packCodes, packWhole, packWhole4_length, padCodes, cpb]; omega

theorem unitsOf_length (w x) : (unitsOf w x).length = cpb w := by simp [unitsOf]

/-- What the inner loop of UNPACK does. -/
theorem emitUnit_fold (l : List Byte) (s : State) : s.Emits (l.foldl emitUnit s) l ∧ s.SameOperands (l.foldl emitUnit s) ∧ 
   (l.foldl emitUnit s).prevSet = s.prevSet ∧ (l.foldl emitUnit s).acc = s.acc ∧ (l.foldl emitUnit s).scale = s.scale := by
  induction l generalizing s with
  | nil => exact ⟨.refl s, .refl s, rfl, rfl, rfl⟩
  | cons x l ih =>
    obtain ⟨a, b, c, d, e⟩ := ih (emitUnit s x)
    have h1 : s.Emits (emitUnit s x) [x] := (State.emits_emit s x).silent (by simp [emitUnit]) (by simp [emitUnit])
    have h2 : s.SameOperands (emitUnit s x) := by constructor <;> simp [emitUnit]
    refine ⟨by simpa using h1.trans a, h2.trans b, c.trans (by simp [emitUnit]), d.trans (by simp [emitUnit]), e.trans (by simp [emitUnit])⟩

/-- What the loop of UNPACK does (R125, R126). -/
theorem unpack_fold (xs : List Byte) (s : State) : 
   let t := xs.foldl (fun t x => (unitsOf t.w x).foldl emitUnit t) s
   s.Emits t (unpackBytes s.w xs) ∧ s.SameOperands t ∧ t.prevSet = s.prevSet ∧ t.acc = s.acc ∧ t.scale = s.scale := by
  induction xs generalizing s with
  | nil => exact ⟨.refl s, .refl s, rfl, rfl, rfl⟩
  | cons x xs ih =>
    obtain ⟨a, b, c, d, e⟩ := emitUnit_fold (unitsOf s.w x) s
    obtain ⟨a', b', c', d', e'⟩ := ih ((unitsOf s.w x).foldl emitUnit s)
    rw [b.w] at a'
    refine ⟨?_, b.trans b', c'.trans c, d'.trans d, e'.trans e⟩
    simpa [unpackBytes] using a.trans a'

/-- The length of an unpacked sequence (R126). -/
theorem unpack_length (w xs) : (unpackBytes w xs).length = xs.length * cpb w := by
  induction xs with
  | nil => simp [unpackBytes]
  | cons x xs ih => rw [unpackBytes, List.flatMap_cons, List.length_append, unitsOf_length]; rw [unpackBytes] at ih; rw [ih]; simp; ring

end Sys2Proof.Machine
end

