-- ==== Sys2Proof/Laws/Start.lean ====
section
/-! SUPPORT. `START`: when it answers and with what, and what a legal request gives. -/

namespace Sys2Proof.Machine

/-- Each operation's body (R100). -/
def Operation.body (op : Operation) (s : State) : State → BodyResult :=
  match op with
  | .pack => packBody
  | .unpack => unpackBody
  | .decode => decodeBody
  | .encx => encxBody
  | .encs => encsBody
  | .enct => enctBody (Config.pick s.draw)

theorem exec_operation (op : Operation) (s : State) : exec op.instr s = start op (op.body s) s := by
  cases op <;> rfl

/-- `START` answers exactly when nothing it reads lacks a value, and then with the run of the operation. -/
theorem start_eq_next {op : Operation} {body : State → BodyResult} {s t : State} :
    start op body s = .next t ↔ unwritten op s = none ∧ missingByte op s = none ∧ t = runOperation op body s := by
  unfold start
  cases h1 : unwritten op s with
  | some r => simp
  | none =>
    cases h2 : missingByte op s with
    | some a => simp
    | none => simp [eq_comm]

theorem firstMissing_of_all {m : Memory} {stop : Byte → Bool} {l : List Nat} (h : ∀ a ∈ l, (m.read a).isSome) :
    firstMissing m stop l = none := by
  induction l with
  | nil => rfl
  | cons a l ih =>
    obtain ⟨x, hx⟩ := Option.isSome_iff_exists.mp (h a (by simp))
    simp only [firstMissing, hx]
    split
    · rfl
    · exact ih fun b hb => h b (by simp [hb])

theorem missingByte_of_inputWritten {op : Operation} {s : State} (h : inputWritten s = true) : missingByte op s = none := by
  unfold missingByte
  rw [firstMissing_of_all]
  simpa [inputWritten] using h

/-- A legal request runs its operation's body to its end. -/
theorem start_of_requestOk {op : Operation} {s : State} (body : State → BodyResult) (h : RequestOk op s) :
    start op body s = .next (endOperation (body s.startInit)) := by
  rw [start_eq_next]
  refine ⟨h.registers, missingByte_of_inputWritten h.input, ?_⟩
  simp only [runOperation, h.checked]

/-- The first failing check of a list raises. -/
theorem firstError_none {l : List (Bool × Err)} : firstError l = none ↔ ∀ c ∈ l, c.1 = false := by
  induction l with
  | nil => simp [firstError]
  | cons c l ih =>
    obtain ⟨f, e⟩ := c
    cases f <;> simp [firstError, ih]

/-- What the seven checks leave (R101). -/
theorem RequestOk.facts {op : Operation} {s : State} (h : RequestOk op s) :
    absentEngine s.cfg op = false ∧ (s.w = 2 ∨ s.w = 4) ∧ (onlyWidth4 op = true → s.w = 4) ∧
    (usesGroup op = true → 0 < s.g ∧ base s.w ^ s.g ≤ s.cfg.maxComb) ∧
    (usesBeam op = true → 0 < s.b ∧ s.nr ≤ s.b) ∧ leastInLen op ≤ s.inLen := by
  have hc := firstError_none.mp h.checked
  simp only [checks, List.forall_mem_cons, List.not_mem_nil, false_imp_iff, implies_true, and_true] at hc
  obtain ⟨h1, h2, h3, h4, h5, h6, h7⟩ := hc
  have hw : s.w = 2 ∨ s.w = 4 := by
    simp at h3; by_cases hw : s.w = 2
    · exact .inl hw
    · exact .inr (h3 hw)
  refine ⟨h1, hw, fun ho => ?_, fun hu => ?_, fun hu => ?_, ?_⟩
  · rcases hw with hw | hw
    · simp [ho, hw] at h4
    · exact hw
  · simp only [hu, Bool.true_and, Bool.or_eq_false_iff, beq_eq_false_iff_ne, decide_eq_false_iff_not] at h5 h7
    exact ⟨by omega, by omega⟩
  · simp only [hu, Bool.true_and, Bool.or_eq_false_iff, beq_eq_false_iff_ne, decide_eq_false_iff_not] at h5
    exact ⟨by omega, by omega⟩
  · simpa using h6

/-- Every byte of the input is read when each has a value. -/
theorem inBytes_length {s : State} (h : inputWritten s = true) : s.inBytes.length = s.inLen := by
  have : ∀ n, (∀ a, a < n → (s.inMem.read a).isSome) → ((List.range n).filterMap s.inMem.read).length = n := by
    intro n
    induction n with
    | zero => simp
    | succ n ih =>
      intro hn
      obtain ⟨x, hx⟩ := Option.isSome_iff_exists.mp (hn n (by omega))
      rw [List.range_succ, List.filterMap_append, List.length_append, ih fun a ha => hn a (by omega)]
      simp [hx]
  exact this s.inLen (by simpa [inputWritten] using h)

end Sys2Proof.Machine
end

