-- ==== Sys2Proof/Laws/Decoder.lean ====
section
/-! SUPPORT. The loop of DECODE as a replay of its codes. -/

namespace Sys2Proof.Machine

/-- One code of a stream: the oracle step on the registers, its sample, the advance (R102, R107, R25). -/
theorem stepCode_spec (s : State) (c : Byte) (hw : s.w = 2 ∨ s.w = 4) :
    s.SameOperands (stepCode s c) ∧ s.Emits (stepCode s c) [(oracle s.tbl s.snapshot c).sample] ∧
    (stepCode s c).snapshot = oracle s.tbl s.snapshot c ∧ (stepCode s c).prevSet = true ∧
    (stepCode s c).unit = (if s.unit + 1 < cpb s.w then s.unit + 1 else 0) ∧
    (stepCode s c).pos = (if s.unit + 1 < cpb s.w then s.pos else s.pos + 1) ∧
    (stepCode s c).done = s.done ∧ (stepCode s c).err = s.err := by
  unfold stepCode
  rcases hw with hw | hw
  · rw [if_neg (by omega)]
    have hs := codeStep2_sameOperands (c.setWidth 2) s
    refine ⟨hs, ?_, ?_, ?_, ?_, ?_, ?_, ?_⟩
    · have := codeStep2_emits (c.setWidth 2) s
      simpa [State.snapshot, hw, oracle, Snapshot.sample, codeStep2] using this
    · simp [State.snapshot, hw, oracle, codeStep2]
    · simp [codeStep2]
    · simp [codeStep2, hw]; rfl
    · simp [codeStep2, hw]; rfl
    · simp [codeStep2]
    · simp [codeStep2]
  · rw [if_pos hw]
    have hs := codeStep4_sameOperands (c.setWidth 4) s
    refine ⟨hs, ?_, ?_, ?_, ?_, ?_, ?_, ?_⟩
    · have := codeStep4_emits (c.setWidth 4) s
      simpa [State.snapshot, hw, oracle, Snapshot.sample, codeStep4] using this
    · simp [State.snapshot, hw, oracle, codeStep4]
    · simp [codeStep4]
    · simp [codeStep4, hw]; rfl
    · simp [codeStep4, hw]; rfl
    · simp [codeStep4]
    · simp [codeStep4]

/-- A run of codes is a replay (R48, R107). -/
theorem stepCodes_spec (l : List Byte) (s : State) (hw : s.w = 2 ∨ s.w = 4) :
    s.SameOperands (l.foldl stepCode s) ∧ s.Emits (l.foldl stepCode s) (replay s.tbl s.snapshot l) ∧
    (l.foldl stepCode s).snapshot = replayEnd s.tbl s.snapshot l ∧
    (s.prevSet = true → (l.foldl stepCode s).prevSet = true) ∧ 
    (l.foldl stepCode s).done = s.done ∧ (l.foldl stepCode s).err = s.err := by
  induction l generalizing s with
  | nil => exact ⟨.refl s, .refl s, rfl, id, rfl, rfl⟩
  | cons c l ih =>
    obtain ⟨a, b, c', d, -, -, e, f⟩ := stepCode_spec s c hw
    obtain ⟨a', b', c'', d', e', f'⟩ := ih (stepCode s c) (by rw [a.w]; exact hw)
    rw [a.tbl, c'] at b' c''
    exact ⟨a.trans a', by simpa [replay] using b.trans b', c'', fun _ => d' d, e'.trans e, f'.trans f⟩

/-- The position inside a byte (R25). -/
theorem stepCodes_pos (l : List Byte) (s : State) (hw : s.w = 2 ∨ s.w = 4) (h : s.unit + l.length < cpb s.w) :
    (l.foldl stepCode s).unit = s.unit + l.length ∧ (l.foldl stepCode s).pos = s.pos := by
  induction l generalizing s with
  | nil => exact ⟨rfl, rfl⟩
  | cons c l ih =>
    obtain ⟨a, b, c', d, g1, g2, e, f⟩ := stepCode_spec s c hw
    simp only [List.length_cons] at h
    rw [if_pos (by omega)] at g1 g2
    obtain ⟨x, y⟩ := ih (stepCode s c) (by rw [a.w]; exact hw) (by rw [a.w, g1]; omega)
    exact ⟨by rw [List.foldl_cons, x, g1]; simp; omega, by rw [List.foldl_cons, y, g2]⟩

/-- A whole byte of codes moves to the next byte (R25). -/
theorem stepByte_pos (x : Byte) (s : State) (hw : s.w = 2 ∨ s.w = 4) (h : s.unit = 0) :
    (stepByte s x).unit = 0 ∧ (stepByte s x).pos = s.pos + 1 := by
  unfold stepByte
  have hl : (unitsOf s.w x).length = cpb s.w := by simp [unitsOf]
  have hp : 0 < cpb s.w := by rcases hw with h | h <;> rw [h] <;> decide
  obtain ⟨l, c, hlc⟩ : ∃ l c, unitsOf s.w x = l ++ [c] := by
    rcases List.eq_nil_or_concat (unitsOf s.w x) with h | ⟨l, c, h⟩
    · rw [h] at hl; simp at hl; omega
    · exact ⟨l, c, by simpa using h⟩
  rw [hlc] at hl ⊢
  simp at hl
  obtain ⟨p, q⟩ := stepCodes_pos l s hw (by omega)
  obtain ⟨a, -⟩ := stepCodes_spec l s hw
  obtain ⟨-, -, -, -, g1, g2, -⟩ := stepCode_spec (l.foldl stepCode s) c (by rw [a.w]; exact hw)
  rw [p, q, a.w, if_neg (by omega)] at *
  rw [List.foldl_append]
  exact ⟨g1, g2⟩

/-- The loop of DECODE (R102). -/
theorem stepBytes_spec (xs : List Byte) (s : State) (hw : s.w = 2 ∨ s.w = 4) (hu : s.unit = 0) :
    s.SameOperands (xs.foldl stepByte s) ∧ s.Emits (xs.foldl stepByte s) (replay s.tbl s.snapshot (unpackBytes s.w xs)) ∧
    (xs.foldl stepByte s).snapshot = replayEnd s.tbl s.snapshot (unpackBytes s.w xs) ∧
    (s.prevSet = true → (xs.foldl stepByte s).prevSet = true) ∧ 
    (xs.foldl stepByte s).done = s.done ∧ (xs.foldl stepByte s).err = s.err ∧ 
    (xs.foldl stepByte s).unit = 0 ∧ (xs.foldl stepByte s).pos = s.pos + xs.length := by
  have hh : ∀ (l m : List Byte) (tbl) (st), replay tbl st (l ++ m) = replay tbl st l ++ replay tbl (replayEnd tbl st l) m := by
    intro l; induction l with
    | nil => intros; rfl
    | cons a l ih => intros; simp [replay, replayEnd, ih]
  induction xs generalizing s with
  | nil => exact ⟨.refl s, .refl s, rfl, id, rfl, rfl, hu, rfl⟩
  | cons x xs ih =>
    obtain ⟨a, b, c, d, e, f⟩ := stepCodes_spec (unitsOf s.w x) s hw
    obtain ⟨p, q⟩ := stepByte_pos x s hw hu
    have a1 : s.SameOperands (stepByte s x) := a
    obtain ⟨a', b', c', d', e', f', g', h'⟩ := ih (stepByte s x) (by rw [a1.w]; exact hw) p
    rw [a1.tbl, a1.w] at b' c'
    have c1 : (stepByte s x).snapshot = replayEnd s.tbl s.snapshot (unitsOf s.w x) := c
    rw [c1] at b' c'
    refine ⟨a1.trans a', ?_, ?_, fun h => d' (d h), e'.trans e, f'.trans f, g', ?_⟩
    · have := State.Emits.trans (s := s) b b'
      simp only [unpackBytes, List.flatMap_cons] at this ⊢
      rw [hh]; exact this
    · rw [List.foldl_cons, c']; simp [unpackBytes, replayEnd, List.foldl_append]
    · rw [List.foldl_cons, h', q]; simp; omega

/-- One sample to a code. -/
theorem replay_length (tbl) (l : List Byte) (st) : (replay tbl st l).length = l.length := by
  induction l generalizing st with
  | nil => rfl
  | cons a l ih => simp [replay, ih]

/-- DECODE begins in the seeded state (R140, R180). -/
theorem begin_snapshot (s : State) (b : Byte) : (beginStream s b).snapshot = seedSnapshot s.w b := by
  unfold State.snapshot seedSnapshot
  by_cases h : s.w = 4
  · rw [if_pos (show (beginStream s b).w = 4 from h), if_pos h]; rfl
  · rw [if_neg (show ¬ (beginStream s b).w = 4 from h), if_neg h]; rfl

/-- What the head of DECODE appends (R46, R102). -/
theorem beginStream_emits (s : State) (b : Byte) : s.Emits (beginStream s b) [b] := by
  have h1 : s.Emits (s.seed b) [] := State.Emits.of_same rfl rfl
  have h2 := (h1.trans (State.emits_emit _ b)).silent (u := beginStream s b) rfl rfl
  simpa using h2

end Sys2Proof.Machine
end

