-- ==== Sys2Proof/Laws/Encoders.lean ====
section
/-! SUPPORT. The encoders: a replay's score, the best candidate of a range, the group loop, and the final state in the registers. -/

namespace Sys2Proof.Machine

/-- The score of a replay is its squared error and its final state (R204). -/
theorem score_eq (tbl) : ∀ (ts cs : List Byte) (st : Snapshot), cs.length = ts.length →
    score tbl st ts cs = (squaredError (replay tbl st cs) ts, replayEnd tbl st cs)
  | [], [], _, _ => rfl
  | t :: ts, c :: cs, st, h => by
    simp only [score, replay, squaredError, replayEnd, List.foldl_cons]
    rw [score_eq tbl ts cs _ (by simpa using h)]; rfl
  | [], _ :: _, _, h => by simp at h
  | _ :: _, [], _, h => by simp at h

/-- The running best over a range is the first of least error (R206). -/
theorem foldl_better (f : Nat → Best) (n : Nat) (hn : 0 < n) :
    ∃ k, k < n ∧ (List.range n).foldl (fun b k => better b (f k)) none = some (f k) ∧
      (∀ j, j < n → (f k).err ≤ (f j).err) ∧ (∀ j, j < k → (f k).err < (f j).err) := by
  induction n with
  | zero => omega
  | succ n ih =>
    rw [List.range_succ, List.foldl_append]
    by_cases h : n = 0
    · subst h; exact ⟨0, by omega, rfl, fun j hj => by rw [show j = 0 by omega], fun j hj => by omega⟩
    · obtain ⟨k, hk, he, h1, h2⟩ := ih (by omega)
      rw [he]
      simp only [List.foldl_cons, List.foldl_nil, better]
      by_cases hlt : (f n).err < (f k).err
      · rw [if_pos hlt]
        exact ⟨n, by omega, rfl, fun j hj => by
          rcases Nat.lt_succ_iff_lt_or_eq.mp hj with h | h
          · have := h1 j h; omega
          · rw [h], fun j hj => by have := h1 j hj; omega⟩
      · rw [if_neg hlt]
        exact ⟨k, by omega, rfl, fun j hj => by
          rcases Nat.lt_succ_iff_lt_or_eq.mp hj with h | h
          · exact h1 j h
          · rw [h]; omega, h2⟩

theorem comboCodes_length (m b g k) : (comboCodes m b g k).length = g := by simp [comboCodes]

/-- A candidate in the terms of claims (R204). -/
theorem candidate_eq (tbl bas st target k) : candidate tbl bas st target k = 
   { err := squaredError (replay tbl st (comboCodes true bas target.length k)) target, index := k, state := replayEnd tbl st (comboCodes true bas target.length k) } := by
  unfold candidate
  rw [score_eq _ _ _ _ (by rw [comboCodes_length])]; rfl

theorem comboCodes_lt {bas : Nat} (h1 : 0 < bas) (h2 : bas ≤ 16) (g k) : ∀ c ∈ comboCodes true bas g k, c.toNat < bas := by
  intro c hc
  simp [comboCodes, comboDigit] at hc
  obtain ⟨j, hj, rfl⟩ := hc
  have := Nat.mod_lt (k / bas ^ (g - 1 - j)) h1
  simp; rw [Nat.mod_eq_of_lt (by omega)]; exact this

/-- What the group loop adds to a committed branch, for any search that agrees with `search` (R200, R202, R207). -/
theorem encodeGroups_spec (tbl : Tables) (bas gs : Nat) (h1 : 0 < bas) (h2 : bas ≤ 16) (hg : 0 < gs) (find) 
   (hfind : ∀ st ts, ts ≠ [] → find st ts = search tbl bas st ts) :
   ∀ (fuel : Nat) (ts : List Byte) (x : Branch), ts.length ≤ fuel → 
   ∃ codes, (encodeGroups find bas gs fuel ts x).hist = x.hist ++ codes ∧ codes.length = ts.length ∧ (∀ c ∈ codes, c.toNat < bas) ∧
     (encodeGroups find bas gs fuel ts x).state = replayEnd tbl x.state codes ∧ 
     ∀ q, q * gs < ts.length → ∃ y, search tbl bas (replayEnd tbl x.state (codes.take (q * gs))) ((ts.drop (q * gs)).take gs) = some y ∧
       (codes.drop (q * gs)).take gs = comboCodes true bas ((ts.drop (q * gs)).take gs).length y.index := by
  intro fuel
  induction fuel with
  | zero => intro ts x h; obtain rfl : ts = [] := by simpa using h
            exact ⟨[], by simp [encodeGroups, replayEnd]⟩
  | succ fuel ih =>
    intro ts x h
    cases ts with
    | nil => exact ⟨[], by simp [encodeGroups, replayEnd]⟩
    | cons t ts =>
      simp only [encodeGroups]
      obtain ⟨k, hk, he, -, -⟩ := foldl_better (candidate tbl bas x.state ((t :: ts).take gs)) (bas ^ ((t :: ts).take gs).length) (Nat.pow_pos h1)
      have hs : search tbl bas x.state ((t :: ts).take gs) = some (candidate tbl bas x.state ((t :: ts).take gs) k) := he
      rw [hfind _ _ (by simp; omega), hs]
      set grp := (t :: ts).take gs with hgrp
      set gc := comboCodes true bas grp.length k with hgc
      have hcm : commitGroup bas grp.length x (some (candidate tbl bas x.state grp k)) = 
        { state := replayEnd tbl x.state gc, hist := x.hist ++ gc, err := x.err + squaredError (replay tbl x.state gc) grp } := by
        rw [candidate_eq]; rfl
      rw [hcm]
      obtain ⟨codes, a, b, c, d, e⟩ := ih ((t :: ts).drop gs) { state := replayEnd tbl x.state gc, hist := x.hist ++ gc, err := x.err + squaredError (replay tbl x.state gc) grp } (by simp at h ⊢; omega)
      have hgl : gc.length = min gs (ts.length + 1) := by rw [hgc, comboCodes_length, hgrp]; simp
      refine ⟨gc ++ codes, by rw [a]; simp, ?_, ?_, by rw [d]; simp [replayEnd], ?_⟩
      · simp at b ⊢; omega
      · intro z hz; rcases List.mem_append.mp hz with hz | hz
        · exact comboCodes_lt h1 h2 _ _ z hz
        · exact c z hz
      · intro q hq
        cases q with
        | zero => 
          refine ⟨_, by simpa [replayEnd] using hs, ?_⟩
          have : (gc ++ codes).take gs = gc := by
            by_cases hle : gs ≤ ts.length + 1
            · rw [List.take_append_of_le_length (by omega), List.take_of_length_le (by omega)]
            · have : codes = [] := by rw [← List.length_eq_zero_iff, b]; simp; omega
              rw [this]; simp; omega
          simp only [Nat.zero_mul, List.drop_zero]
          rw [this]; rfl
        | succ q =>
          have hq' : (q + 1) * gs = q * gs + gs := by ring
          rw [hq'] at hq ⊢
          have hgs : gc.length = gs := by simp at hq; omega
          obtain ⟨y, h3, h4⟩ := e q (by simp at hq ⊢; omega)
          refine ⟨y, ?_, ?_⟩
          · rw [show q * gs + gs = gs + q * gs by omega]
            have : List.take (gs + q * gs) (gc ++ codes) = gc ++ codes.take (q * gs) := by
              rw [← hgs, List.take_append]; simp
            rw [this, ← List.drop_drop]
            simpa [replayEnd] using h3
          · rw [show q * gs + gs = gs + q * gs by omega, ← List.drop_drop, ← List.drop_drop (l := t :: ts)]
            have : List.drop gs (gc ++ codes) = codes := by rw [← hgs]; simp
            rw [this]; exact h4

theorem base_facts {w} (hw : w = 2 ∨ w = 4) : 0 < base w ∧ base w ≤ 16 := by rcases hw with h | h <;> rw [h] <;> decide

/-- A snapshot written to the registers is read back, when it is one of the codec in use. -/
theorem setSnapshot_snapshot (s : State) (st : Snapshot) (h : ∃ b c, st = replayEnd s.tbl (seedSnapshot s.w b) c) : (s.setSnapshot st).snapshot = st := by
  obtain ⟨b, c, rfl⟩ := h
  have h4 : ∀ (c : List Byte) (d : Dec4), ∃ e, replayEnd s.tbl (.four d) c = .four e := by
    intro c; induction c with
    | nil => intro d; exact ⟨d, rfl⟩
    | cons x c ih => intro d; exact ih _
  have h2 : ∀ (c : List Byte) (d : Dec2), ∃ e, replayEnd s.tbl (.two d) c = .two e := by
    intro c; induction c with
    | nil => intro d; exact ⟨d, rfl⟩
    | cons x c ih => intro d; exact ih _
  by_cases h : s.w = 4
  · rw [seedSnapshot, if_pos h]
    obtain ⟨e, he⟩ := h4 c _
    rw [he, State.snapshot, if_pos (show (s.setSnapshot (.four e)).w = 4 from h)]; rfl
  · rw [seedSnapshot, if_neg h]
    obtain ⟨e, he⟩ := h2 c _
    rw [he, State.snapshot, if_neg (show ¬ (s.setSnapshot (.two e)).w = 4 from h)]; rfl

theorem evolve_single (find bas gs targets x) : winner (evolveGroups find bas gs targets [x]) = some (encodeGroups find bas gs targets.length targets x) := rfl

end Sys2Proof.Machine
end

