-- ==== Sys2Proof/Laws/Host.lean ====
section
/-! SUPPORT. The host: one lemma for each field after a hardware reset, and what a host write leaves alone. -/

namespace Sys2Proof.Machine

/-! The fields after a hardware reset. -/

@[simp] theorem State.hardwareReset_prev (s : State) : s.hardwareReset.prev = 0 := rfl
@[simp] theorem State.hardwareReset_prevSet (s : State) : s.hardwareReset.prevSet = false := rfl
@[simp] theorem State.hardwareReset_acc (s : State) : s.hardwareReset.acc = 1 := rfl
@[simp] theorem State.hardwareReset_scale (s : State) : s.hardwareReset.scale = 0 := rfl
@[simp] theorem State.hardwareReset_tbl (s : State) : s.hardwareReset.tbl = s.tbl := rfl
@[simp] theorem State.hardwareReset_w (s : State) : s.hardwareReset.w = 0 := rfl
@[simp] theorem State.hardwareReset_opsel (s : State) : s.hardwareReset.opsel = 0 := rfl
@[simp] theorem State.hardwareReset_g (s : State) : s.hardwareReset.g = 0 := rfl
@[simp] theorem State.hardwareReset_b (s : State) : s.hardwareReset.b = 0 := rfl
@[simp] theorem State.hardwareReset_nr (s : State) : s.hardwareReset.nr = 0 := rfl
@[simp] theorem State.hardwareReset_inMem (s : State) : s.hardwareReset.inMem = [] := rfl
@[simp] theorem State.hardwareReset_inLen (s : State) : s.hardwareReset.inLen = 0 := rfl
@[simp] theorem State.hardwareReset_outMem (s : State) : s.hardwareReset.outMem = [] := rfl
@[simp] theorem State.hardwareReset_outLen (s : State) : s.hardwareReset.outLen = 0 := rfl
@[simp] theorem State.hardwareReset_done (s : State) : s.hardwareReset.done = true := rfl
@[simp] theorem State.hardwareReset_err (s : State) : s.hardwareReset.err = 0 := rfl
@[simp] theorem State.hardwareReset_pos (s : State) : s.hardwareReset.pos = 0 := rfl
@[simp] theorem State.hardwareReset_unit (s : State) : s.hardwareReset.unit = 0 := rfl
@[simp] theorem State.hardwareReset_pkb (s : State) : s.hardwareReset.pkb = 0 := rfl
@[simp] theorem State.hardwareReset_pkn (s : State) : s.hardwareReset.pkn = 0 := rfl
@[simp] theorem State.hardwareReset_branches (s : State) : s.hardwareReset.branches = [] := rfl
@[simp] theorem State.hardwareReset_has (s : State) : s.hardwareReset.has = Written.none := rfl
@[simp] theorem State.hardwareReset_cfg (s : State) : s.hardwareReset.cfg = s.cfg := rfl
@[simp] theorem State.hardwareReset_draw (s : State) : s.hardwareReset.draw = Config.freeDraw s.free := rfl
@[simp] theorem State.hardwareReset_free (s : State) : s.hardwareReset.free = s.free + 1 := rfl

/-! What a host write leaves alone: everything but the operand registers, `IN` and the draw. -/

@[simp] theorem applyHostWrite_prev (s : State) (m : HostWrite) : (applyHostWrite s m).prev = s.prev := by cases m <;> rfl
@[simp] theorem applyHostWrite_prevSet (s : State) (m : HostWrite) : (applyHostWrite s m).prevSet = s.prevSet := by cases m <;> rfl
@[simp] theorem applyHostWrite_acc (s : State) (m : HostWrite) : (applyHostWrite s m).acc = s.acc := by cases m <;> rfl
@[simp] theorem applyHostWrite_scale (s : State) (m : HostWrite) : (applyHostWrite s m).scale = s.scale := by cases m <;> rfl
@[simp] theorem applyHostWrite_tbl (s : State) (m : HostWrite) : (applyHostWrite s m).tbl = s.tbl := by cases m <;> rfl
@[simp] theorem applyHostWrite_outMem (s : State) (m : HostWrite) : (applyHostWrite s m).outMem = s.outMem := by cases m <;> rfl
@[simp] theorem applyHostWrite_outLen (s : State) (m : HostWrite) : (applyHostWrite s m).outLen = s.outLen := by cases m <;> rfl
@[simp] theorem applyHostWrite_done (s : State) (m : HostWrite) : (applyHostWrite s m).done = s.done := by cases m <;> rfl
@[simp] theorem applyHostWrite_err (s : State) (m : HostWrite) : (applyHostWrite s m).err = s.err := by cases m <;> rfl
@[simp] theorem applyHostWrite_pos (s : State) (m : HostWrite) : (applyHostWrite s m).pos = s.pos := by cases m <;> rfl
@[simp] theorem applyHostWrite_unit (s : State) (m : HostWrite) : (applyHostWrite s m).unit = s.unit := by cases m <;> rfl
@[simp] theorem applyHostWrite_pkb (s : State) (m : HostWrite) : (applyHostWrite s m).pkb = s.pkb := by cases m <;> rfl
@[simp] theorem applyHostWrite_pkn (s : State) (m : HostWrite) : (applyHostWrite s m).pkn = s.pkn := by cases m <;> rfl
@[simp] theorem applyHostWrite_branches (s : State) (m : HostWrite) : (applyHostWrite s m).branches = s.branches := by cases m <;> rfl
@[simp] theorem applyHostWrite_cfg (s : State) (m : HostWrite) : (applyHostWrite s m).cfg = s.cfg := by cases m <;> rfl
@[simp] theorem applyHostWrite_free (s : State) (m : HostWrite) : (applyHostWrite s m).free = s.free := by cases m <;> rfl

/-- A host write keeps the canonical form of `IN`. -/
theorem applyHostWrite_inMem_wf {s : State} (m : HostWrite) (h : s.inMem.wf = true) : (applyHostWrite s m).inMem.wf = true := by
  cases m
  case inByte a v => exact Memory.wf_write s.inMem a v h
  all_goals exact h

/-- A host write answers exactly while no operation runs, and then with its effect (R52, R323). -/
theorem hostWrite_eq_next {m : HostWrite} {s t : State} :
    hostWrite m s = .next t ↔ s.done = true ∧ t = applyHostWrite s m := by
  cases h : s.done <;> simp [hostWrite, h, eq_comm]

end Sys2Proof.Machine
end

