-- ==== Sys2Proof/Laws/PerInstr.lean ====
section
/-! SUPPORT. One statement for every instruction, about the instruction as syntax: the widths under which it exists. -/

namespace Sys2Proof.Laws.Widths

/-- Each instruction exists under a legal width and under no other (R77, R82, R83), and one that needs `W = 4` not under `W = 2`. -/
def Statement (i : Instr) : Prop :=
  (i.wellFormed 4 = true ∨ i.wellFormed 2 = true) ∧ (∀ w, i.wellFormed w = true → w = 2 ∨ w = 4) ∧
  (i.needsWidth4 = true → i.wellFormed 2 = false)

theorem m0 : Statement .m0 := by simp [Statement, Instr.wellFormed, Instr.format, Instr.needsWidth4, or_comm]
theorem m1 : Statement .m1 := by simp [Statement, Instr.wellFormed, Instr.format, Instr.needsWidth4, or_comm]
theorem m2 : Statement .m2 := by simp [Statement, Instr.wellFormed, Instr.format, Instr.needsWidth4, or_comm]
theorem m3 : Statement .m3 := by simp [Statement, Instr.wellFormed, Instr.format, Instr.needsWidth4, or_comm]
theorem m4 : Statement .m4 := by simp [Statement, Instr.wellFormed, Instr.format, Instr.needsWidth4, or_comm]
theorem m5 : Statement .m5 := by simp [Statement, Instr.wellFormed, Instr.format, Instr.needsWidth4, or_comm]
theorem m6 : Statement .m6 := by simp [Statement, Instr.wellFormed, Instr.format, Instr.needsWidth4, or_comm]
theorem m7 : Statement .m7 := by simp [Statement, Instr.wellFormed, Instr.format, Instr.needsWidth4, or_comm]
theorem p0 : Statement .p0 := by simp [Statement, Instr.wellFormed, Instr.format, Instr.needsWidth4, or_comm]
theorem p1 : Statement .p1 := by simp [Statement, Instr.wellFormed, Instr.format, Instr.needsWidth4, or_comm]
theorem p2 : Statement .p2 := by simp [Statement, Instr.wellFormed, Instr.format, Instr.needsWidth4, or_comm]
theorem p3 : Statement .p3 := by simp [Statement, Instr.wellFormed, Instr.format, Instr.needsWidth4, or_comm]
theorem p4 : Statement .p4 := by simp [Statement, Instr.wellFormed, Instr.format, Instr.needsWidth4, or_comm]
theorem p5 : Statement .p5 := by simp [Statement, Instr.wellFormed, Instr.format, Instr.needsWidth4, or_comm]
theorem p6 : Statement .p6 := by simp [Statement, Instr.wellFormed, Instr.format, Instr.needsWidth4, or_comm]
theorem p7 : Statement .p7 := by simp [Statement, Instr.wellFormed, Instr.format, Instr.needsWidth4, or_comm]
theorem s0 : Statement .s0 := by simp [Statement, Instr.wellFormed, Instr.format, Instr.needsWidth4, or_comm]
theorem s1 : Statement .s1 := by simp [Statement, Instr.wellFormed, Instr.format, Instr.needsWidth4, or_comm]
theorem s2 : Statement .s2 := by simp [Statement, Instr.wellFormed, Instr.format, Instr.needsWidth4, or_comm]
theorem s3 : Statement .s3 := by simp [Statement, Instr.wellFormed, Instr.format, Instr.needsWidth4, or_comm]
theorem pack : Statement .pack := by simp [Statement, Instr.wellFormed, Instr.format, Instr.needsWidth4, or_comm]
theorem unpack : Statement .unpack := by simp [Statement, Instr.wellFormed, Instr.format, Instr.needsWidth4, or_comm]
theorem decode : Statement .decode := by simp [Statement, Instr.wellFormed, Instr.format, Instr.needsWidth4, or_comm]
theorem encx : Statement .encx := by simp [Statement, Instr.wellFormed, Instr.format, Instr.needsWidth4, or_comm]
theorem encs : Statement .encs := by simp [Statement, Instr.wellFormed, Instr.format, Instr.needsWidth4, or_comm]
theorem enct : Statement .enct := by simp [Statement, Instr.wellFormed, Instr.format, Instr.needsWidth4, or_comm]

end Sys2Proof.Laws.Widths
end

