-- ==== Sys2Proof/Tests/Slice0.lean ====
section
/-! SUPPORT. Tests: the decoding of words written out from the spec, ill-formed terms that the checks refuse, the spec's own
vectors (95_test_vectors.md) on small states, and a witness for each obligation's hypotheses. -/

namespace Sys2Proof.Tests

open Sys2Proof.Machine

set_option maxRecDepth 20000
set_option Elab.async false

/-! Helpers. -/

/-- The suggested parameter values of R4 (all engines, `MAX_COMB = 2^24`, `PAD_CODE = 0`), as the vectors assume. -/
def vectorParams : Params :=
  { hasEncx := true, hasEncs := true, hasEnct := true, maxComb := 2 ^ 24, pad4 := 0, pad2 := 0 }

/-- The candidate tables of 93_implementation_defined G2, from general knowledge and not the source's: for vectors only. -/
def candidateTables : Tables :=
  { delta := #v[0, 1, 0, -1, 1, 3, -1, -3, 2, 6, -2, -6, 4, 12, -4, -12, 8, 24, -8, -24, 6, 48, -16, -48]
    adj := #v[0, 4, 0, 4, 252, 4, 252, 4, 252, 4, 252, 4, 252, 4, 252, 4, 252, 4, 252, 4, 252, 0, 252, 0] }

/-- Tables whose `DELTA` entry is its own index and whose `ADJ` entry is 252: they show the index and the wrap (V24). -/
def indexTables : Tables :=
  { delta := #v[0, 1, 2, 3, 4, 5, 6, 7, 8, 9, 10, 11, 12, 13, 14, 15, 16, 17, 18, 19, 20, 21, 22, 23]
    adj := Vector.replicate 24 252 }

/-- A block after reset with those parameters and tables. -/
def block : State := { State.reset with cfg := vectorParams, tbl := candidateTables }

/-- The host's writes of `IN` from address `a` on. -/
def inWrites : Nat → List Byte → List HostWrite
  | _, [] => []
  | a, x :: xs => .inByte a x :: inWrites (a + 1) xs

/-- A block for which the host wrote a width, an input and other registers. -/
def request (w : Nat) (input : List Byte) (more : List HostWrite) : State :=
  hostWrites block ([.w w, .inLen input.length] ++ inWrites 0 input ++ more)

/-- What the host reads of an outcome: `ERR` and `OUT[0 .. OUTLEN-1]`. -/
def seen : Host.Outcome State Fault Refusal → Option (Nat × List Nat)
  | .next t => some (t.err.toNat, t.outBytes.map BitVec.toNat)
  | _ => none

/-- The decoder registers that an outcome left: `PREV`, `ACC`, `SCALE`. -/
def regs : Host.Outcome State Fault Refusal → Option (Nat × Nat × Nat)
  | .next t => some (t.prev.toNat, t.acc.toNat, t.scale.toNat)
  | _ => none

/-- `ERR`, `OUT[0 .. OUTLEN-1]`, and the registers. -/
def result : Host.Outcome State Fault Refusal → Option (Nat × List Nat × Nat × Nat × Nat)
  | .next t => some (t.err.toNat, t.outBytes.map BitVec.toNat, t.prev.toNat, t.acc.toNat, t.scale.toNat)
  | _ => none

/-- Why an outcome was refused. -/
def why : Host.Outcome State Fault Refusal → Option Refusal
  | .refused r => some r
  | _ => none

/-- Where an outcome left the sequencer, and what it emitted last: `POS`, `UNIT`, `OUTLEN`. -/
def place : Host.Outcome State Fault Refusal → Option (Nat × Nat × Nat)
  | .next t => some (t.pos, t.unit, t.outLen)
  | _ => none

/-- `PREV` and `ACC` after one 4-bit code from a state. -/
def after4 (i : Instr) (prev acc : Nat) : Option (Nat × Nat) :=
  (regs (exec i { block with prev := BitVec.ofNat 8 prev, acc := BitVec.ofNat 4 acc })).map (fun r => (r.1, r.2.1))

/-- A row of V15: the state after one code from `PREV = 128` at each `ACC`. -/
def row (i : Instr) : List (Nat × Nat) := [1, 2, 4, 8].filterMap (after4 i 128)

/-- `PREV` and `SCALE` after one 2-bit code from a state. -/
def after2 (tbl : Tables) (i : Instr) (prev scale : Nat) : Option (Nat × Nat) :=
  (regs (exec i { block with tbl := tbl, prev := BitVec.ofNat 8 prev, scale := BitVec.ofNat 8 scale })).map
    (fun r => (r.1, r.2.2))

/-- ENCT with an explicit draw. -/
def enctWith (pick : Nat → Nat → Nat → Nat) (s : State) : Host.Outcome State Fault Refusal :=
  start .enct (enctBody pick) s

/-- `pick` always the first index of the pool. -/
def pickFirst : Nat → Nat → Nat → Nat := fun _ _ _ => 0

/-- `pick` always the last index of the pool. -/
def pickLast : Nat → Nat → Nat → Nat := fun _ _ n => n - 1

/-- The input of V33 and V39 to V42. -/
def samples : List Byte := [128, 130, 120, 140, 150, 160]

/-! Decoding: words written out from the encodings of R80 and R76. -/

theorem test_words_m :
    [0b0000, 0b0001, 0b0010, 0b0011, 0b0100, 0b0101, 0b0110, 0b0111].map (decodeTableWord 4)
      = [some .m0, some .m1, some .m2, some .m3, some .m4, some .m5, some .m6, some .m7] := by decide

theorem test_words_p :
    [0b1000, 0b1001, 0b1010, 0b1011, 0b1100, 0b1101, 0b1110, 0b1111].map (decodeTableWord 4)
      = [some .p0, some .p1, some .p2, some .p3, some .p4, some .p5, some .p6, some .p7] := by decide

theorem test_words_s :
    [0b00, 0b01, 0b10, 0b11].map (decodeTableWord 2) = [some .s0, some .s1, some .s2, some .s3] := by decide

theorem test_words_op :
    [0b000, 0b001, 0b010, 0b011, 0b100, 0b101, 0b110, 0b111].map (decodeTableWord 3)
      = [some .pack, some .unpack, some .decode, some .encx, some .encs, some .enct, none, none] := by decide

/-- R82: no code under `W = 3`, nor under any width but 2 and 4. -/
theorem test_words_rejected :
    decodeUnit 3 0x9D 0 = .rejected .threeBitFormat ∧ decodeUnit 5 0x9D 0 = .rejected .illegalWidth ∧
    decodeUnit 0 0x9D 0 = .rejected .illegalWidth ∧ decodeUnit 4 0x9D 2 = .rejected .unitOutOfRange ∧
    decodeUnit 2 0x9D 4 = .rejected .unitOutOfRange := by decide

/-- V13: the same byte under the two widths. -/
theorem test_units_v13 : unpackBytes 4 [0x1B] = [1, 11] ∧ unpackBytes 2 [0x1B] = [0, 1, 2, 3] := by decide

/-- An ill-formed term for each check of `wellFormed`. -/
theorem test_illFormed :
    Instr.wellFormed 2 .m0 = false ∧ Instr.wellFormed 4 .s0 = false ∧ Instr.wellFormed 3 .p7 = false ∧
    Instr.wellFormed 3 .pack = false ∧ Instr.wellFormed 2 .encs = false ∧ Instr.wellFormed 2 .enct = false := by decide

theorem test_wellFormed :
    Instr.wellFormed 4 .m0 = true ∧ Instr.wellFormed 2 .s0 = true ∧ Instr.wellFormed 2 .encx = true ∧
    Instr.wellFormed 4 .enct = true := by decide

/-! A word placed where the block fetches is the first instruction that runs. -/

theorem test_fetchWord_n4 : fetch (State.reset.withFetchWord 4 0b1101) = .instr .p5 := by decide
theorem test_fetchWord_n2 : fetch (State.reset.withFetchWord 2 0b10) = .instr .s2 := by decide
theorem test_fetchWord_op : fetch (State.reset.withFetchWord 3 0b001) = .instr .unpack := by decide
theorem test_step_code : ∃ t, step (State.reset.withFetchWord 4 9) = .next t := ⟨_, rfl⟩
theorem test_step_operation : ∃ t, step (State.reset.withFetchWord 3 5) = .next t := ⟨_, rfl⟩

/-! The 4-bit codes: V15, and the edges of V16. -/

theorem test_m0_v15 : row .m0 = [(128, 1), (127, 1), (126, 2), (124, 4)] := by decide +kernel
theorem test_m1_v15 : row .m1 = [(127, 1), (125, 2), (122, 4), (116, 8)] := by decide +kernel
theorem test_m2_v15 : row .m2 = [(126, 1), (123, 2), (118, 4), (108, 8)] := by decide +kernel
theorem test_m3_v15 : row .m3 = [(125, 1), (121, 2), (114, 4), (100, 8)] := by decide +kernel
theorem test_m4_v15 : row .m4 = [(124, 1), (119, 2), (110, 4), (92, 8)] := by decide +kernel
theorem test_m5_v15 : row .m5 = [(123, 2), (117, 4), (106, 8), (84, 8)] := by decide +kernel
theorem test_m6_v15 : row .m6 = [(122, 2), (115, 4), (102, 8), (76, 8)] := by decide +kernel
theorem test_m7_v15 : row .m7 = [(121, 2), (113, 4), (98, 8), (68, 8)] := by decide +kernel
theorem test_p0_v15 : row .p0 = [(128, 1), (129, 1), (130, 2), (132, 4)] := by decide +kernel
theorem test_p1_v15 : row .p1 = [(129, 1), (131, 2), (134, 4), (140, 8)] := by decide +kernel
theorem test_p2_v15 : row .p2 = [(130, 1), (133, 2), (138, 4), (148, 8)] := by decide +kernel
theorem test_p3_v15 : row .p3 = [(131, 1), (135, 2), (142, 4), (156, 8)] := by decide +kernel
theorem test_p4_v15 : row .p4 = [(132, 1), (137, 2), (146, 4), (164, 8)] := by decide +kernel
theorem test_p5_v15 : row .p5 = [(133, 2), (139, 4), (150, 8), (172, 8)] := by decide +kernel
theorem test_p6_v15 : row .p6 = [(134, 2), (141, 4), (154, 8), (180, 8)] := by decide +kernel
theorem test_p7_v15 : row .p7 = [(135, 2), (143, 4), (158, 8), (188, 8)] := by decide +kernel

/-- V16: both clamps, exactly reached and just missed, and adaptation at a clamp. -/
theorem test_edges_v16 :
    after4 .p7 250 8 = some (255, 8) ∧ after4 .p7 195 8 = some (255, 8) ∧ after4 .p7 196 8 = some (255, 8) ∧
    after4 .m7 3 8 = some (0, 8) ∧ after4 .m7 60 8 = some (0, 8) ∧ after4 .m7 59 8 = some (0, 8) ∧
    after4 .p0 255 8 = some (255, 4) ∧ after4 .m0 0 2 = some (0, 1) ∧ after4 .m0 0 1 = some (0, 1) := by decide +kernel

/-- R25: a code advances by one unit; the last unit of a byte moves to the next byte. -/
theorem test_position :
    place (exec .m1 { block with pos := 1, unit := 0 }) = some (1, 1, 1) ∧
    place (exec .m1 { block with pos := 1, unit := 1 }) = some (2, 0, 1) ∧
    place (exec .s1 { block with pos := 1, unit := 2 }) = some (1, 3, 1) ∧
    place (exec .s1 { block with pos := 1, unit := 3 }) = some (2, 0, 1) := by decide +kernel

/-! The 2-bit codes: V29 at two states (candidate tables), and V24, which no table decides. -/

theorem test_s0 : after2 candidateTables .s0 100 22 = some (84, 18) ∧ after2 indexTables .s0 0 21 = some (21, 17) := by
  decide +kernel
theorem test_s1 : after2 candidateTables .s1 100 22 = some (52, 22) ∧ after2 indexTables .s1 0 21 = some (22, 17) := by
  decide +kernel
theorem test_s2 : after2 candidateTables .s2 100 200 = some (52, 200) ∧ after2 indexTables .s2 0 21 = some (23, 17) := by
  decide +kernel
theorem test_s3 : after2 candidateTables .s3 100 22 = some (52, 22) ∧ after2 indexTables .s3 0 255 = some (23, 251) := by
  decide +kernel

/-- V24: the scale wraps to 252 from 0. -/
theorem test_scale_wraps : after2 indexTables .s0 7 0 = some (7, 252) := by decide +kernel

/-! The operations. -/

/-- V10, V11, V12 and P3. -/
theorem test_pack :
    seen (exec .pack (request 4 [9, 13, 15, 8] [])) = some (0, [0x9D, 0xF8]) ∧
    seen (exec .pack (request 2 [3, 0, 2, 1, 1] [])) = some (0, [0xC9, 0x40]) ∧
    seen (exec .pack { request 2 [3, 0, 2, 1, 1] [] with cfg := { vectorParams with pad2 := 3 } })
      = some (0, [0xC9, 0x7F]) := by decide +kernel

/-- V13 and P6: a byte that is no code; the byte already emitted is withdrawn. An empty input is no error. -/
theorem test_pack_range :
    seen (exec .pack (request 2 [1, 1, 3, 3, 2, 7] [])) = some (5, []) ∧
    seen (exec .pack (request 4 [3, 16] [])) = some (5, []) ∧
    seen (exec .pack (request 4 [1, 4, 0, 0] [])) = some (0, [0x14, 0x00]) ∧
    seen (exec .pack (request 4 [] [])) = some (0, []) := by decide +kernel

/-- V13 and P3. -/
theorem test_unpack :
    seen (exec .unpack (request 4 [0x9D, 0xF8] [])) = some (0, [9, 13, 15, 8]) ∧
    seen (exec .unpack (request 2 [0x9D] [])) = some (0, [2, 1, 3, 1]) ∧
    seen (exec .unpack (request 2 [0xC9, 0x40] [])) = some (0, [3, 0, 2, 1, 1, 0, 0, 0]) := by decide +kernel

/-- V18 (P1), V19, V20. -/
theorem test_decode_w4 :
    seen (exec .decode (request 4 [0x80, 0x9D, 0xF8, 0x07] [])) = some (0, [128, 129, 134, 149, 151, 150, 143]) ∧
    regs (exec .decode (request 4 [0x80, 0x9D, 0xF8, 0x07] [])) = some (143, 2, 0) ∧
    place (exec .decode (request 4 [0x80, 0x9D, 0xF8, 0x07] [])) = some (4, 0, 7) ∧
    seen (exec .decode (request 4 [250, 0xDF, 0xFF] [])) = some (0, [250, 255, 255, 255, 255]) ∧
    seen (exec .decode (request 4 [5, 0x57, 0x77] [])) = some (0, [5, 0, 0, 0, 0]) := by decide +kernel

/-- V25 (P2), V27, with the candidate tables. -/
theorem test_decode_w2 :
    seen (exec .decode (request 2 [0x80, 0x5F, 0xA0] [])) = some (0, [128, 129, 132, 126, 114, 106, 102, 104, 105]) ∧
    place (exec .decode (request 2 [0x80, 0x5F, 0xA0] [])) = some (3, 0, 9) ∧
    seen (exec .decode (request 2 [10, 0xFF, 0xFF] [])) = some (0, [10, 9, 6, 0, 0, 0, 0, 0, 0]) ∧
    regs (exec .decode (request 2 [10, 0xFF, 0xFF] [])) = some (0, 1, 20) := by decide +kernel

/-- V14 (a tie decided by the index), V33 with groups of two (P4). -/
theorem test_encx_w4 :
    seen (exec .encx (request 4 [120, 125, 128, 128, 128] [.g 2])) = some (0, [0x78, 0xD9, 0x09]) ∧
    result (exec .encx (request 4 samples [.g 2])) = some (0, [0x80, 0x07, 0xFB, 0xA0], 160, 4, 0) := by decide +kernel

/-- V35 (candidate tables), V36. -/
theorem test_encx_w2 :
    result (exec .encx (request 2 [128, 129, 132, 140, 150, 149] [.g 4])) = some (0, [0x80, 0x55, 0x80], 142, 1, 12) ∧
    seen (exec .encx (request 4 [77] [.g 5])) = some (0, [77]) := by decide +kernel

/-- V37. -/
theorem test_step16 :
    (step16 { prev := 128, acc := 4 }).map (fun d => (d.prev.toNat, d.acc.toNat))
      = [(126, 2), (122, 4), (118, 4), (114, 4), (110, 4), (106, 8), (102, 8), (98, 8), (130, 2), (134, 4), (138, 4),
         (142, 4), (146, 4), (150, 8), (154, 8), (158, 8)] ∧
    (step16 { prev := 250, acc := 8 }).map (fun d => (d.prev.toNat, d.acc.toNat))
      = [(246, 4), (238, 8), (230, 8), (222, 8), (214, 8), (206, 8), (198, 8), (190, 8), (254, 4), (255, 8), (255, 8),
         (255, 8), (255, 8), (255, 8), (255, 8), (255, 8)] := by decide +kernel

/-- V38: ENCS on V14 and V33. -/
theorem test_encs :
    seen (exec .encs (request 4 [120, 125, 128, 128, 128] [.g 2])) = some (0, [0x78, 0xD9, 0x09]) ∧
    seen (exec .encs (request 4 samples [.g 1])) = some (0, [0x80, 0xA7, 0xFA, 0xA0]) := by decide +kernel

/-- V40, V36, V43: no draw is made. -/
theorem test_enct_plain :
    seen (exec .enct (request 4 samples [.b 1, .nr 0])) = some (0, [0x80, 0xA7, 0xFA, 0xA0]) ∧
    seen (exec .enct (request 4 samples [.b 2, .nr 0])) = some (0, [0x80, 0x97, 0xFB, 0xA0]) ∧
    seen (exec .enct (request 4 [200] [.b 4, .nr 2])) = some (0, [200]) ∧
    seen (exec .enct (request 4 [200, 201] [.b 4, .nr 2])) = some (0, [0xC8, 0x90]) := by decide +kernel

/-- P5, V41 (both draws), V42. -/
theorem test_enct_draws :
    result (enctWith pickFirst (request 4 samples [.b 4, .nr 2])) = some (0, [0x80, 0x97, 0xFB, 0xA0], 161, 4, 0) ∧
    seen (enctWith pickFirst (request 4 samples [.b 1, .nr 1])) = some (0, [0x80, 0x96, 0xEA, 0xB0]) ∧
    seen (enctWith pickLast (request 4 samples [.b 1, .nr 1])) = some (0, [0x80, 0x7F, 0x77, 0xF0]) ∧
    seen (enctWith pickFirst (request 4 samples [.b 2, .nr 1])) = some (0, [0x80, 0xA7, 0xFA, 0xA0]) := by
  decide +kernel

/-! Errors, refusals, and what the host reads. -/

/-- V44: the rows of PACK, UNPACK and DECODE. -/
theorem test_errors_v44_streams :
    seen (exec .decode (request 3 [1, 2, 3] [])) = some (3, []) ∧ seen (exec .pack (request 3 [] [])) = some (3, []) ∧
    seen (exec .decode (request 3 [] [])) = some (3, []) ∧ seen (exec .decode (request 0 [1, 2, 3] [])) = some (1, []) ∧
    seen (exec .decode (request 1 [1, 2, 3] [])) = some (1, []) ∧
    seen (exec .unpack (request 5 [1, 2, 3] [])) = some (1, []) ∧ seen (exec .decode (request 4 [] [])) = some (2, []) ∧
    seen (exec .decode (request 2 [7] [])) = some (2, []) := by decide +kernel

/-- V44: the rows of the encoders. -/
theorem test_errors_v44_encoders :
    seen (exec .encx (request 8 [] [.g 0])) = some (1, []) ∧ seen (exec .encs (request 2 samples [.g 5])) = some (5, []) ∧
    seen (exec .enct (request 2 samples [.b 4, .nr 2])) = some (5, []) ∧
    seen (exec .encx (request 4 [] [.g 0])) = some (5, []) ∧
    seen (exec .enct (request 4 samples [.b 0, .nr 0])) = some (5, []) ∧
    seen (exec .enct (request 4 samples [.b 4, .nr 5])) = some (5, []) ∧
    seen (exec .encx (request 4 [] [.g 7])) = some (2, []) ∧ seen (exec .encx (request 4 samples [.g 7])) = some (4, []) ∧
    seen (exec .encs (request 4 samples [.g 7])) = some (4, []) ∧
    seen (exec .encx (request 2 samples [.g 13])) = some (4, []) := by decide +kernel

/-- V44: reserved selectors, one of them before an illegal width; V45: no selector at all. -/
theorem test_reserved_v44 :
    seen (step (request 4 [1, 2, 3] [.opsel 6])) = some (5, []) ∧ seen (step (request 3 [] [.opsel 7])) = some (5, []) ∧
    why (step State.reset) = some (.noValue .opsel) := by decide +kernel

/-- V45: after reset, a DECODE for which `G`, `B` and `NR` stay unwritten. -/
theorem test_first_decode_v45 :
    seen (step (request 4 [128, 0x88] [.opsel 2])) = some (0, [128, 128, 128]) := by decide +kernel

/-- R101: an engine that is absent is check 1, before the width. -/
theorem test_absent_engine :
    seen (exec .encx { request 3 samples [.g 1] with cfg := { vectorParams with hasEncx := false } }) = some (5, []) := by
  decide +kernel

/-- R11, R30, R290, R329: what the host may read after a success and after an error. -/
theorem test_host_reads :
    hostReadPrev { block with prev := 7, prevSet := true } = some 7 ∧ hostReadPrev block = none ∧
    hostReadAcc block = some 1 ∧ hostReadAcc { block with err := 5 } = none ∧
    hostReadOut { block with outMem := [(0, 9)], outLen := 1 } 0 = some 9 ∧
    hostReadOut { block with outMem := [(0, 9)], outLen := 0 } 0 = none ∧
    hostReadOutLen block = some 0 ∧ hostReadOutLen { block with done := false } = none ∧ hostReadW block = none ∧
    hostReadW { request 4 [] [] with done := false } = some 4 := by decide

/-- R52, R320: hardware reset, and a host write, while an operation runs have no move. -/
theorem test_host_busy :
    why (hardwareReset { block with done := false }) = some .hostWhileBusy ∧
    why (hostWrite (.w 4) { block with done := false }) = some .hostWhileBusy := by decide

/-! Witnesses: for each obligation with hypotheses, a state and operands that meet them together, at the ends of their ranges. -/

/-- Everything that a request can have has been written: the host wrote `G`, `B`, `NR` and `OPSEL` too. -/
def fullRequest (w : Nat) (input : List Byte) (sel : BitVec 3) (g b nr : Nat) : State :=
  request w input [.opsel sel, .g g, .b b, .nr nr]

/-- The legality of a request from three closed computations. -/
theorem requestOk_of {op : Operation} {s : State}
    (h : (unwritten op s == none && inputWritten s && firstError (checks op s) == none) = true) : RequestOk op s := by
  simp only [Bool.and_eq_true, beq_iff_eq] at h
  exact ⟨h.1.1, h.1.2, h.2⟩

/-- An outcome that the host sees is a next state. -/
theorem next_of_seen {o : Host.Outcome State Fault Refusal} (h : (seen o).isSome = true) : ∃ t, o = .next t := by
  cases o with
  | next t => exact ⟨t, rfl⟩
  | fault r => simp [seen] at h
  | refused r => simp [seen] at h

/-- What the host sees in `ERR`. -/
theorem err_of_seen {o : Host.Outcome State Fault Refusal} {n : Nat} (h : (seen o).map Prod.fst = some n) :
    ∃ t, o = .next t ∧ t.err.toNat = n := by
  cases o with
  | next t => exact ⟨t, rfl, by simpa [seen] using h⟩
  | fault r => simp [seen] at h
  | refused r => simp [seen] at h

theorem witness_StepRuns_idle :
    (fullRequest 4 [128, 9] 2 1 1 0).done = true ∧ (fullRequest 4 [128, 9] 2 1 1 0).has.opsel = true ∧
    decodeOp (fullRequest 4 [128, 9] 2 1 1 0).opsel = .instr .decode := by decide +kernel

theorem witness_StepRuns_code :
    let s := block.loadCode 4 0x9D
    s.done = false ∧ s.opsel = 2 ∧ s.pos < s.inLen ∧ s.inMem.read s.pos = some 0x9D ∧
    decodeUnit s.w 0x9D s.unit = .instr .p1 := by decide +kernel

theorem witness_StepRuns_end :
    let s := { block.loadCode 4 0x9D with pos := 2 }
    s.done = false ∧ s.opsel = 2 ∧ s.inLen ≤ s.pos := by decide +kernel

theorem witness_EncodedCodes :
    (Instr.format .p5 ≠ .op ∧ Instr.wellFormed 4 .p5 = true ∧ 1 < cpb 4 ∧ 0 < cpb 4 ∧ 0 ≠ 1) ∧
    (Instr.format .s3 ≠ .op ∧ Instr.wellFormed 2 .s3 = true ∧ 3 < cpb 2 ∧ 0 < cpb 2 ∧ 0 ≠ 3) := by decide

theorem witness_EveryByte : (4 = 2 ∨ 4 = 4) ∧ 1 < cpb 4 ∧ (2 = 2 ∨ 2 = 4) ∧ 3 < cpb 2 := by decide

theorem witness_MinusCodes :
    (Instr.m0, 0) ∈ minusCodes ∧ (Instr.m7, 7) ∈ minusCodes ∧ accLegal block.acc ∧
    accLegal ({ block with acc := 8 } : State).acc := by decide +kernel

theorem witness_PlusCodes :
    (Instr.p0, 0) ∈ plusCodes ∧ (Instr.p7, 7) ∈ plusCodes ∧ accLegal block.acc ∧
    accLegal ({ block with acc := 8 } : State).acc := by decide +kernel

theorem witness_TwoBitCodes : (Instr.s0, 0) ∈ twoBitCodes ∧ (Instr.s3, 3) ∈ twoBitCodes := by decide

theorem witness_CodesLeave_n4 :
    Instr.format .m7 ≠ .op ∧ Instr.format .m7 = .n4 ∧ ({ block with unit := 0 } : State).unit + 1 < 2 ∧
    (∃ t, exec .m7 { block with unit := 0 } = .next t) ∧ ¬ ({ block with unit := 1 } : State).unit + 1 < 2 ∧
    ∃ t, exec .m7 { block with unit := 1 } = .next t :=
  ⟨by decide, by decide, by decide, ⟨_, rfl⟩, by decide, _, rfl⟩

theorem witness_CodesLeave_n2 :
    Instr.format .s2 ≠ .op ∧ Instr.format .s2 = .n2 ∧ ({ block with unit := 2 } : State).unit + 1 < 4 ∧
    (∃ t, exec .s2 { block with unit := 2 } = .next t) ∧ ¬ ({ block with unit := 3 } : State).unit + 1 < 4 ∧
    ∃ t, exec .s2 { block with unit := 3 } = .next t :=
  ⟨by decide, by decide, by decide, ⟨_, rfl⟩, by decide, _, rfl⟩

theorem witness_AccumulatorFollows :
    accLegal ({ prev := 0, acc := 8 } : Dec4).acc ∧ codeData 0b1000 = 0 ∧ (1 ≤ codeData 0b0001 ∧ codeData 0b0001 ≤ 4) ∧
    (1 ≤ codeData 0b1100 ∧ codeData 0b1100 ≤ 4) ∧ 5 ≤ codeData 0b1101 := by decide

/-- V16: the largest and the smallest unclamped value. -/
theorem witness_StepSum :
    accLegal ({ prev := 255, acc := 8 } : Dec4).acc ∧ (255 : Int) + codeSgn 15 * codeDelta (codeData 15) 8 = 315 ∧
    (0 : Int) + codeSgn 7 * codeDelta (codeData 7) 8 = -60 := by decide

theorem witness_LargeScale : 23 ≤ ({ block with scale := 23 } : State).scale.toNat := by decide

/-- An error needs no input; a request that passes has its input. -/
theorem witness_StartChecks_written :
    (hostWrites block [.opsel 3, .w 3, .g 0, .b 0, .nr 0, .inLen 5]).has = Written.all ∧
    (fullRequest 4 [] 3 7 1 1).has = Written.all ∧
    (fullRequest 4 [1] 3 1 1 1).has = Written.all ∧ inputWritten (fullRequest 4 [1] 3 1 1 1) = true := by decide +kernel

theorem witness_StartChecks_reserved :
    let s := fullRequest 4 [1] 6 1 1 0
    let u := fullRequest 3 [] 7 1 1 0
    (s.done = true ∧ s.has.opsel = true ∧ 6 ≤ s.opsel.toNat) ∧ (u.done = true ∧ u.has.opsel = true ∧ 6 ≤ u.opsel.toNat) := by
  decide +kernel

theorem witness_OperationsEnd :
    (∃ t, exec Operation.pack.instr (fullRequest 4 [9] 0 1 1 0) = .next t) ∧
    (∃ t, exec Operation.pack.instr (fullRequest 4 [16] 0 1 1 0) = .next t ∧ t.err.toNat = 5) :=
  ⟨next_of_seen (by decide +kernel), err_of_seen (by decide +kernel)⟩

theorem witness_Refused_opsel : State.reset.done = true ∧ State.reset.has.opsel = false := by decide

theorem witness_Refused_w : block.has.w = false ∧ absentEngine block.cfg .encx = false := by decide

theorem witness_Refused_g :
    let s := request 4 [1] []
    s.has.w = true ∧ s.has.g = false ∧ firstError ((checks .encx s).take 4) = none ∧
    firstError ((checks .encs s).take 4) = none := by decide +kernel

theorem witness_Refused_b :
    let s := request 4 [1] [.nr 0]
    s.has.w = true ∧ s.has.b = false ∧ firstError ((checks .enct s).take 4) = none := by decide +kernel

theorem witness_Refused_nr :
    let s := request 4 [1] [.b 4]
    s.has.w = true ∧ s.has.b = true ∧ s.has.nr = false ∧ firstError ((checks .enct s).take 4) = none := by decide +kernel

theorem witness_Refused_inLen :
    let s := hostWrites block [.w 4]
    let u := hostWrites block [.w 4, .g 1]
    let v := hostWrites block [.w 4, .b 1, .nr 1]
    (s.has.w = true ∧ s.has.g = false ∧ s.has.inLen = false ∧ firstError ((checks .pack s).take 5) = none) ∧
    (u.has.w = true ∧ u.has.g = true ∧ u.has.inLen = false ∧ firstError ((checks .encx u).take 5) = none) ∧
    (v.has.w = true ∧ v.has.b = true ∧ v.has.nr = true ∧ v.has.inLen = false ∧
      firstError ((checks .enct v).take 5) = none) := by decide +kernel

theorem witness_Refused_byte :
    let s := hostWrites (request 4 [128] []) [.inLen 2]
    s.has.w = true ∧ s.has.inLen = true ∧ s.has.g = false ∧ firstError (checks .decode s) = none ∧ 1 < s.inLen ∧
    s.inMem.read 1 = none ∧ s.inMem.read 0 = some 128 := by decide +kernel

/-- For PACK the bytes before are codes of the width, the largest one here. -/
theorem witness_Refused_byte_pack :
    let s := hostWrites (request 4 [15] []) [.inLen 3, .inByte 2 16]
    s.has.w = true ∧ s.has.inLen = true ∧ firstError (checks .pack s) = none ∧ 1 < s.inLen ∧ s.inMem.read 1 = none ∧
    s.inMem.read 0 = some 15 ∧ (15 : Byte).toNat < base s.w ∧ why (exec .pack s) = some (.noValueByte 1) := by decide +kernel

theorem witness_Ignored :
    let s := request 4 [128, 9] []
    s.has.w = true ∧ s.has.inLen = true ∧ inputWritten s = true ∧ s.has.g = false ∧ s.has.b = false ∧ s.has.nr = false := by
  decide +kernel

theorem witness_PackPlaces :
    ((∀ c ∈ [15, 0].map (BitVec.ofNat 8), c.toNat < 16) ∧ [15, 0].length % 2 = 0 ∧ 0 < [15, 0].length / 2) ∧
    ((∀ c ∈ [3, 0, 2, 1].map (BitVec.ofNat 8), c.toNat < 4) ∧ [3, 0, 2, 1].length % 4 = 0 ∧ 0 < [3, 0, 2, 1].length / 4) := by
  decide

theorem witness_UnpackInverts :
    ((15 : Byte).toNat < base 4 ∧ ∀ c ∈ ([15, 0, 9] : List Byte), c.toNat < base 4) ∧
    ((3 : Byte).toNat < base 2 ∧ ∀ c ∈ ([3, 0, 2, 1, 1] : List Byte), c.toNat < base 2) := by decide

theorem witness_PushAndFlush :
    let s := fullRequest 2 [] 0 1 1 0
    let u := fullRequest 4 [] 0 1 1 0
    (s.w = 2 ∧ s.pkn = 0 ∧ s.pkb = 0 ∧ ∀ c ∈ ([3, 0, 2, 1, 1] : List Byte), c.toNat < base s.w) ∧
    (u.w = 4 ∧ u.pkn = 0 ∧ u.pkb = 0 ∧ ∀ c ∈ ([15, 0, 9] : List Byte), c.toNat < base u.w) := by decide +kernel

theorem witness_Pack_inRange :
    RequestOk .pack (fullRequest 4 [15, 0, 9] 0 1 1 0) ∧
    ∀ c ∈ (fullRequest 4 [15, 0, 9] 0 1 1 0).inBytes, c.toNat < base (fullRequest 4 [15, 0, 9] 0 1 1 0).w :=
  ⟨requestOk_of (by decide +kernel), by decide +kernel⟩

theorem witness_Pack_outOfRange :
    RequestOk .pack (fullRequest 2 [3, 4] 0 1 1 0) ∧
    ∃ c ∈ (fullRequest 2 [3, 4] 0 1 1 0).inBytes, base (fullRequest 2 [3, 4] 0 1 1 0).w ≤ c.toNat :=
  ⟨requestOk_of (by decide +kernel), by decide +kernel⟩

theorem witness_Unpack :
    RequestOk .unpack (fullRequest 2 [0x9D] 1 1 1 0) ∧ RequestOk .unpack (fullRequest 4 [] 1 1 1 0) :=
  ⟨requestOk_of (by decide +kernel), requestOk_of (by decide +kernel)⟩

theorem witness_Decode :
    RequestOk .decode (fullRequest 2 [128, 0x5F] 2 1 1 0) ∧ RequestOk .decode (fullRequest 4 [128, 0x9D] 2 1 1 0) ∧
    (fullRequest 4 [128, 0x9D] 2 1 1 0).opsel = 2 :=
  ⟨requestOk_of (by decide +kernel), requestOk_of (by decide +kernel), by decide +kernel⟩

/-- The view of DECODE code by code, on P1. -/
theorem test_decode_by_codes :
    seen (Host.Core.run Sys2Proof.core 7 (fullRequest 4 [0x80, 0x9D, 0xF8, 0x07] 2 1 1 0).beginDecode)
      = some (0, [128, 129, 134, 149, 151, 150, 143]) := by decide +kernel

theorem witness_CombinationIndex :
    (1 < 16 ∧ 16 ≤ 16 ∧ 255 < 16 ^ 2) ∧ (1 < 2 ∧ 2 ≤ 16 ∧ 0 < 2 ^ 0) ∧
    (([15, 0] : List Byte).length = 2 ∧ (∀ c ∈ ([15, 0] : List Byte), c.toNat < 16) ∧
      ([15, 0] : List Byte) = 15 :: [0]) := by decide

theorem witness_Search : 0 < base 2 ∧ 0 < base 4 ∧ 3 < 4 ^ ([128] : List Byte).length := by decide

/-- The largest groups that `MAX_COMB` admits (V44), the shortest input, and each engine. -/
theorem witness_Encx :
    RequestOk .encx (fullRequest 4 samples 3 6 1 0) ∧ RequestOk .encx (fullRequest 2 [77] 3 12 1 0) :=
  ⟨requestOk_of (by decide +kernel), requestOk_of (by decide +kernel)⟩

theorem witness_Encs :
    RequestOk .encs (fullRequest 4 samples 4 6 1 0) ∧ RequestOk .encs (fullRequest 4 [77] 4 1 1 0) :=
  ⟨requestOk_of (by decide +kernel), requestOk_of (by decide +kernel)⟩

theorem witness_EncsEqualsEncx :
    (fullRequest 4 samples 4 6 1 0).w = 4 ∧
    (fullRequest 4 samples 4 6 1 0).cfg.hasEncs = (fullRequest 4 samples 4 6 1 0).cfg.hasEncx := by decide +kernel

/-- A branch for the witnesses below. -/
def leaf (e : Nat) : Branch := { state := .four { prev := 0, acc := 1 }, hist := [], err := e }

theorem witness_Survivors :
    1 ≤ 1 ∧ [leaf 0].length ≤ 1 ∧ 1 < [leaf 0, leaf 1].length ∧ 0 < 1 - 0 ∧ 0 < 1 ∧
    survivors pickFirst 1 1 1 [leaf 0, leaf 1] = [leaf 1] := by decide

theorem witness_Live : 0 < 1 ∧ 1 ≤ 1 ∧
    (trellis candidateTables pickFirst 1 1 1 [130, 120] [rootBranch 4 128]).length = 16 := by decide +kernel

theorem witness_Winner : [leaf 2, leaf 1, leaf 1] ≠ [] ∧ winner [leaf 2, leaf 1, leaf 1] = some (leaf 1) := by decide

theorem witness_Enct :
    RequestOk .enct (fullRequest 4 samples 5 1 4 4) ∧ RequestOk .enct (fullRequest 4 [200] 5 1 1 0) :=
  ⟨requestOk_of (by decide +kernel), requestOk_of (by decide +kernel)⟩

theorem witness_WideBeam :
    ([140, 150] : List Byte) ≠ [] ∧ 16 ^ (([140, 150] : List Byte).length - 1) ≤ 16 ∧
    (winner (trellis candidateTables pickFirst 16 8 1 [140, 150] [rootBranch 4 128])).map Branch.err = some 25 ∧
    ([15, 15] : List Byte).length = ([140, 150] : List Byte).length ∧ (∀ c ∈ ([15, 15] : List Byte), c.toNat < 16) :=
  ⟨by decide, by decide, by decide +kernel, by decide, by decide⟩

theorem witness_BeamOfOne :
    let s := fullRequest 4 samples 5 1 1 0
    RequestOk .enct s ∧ RequestOk .encx s ∧ s.b = 1 ∧ s.nr = 0 ∧ s.g = 1 :=
  ⟨requestOk_of (by decide +kernel), requestOk_of (by decide +kernel), by decide +kernel, by decide +kernel, by decide +kernel⟩

/-- P4: the output of ENCX as the input of DECODE. -/
theorem witness_DecodeOfEncoded :
    let s := fullRequest 4 samples 3 2 1 0
    let u := fullRequest 4 [0x80, 0x07, 0xFB, 0xA0] 2 1 1 0
    isEncoder .encx = true ∧ RequestOk .encx s ∧ RequestOk .decode u ∧ u.w = s.w ∧ u.tbl = s.tbl ∧
    seen (exec .encx s) = some (0, u.inBytes.map BitVec.toNat) :=
  ⟨by decide, requestOk_of (by decide +kernel), requestOk_of (by decide +kernel), by decide +kernel, by decide +kernel,
    by decide +kernel⟩

/-- A state that has the invariant, before a request and in a running DECODE. -/
theorem witness_Inv_idle : (fullRequest 4 [128, 9] 2 1 1 0).Inv where
  accOk     := by decide +kernel
  inWf      := by decide +kernel
  outWf     := by decide +kernel
  outFull   := fun a h => absurd h (by rw [show (fullRequest 4 [128, 9] 2 1 1 0).outLen = 0 by decide +kernel]; omega)
  errOk     := by decide +kernel
  errNoOut  := by decide +kernel
  busyNoErr := by decide +kernel
  unitOk    := by decide +kernel
  unitRun   := by decide +kernel
  seeded    := by decide +kernel
  pknOk     := by decide +kernel
  storeNone := by decide +kernel

theorem witness_Inv_running : (block.loadCode 4 0x9D).Inv where
  accOk     := by decide +kernel
  inWf      := by decide +kernel
  outWf     := by decide +kernel
  outFull   := fun a h => absurd h (by rw [show (block.loadCode 4 0x9D).outLen = 0 by decide +kernel]; omega)
  errOk     := by decide +kernel
  errNoOut  := by decide +kernel
  busyNoErr := by decide +kernel
  unitOk    := by decide +kernel
  unitRun   := by decide +kernel
  seeded    := by decide +kernel
  pknOk     := by decide +kernel
  storeNone := by decide +kernel

theorem witness_Steps :
    (∃ t, step (fullRequest 4 [128, 9] 2 1 1 0) = .next t) ∧ (∃ t, step (block.loadCode 4 0x9D) = .next t) ∧
    (∃ t, hostWrite (.inByte 3 7) (fullRequest 4 [128, 9] 2 1 1 0) = .next t) ∧
    ∃ t, hardwareReset (fullRequest 4 [128, 9] 2 1 1 0) = .next t :=
  ⟨next_of_seen (by decide +kernel), next_of_seen (by decide +kernel), next_of_seen (by decide +kernel),
    next_of_seen (by decide +kernel)⟩

/-- The frame of the operations: a success, an error at `START`, and a PACK that raises. -/
theorem witness_OperationsLeave :
    (∃ t, exec Operation.unpack.instr (fullRequest 4 [128] 1 1 1 0) = .next t ∧ t.err.toNat = 0) ∧
    (∃ t, exec Operation.decode.instr (fullRequest 4 [128] 2 1 1 0) = .next t ∧ t.err.toNat = 2) ∧
    (∃ t, exec Operation.pack.instr (fullRequest 2 [3, 4] 0 1 1 0) = .next t ∧ t.err.toNat = 5) :=
  ⟨err_of_seen (by decide +kernel), err_of_seen (by decide +kernel), err_of_seen (by decide +kernel)⟩

/-- The block with another past: other decoder registers, another error, other output. -/
def otherPast (s : State) : State :=
  { s with prev := 9, acc := 8, scale := 3, err := 5, outLen := 1, outMem := [(0, 1)], pos := 7, free := 4 }

theorem otherPast_sameOperands (s : State) : s.SameOperands (otherPast s) := by constructor <;> rfl

/-- Two blocks with one request and different pasts. -/
theorem witness_Earlier :
    (fullRequest 4 samples 5 1 4 2).SameOperands (otherPast (fullRequest 4 samples 5 1 4 2)) ∧
    (otherPast (fullRequest 4 samples 5 1 4 2)).draw = (fullRequest 4 samples 5 1 4 2).draw ∧
    ∃ t, exec Operation.enct.instr (fullRequest 4 samples 5 1 4 2) = .next t :=
  ⟨otherPast_sameOperands _, by decide +kernel, next_of_seen (by decide +kernel)⟩

theorem witness_HostWrites : block.done = true ∧ ({ block with done := false } : State).done = false := by decide

/-- An idle block that holds a request and an error, and a busy one. -/
theorem witness_HardwareReset :
    (otherPast (fullRequest 4 samples 5 1 4 2)).done = true ∧ (otherPast (fullRequest 4 samples 5 1 4 2)).err ≠ 0 ∧
    ({ block with done := false } : State).done = false := by decide +kernel

/-- `W` has a value or none; a block is idle or runs; an operation succeeds, with a seeded decoder or without, or ends in an error. -/
theorem witness_HostReads :
    (block.has.w = false ∧ (request 4 [] []).has.w = true ∧ ({ block with done := false } : State).done = false) ∧
    (∃ t, exec Operation.decode.instr (request 4 [128, 0x88] []) = .next t ∧ t.err.toNat = 0) ∧
    (∃ t, exec Operation.unpack.instr (request 4 [0x9D] []) = .next t ∧ t.err.toNat = 0) ∧
    (∃ t, exec Operation.pack.instr (request 4 [16] []) = .next t ∧ t.err.toNat = 5) :=
  ⟨by decide +kernel, err_of_seen (by decide +kernel), err_of_seen (by decide +kernel), err_of_seen (by decide +kernel)⟩

end Sys2Proof.Tests
end

section
/-! PROOF. The codes: which instructions they are, and what one of them leaves alone (O9). -/

namespace Sys2Proof

/-- The format in which a word is written (R70). -/
def CodeWord.format : CodeWord → Format
  | .n4 _ => .n4
  | .n2 _ => .n2
  | .op _ => .op

theorem encode_format (i : Instr) : (encode i).format = i.format := by cases i <;> rfl

theorem decodeWord_encode (i : Instr) : decodeWord (encode i) = .instr i := by cases i <;> rfl

theorem decode4_format (n : BitVec 4) : (decode4 n).format = .n4 := by unfold decode4; split <;> rfl

theorem decode2_format (c : BitVec 2) : (decode2 c).format = .n2 := by unfold decode2; split <;> rfl

/-- The instructions that are no operation are the codes of the two widths (R80). -/
theorem eq_decode_of_format_ne_op {i : Instr} (h : i.format ≠ .op) : (∃ n, i = decode4 n) ∨ ∃ c, i = decode2 c := by
  have hw := decodeWord_encode i
  have hf := encode_format i
  cases he : encode i with
  | n4 n => rw [he] at hw; exact .inl ⟨n, (Decoded.instr.inj hw).symm⟩
  | n2 c => rw [he] at hw; exact .inr ⟨c, (Decoded.instr.inj hw).symm⟩
  | op sel => rw [he] at hf; exact absurd hf.symm h

namespace Machine

/-- The second state is the first after one code of a byte of `n` codes, as far as both codecs agree: one byte emitted, the position
advanced by one unit, and nothing else written but the decoder's own registers (R25, R104, R105). -/
structure State.CodeFrame (n : Nat) (s t : State) : Prop where
  operands : s.SameOperands t
  emits    : s.Emits t [t.prev]
  prevSet  : t.prevSet = true
  done     : t.done = s.done
  err      : t.err = s.err
  pkb      : t.pkb = s.pkb
  pkn      : t.pkn = s.pkn
  branches : t.branches = s.branches
  draw     : t.draw = s.draw
  free     : t.free = s.free
  unit     : t.unit = if s.unit + 1 < n then s.unit + 1 else 0
  pos      : t.pos = if s.unit + 1 < n then s.pos else s.pos + 1

/-- Writing the decoder registers, emitting the new `PREV` and advancing has a code's frame, whatever the registers take. -/
theorem State.codeFrame_step (s : State) (p : Byte) (a : BitVec 4) (c : Byte) (n : Nat) :
    s.CodeFrame n ((({ s with prev := p, prevSet := true, acc := a, scale := c } : State).emit p).advance n) where
  operands := by constructor <;> simp
  emits    := by
    have same : s.Emits ({ s with prev := p, prevSet := true, acc := a, scale := c } : State) [] := .of_same rfl rfl
    simpa using (same.trans (State.emits_emit _ p)).silent (State.advance_outMem _ n) (State.advance_outLen _ n)
  prevSet  := by simp
  done     := by simp
  err      := by simp
  pkb      := by simp
  pkn      := by simp
  branches := by simp
  draw     := by simp
  free     := by simp
  unit     := State.advance_unit _ n
  pos      := State.advance_pos _ n

theorem codeStep4_frame (n : BitVec 4) (s : State) : s.CodeFrame (cpb 4) (codeStep4 n s) := s.codeFrame_step _ _ _ _

theorem codeStep2_frame (c : BitVec 2) (s : State) : s.CodeFrame (cpb 2) (codeStep2 c s) := s.codeFrame_step _ _ _ _

@[simp] theorem codeStep4_scale (n : BitVec 4) (s : State) : (codeStep4 n s).scale = s.scale := by simp [codeStep4]

@[simp] theorem codeStep2_acc (c : BitVec 2) (s : State) : (codeStep2 c s).acc = s.acc := by simp [codeStep2]

/-- Bytes that were not appended are as they were. -/
theorem State.Emits.read_of_ne {s t : State} {v : Byte} (h : s.Emits t [v]) {a : Nat} (ha : a ≠ s.outLen) :
    t.outMem.read a = s.outMem.read a := by
  rw [h.bytes, if_neg (by simp; omega)]

/-- A code's move of the position: the next unit of its byte, or the first of the next byte (R25). -/
theorem State.CodeFrame.position {n : Nat} {s t : State} (h : s.CodeFrame n t) :
    if s.unit + 1 < n then t.unit = s.unit + 1 ∧ t.pos = s.pos else t.unit = 0 ∧ t.pos = s.pos + 1 := by
  rw [h.unit, h.pos]
  split <;> exact ⟨rfl, rfl⟩

/-- Settles O9: a code is a step of one of the two codecs, and each has the frame of its byte's number of codes. -/
theorem codesLeaveEverythingElse : Obligations.CodesLeaveEverythingElse := by
  intro i s t hi ht
  suffices ∃ n, (n = if i.format = .n4 then 2 else 4) ∧ s.CodeFrame n t ∧
      (i.format = .n4 → t.scale = s.scale) ∧ (i.format = .n2 → t.acc = s.acc) by
    obtain ⟨n, hn, h, hscale, hacc⟩ := this
    exact ⟨h.operands, h.prevSet, h.emits.len, hscale, hacc, h.done, h.err, h.pkb, h.pkn, h.branches, h.draw, h.free,
      fun a => h.emits.read_of_ne, hn ▸ h.position⟩
  obtain ⟨n, rfl⟩ | ⟨c, rfl⟩ := eq_decode_of_format_ne_op hi
  · obtain rfl := Host.Outcome.next.inj ((exec_decode4 n s).symm.trans ht)
    exact ⟨2, by rw [decode4_format, if_pos rfl], codeStep4_frame n s, fun _ => codeStep4_scale n s, by simp [decode4_format]⟩
  · obtain rfl := Host.Outcome.next.inj ((exec_decode2 c s).symm.trans ht)
    exact ⟨4, by simp [decode2_format], codeStep2_frame c s, by simp [decode2_format], fun _ => codeStep2_acc c s⟩

end Machine
end Sys2Proof
end

section
/-! PROOF. The reset state has the invariant (O38), and what the host's writes do (O43). -/

namespace Sys2Proof.Machine

/-- Settles O38, field by field on the reset state. -/
theorem invariantHoldsAtReset : Obligations.InvariantHoldsAtReset where
  accOk     := .inl rfl
  inWf      := rfl
  outWf     := rfl
  outFull   := fun _ h => absurd h (Nat.not_lt_zero _)
  errOk     := Nat.zero_le 5
  errNoOut  := fun _ => rfl
  busyNoErr := fun _ => rfl
  unitOk    := Nat.zero_lt_succ 3
  unitRun   := nofun
  seeded    := nofun
  pknOk     := Nat.zero_lt_succ 3
  storeNone := rfl

/-- Settles O43: while no operation runs a host write answers with its effect, and otherwise it is refused. -/
theorem hostWritesOnlyWhileIdle : Obligations.HostWritesOnlyWhileIdle := by
  intro s
  refine ⟨fun hd => ?_, fun hb m => by simp [hostWrite, hb]⟩
  have answers : ∀ m, hostWrite m s = .next (applyHostWrite s m) := fun m => hostWrite_eq_next.mpr ⟨hd, rfl⟩
  exact ⟨fun _ => answers _, fun _ => answers _, fun _ => answers _, fun _ => answers _, fun _ => answers _, fun _ => answers _,
    fun a v => ⟨_, answers _, s.inMem.read_write_same a v, fun _ hk => s.inMem.read_write_ne v hk, rfl⟩, fun _ => answers _⟩

end Sys2Proof.Machine
end

section
/-! PROOF. Every snapshot that an encoder scores or commits has a legal `ACC` (R31), whatever search finds it. -/

namespace Sys2Proof.Machine

/-- A snapshot of the 4-bit codec has a legal `ACC`; one of the 2-bit codec has none (R12, R31). -/
def Snapshot.AccLegal : Snapshot → Prop
  | .four d => accLegal d.acc
  | .two _ => True

theorem step4_accLegal {d : Dec4} (n : BitVec 4) (h : accLegal d.acc) : accLegal (step4 d n).acc := accLegal_adaptAcc _ n h

theorem seedSnapshot_accLegal (w : Nat) (b : Byte) : (seedSnapshot w b).AccLegal := by
  unfold seedSnapshot
  split
  · exact .inl rfl
  · trivial

theorem oracle_accLegal (tbl : Tables) {st : Snapshot} (c : Byte) (h : st.AccLegal) : (oracle tbl st c).AccLegal := by
  cases st with
  | four d => exact step4_accLegal _ h
  | two d => trivial

theorem score_accLegal (tbl : Tables) : ∀ (ts cs : List Byte) {st : Snapshot}, st.AccLegal → (score tbl st ts cs).2.AccLegal
  | _ :: ts, _ :: cs, _, h => score_accLegal tbl ts cs (oracle_accLegal tbl _ h)
  | [], _, _, h => h
  | _ :: _, [], _, h => h

/-- A search that keeps `ACC` legal: what it finds from a legal state is a legal state. -/
def SearchKeepsAcc (find : Snapshot → List Byte → Option Best) : Prop :=
  ∀ st ts, st.AccLegal → ∀ y ∈ find st ts, y.state.AccLegal

/-- The running best is the new candidate or the old best (R206). -/
theorem better_eq_some {best : Option Best} {x y : Best} (h : better best x = some y) : y = x ∨ best = some y := by
  cases best <;> grind [better]

/-- The running best path is the new path or the old best (R232). -/
theorem betterPath_eq_some {best : Option BestPath} {x y : BestPath} (h : betterPath best x = some y) :
    y = x ∨ best = some y := by
  cases best <;> grind [betterPath]

/-- The running winner is the new branch or the old winner (R257). -/
theorem betterBranch_eq_some {best : Option Branch} {x y : Branch} (h : betterBranch best x = some y) :
    y = x ∨ best = some y := by
  cases best <;> grind [betterBranch]

theorem search_keepsAcc (tbl : Tables) (bas : Nat) : SearchKeepsAcc (search tbl bas) := by
  intro st ts hst
  refine List.foldlRecOn (motive := fun best : Option Best => ∀ y ∈ best, y.state.AccLegal) _ _ nofun ?_
  intro best hbest k _ y hy
  obtain rfl | hold := better_eq_some hy
  · exact score_accLegal tbl _ _ hst
  · exact hbest y hold

/-- Each of the sixteen lanes is a step of the scalar decoder (R231). -/
theorem step16_accLegal {d : Dec4} (h : accLegal d.acc) {lane : Dec4 × Nat} (hl : lane ∈ (step16 d).zipIdx) :
    accLegal lane.1.acc := by
  obtain ⟨i, -, hi⟩ := List.mem_map.mp (List.fst_mem_of_mem_zipIdx hl)
  rw [← hi]
  exact step4_accLegal _ h

/-- The best path so far, where there is one, ends in a legal state. -/
def PathLegal (best : Option BestPath) : Prop := ∀ y ∈ best, accLegal y.state.acc

theorem dfs_pathLegal (ts : List Byte) : ∀ (d : Dec4) (e : Nat) (pre : List Byte) (best : Option BestPath), accLegal d.acc →
    PathLegal best → PathLegal (dfs ts d e pre best) := by
  induction ts with
  | nil => exact fun _ _ _ _ _ hbest => hbest
  | cons t ts ih =>
    intro d e pre best hd hbest
    cases ts with
    | nil =>
      refine List.foldlRecOn (motive := PathLegal) _ _ hbest fun best hb lane hl y hy => ?_
      obtain rfl | hold := betterPath_eq_some hy
      · exact step16_accLegal hd hl
      · exact hb y hold
    | cons t' ts =>
      exact List.foldlRecOn (motive := PathLegal) _ _ hbest
        fun b hb lane hl => ih _ _ _ b (step16_accLegal hd hl) hb

theorem searchSimd_keepsAcc : SearchKeepsAcc searchSimd := by
  intro st ts hst y hy
  cases st with
  | four d =>
    obtain ⟨x, hx, rfl⟩ := Option.map_eq_some_iff.mp hy
    exact dfs_pathLegal ts d 0 [] none hst nofun x hx
  | two d => simp [searchSimd] at hy

/-- Every branch of a store has a legal state. -/
def StoreLegal (live : List Branch) : Prop := ∀ x ∈ live, x.state.AccLegal

theorem rootBranch_storeLegal (w : Nat) (b : Byte) : StoreLegal [rootBranch w b] := by
  intro x hx
  obtain rfl := List.mem_singleton.mp hx
  exact seedSnapshot_accLegal w b

theorem encodeGroups_accLegal {find : Snapshot → List Byte → Option Best} (hfind : SearchKeepsAcc find) (bas gsize : Nat) :
    ∀ (fuel : Nat) (ts : List Byte) (x : Branch), x.state.AccLegal → (encodeGroups find bas gsize fuel ts x).state.AccLegal
  | 0, _, _, h => h
  | _ + 1, [], _, h => h
  | fuel + 1, t :: ts, x, h => by
    refine encodeGroups_accLegal hfind bas gsize fuel _ _ ?_
    cases hy : find x.state ((t :: ts).take gsize) with
    | none => exact h
    | some y => exact hfind _ _ h y hy

theorem evolveGroups_storeLegal {find : Snapshot → List Byte → Option Best} (hfind : SearchKeepsAcc find) (bas gsize : Nat)
    (targets : List Byte) {live : List Branch} (h : StoreLegal live) : StoreLegal (evolveGroups find bas gsize targets live) := by
  intro y hy
  obtain ⟨x, hx, rfl⟩ := List.mem_map.mp hy
  exact encodeGroups_accLegal hfind bas gsize _ _ x (h x hx)

/-- A survivor is one of the sorted branches: a top one, or one drawn from the pool (R253, R254). -/
theorem survivors_subset (pick : Nat → Nat → Nat → Nat) (b nr p : Nat) (sorted : List Branch) :
    survivors pick b nr p sorted ⊆ sorted := by
  intro x hx
  unfold survivors at hx
  split at hx
  · exact hx
  · rcases List.mem_append.mp hx with htop | hdrawn
    · exact List.mem_of_mem_take htop
    · obtain ⟨t, -, ht⟩ := List.mem_filterMap.mp hdrawn
      exact List.mem_of_mem_drop (List.mem_of_getElem? ht)

theorem expand_storeLegal (tbl : Tables) {surv : List Branch} (t : Byte) (h : StoreLegal surv) : StoreLegal (expand tbl surv t) := by
  intro y hy
  obtain ⟨x, hx, hchild⟩ := List.mem_flatMap.mp hy
  obtain ⟨i, -, rfl⟩ := List.mem_map.mp hchild
  exact oracle_accLegal tbl _ (h x hx)

theorem trellis_storeLegal (tbl : Tables) (pick : Nat → Nat → Nat → Nat) (b nr : Nat) : ∀ (ts : List Byte) (p : Nat)
    {live : List Branch}, StoreLegal live → StoreLegal (trellis tbl pick b nr p ts live)
  | [], _, _, h => h
  | t :: ts, p, live, h => by
    refine trellis_storeLegal tbl pick b nr ts (p + 1) (expand_storeLegal tbl t ?_)
    intro x hx
    exact h x ((List.mem_insertionSort _).mp (survivors_subset pick b nr p _ hx))

/-- The winner is a live branch (R257). -/
theorem winner_mem {live : List Branch} {x : Branch} (h : winner live = some x) : x ∈ live := by
  refine List.foldlRecOn (motive := fun best => ∀ y ∈ best, y ∈ live) live betterBranch (by simp) ?_ x h
  intro best hbest z hz y hy
  obtain rfl | hold := betterBranch_eq_some hy
  · exact hz
  · exact hbest y hold

end Sys2Proof.Machine
end

section
/-! PROOF. What an operation's body may do to the state: one relation, `State.Works`, closed under composition; each shared operation
has it, hence each loop, hence each of the six bodies. -/

namespace Sys2Proof.Machine

/-- The second state comes from the first by work of an operation: the operands are as before (R40), bytes are appended to `OUT`
(R105), `ACC` stays legal (R31), `UNIT` and `PKN` stay below the number of codes of a byte (R25, R26), and the branch store is what it
was. -/
structure State.Works (s t : State) : Prop where
  operands : s.SameOperands t
  emits    : ∃ l, s.Emits t l
  accOk    : accLegal s.acc → accLegal t.acc
  unitOk   : s.unit < cpb s.w → t.unit < cpb s.w
  pknOk    : s.pkn < cpb s.w → t.pkn < cpb s.w
  store    : t.branches = s.branches

theorem State.Works.refl (s : State) : s.Works s := ⟨.refl s, ⟨[], .refl s⟩, id, id, id, rfl⟩

theorem State.Works.trans {s t u : State} (h : s.Works t) (k : t.Works u) : s.Works u := by
  obtain ⟨l, hl⟩ := h.emits
  obtain ⟨m, hm⟩ := k.emits
  have hw := h.operands.w
  exact ⟨h.operands.trans k.operands, ⟨l ++ m, hl.trans hm⟩, k.accOk ∘ h.accOk, fun hu => hw ▸ k.unitOk (hw ▸ h.unitOk hu),
    fun hn => hw ▸ k.pknOk (hw ▸ h.pknOk hn), k.store.trans h.store⟩

theorem State.Works.foldl {α : Type} {f : State → α → State} (hf : ∀ (s : State) (x : α), s.Works (f s x)) (l : List α) (s : State) :
    s.Works (l.foldl f s) := by
  induction l generalizing s with
  | nil => exact .refl s
  | cons x l ih => exact (hf s x).trans (ih _)

/-! The shared operations. -/

theorem State.works_emit (s : State) (v : Byte) : s.Works (s.emit v) :=
  ⟨s.sameOperands_emit v, ⟨[v], s.emits_emit v⟩, id, id, id, rfl⟩

theorem State.works_setDraw (s : State) (n : Nat) : s.Works (s.setDraw n) :=
  ⟨s.sameOperands_setDraw n, ⟨[], .of_same rfl rfl⟩, id, id, id, rfl⟩

theorem State.works_seed (s : State) (b : Byte) : s.Works (s.seed b) :=
  ⟨s.sameOperands_seed b, ⟨[], .of_same rfl rfl⟩, fun _ => .inl rfl, id, id, rfl⟩

/-- The advance inside a byte of at most `cpb(W)` codes (R25). -/
theorem State.works_advance (s : State) {n : Nat} (hn : n ≤ cpb s.w) : s.Works (s.advance n) where
  operands := s.sameOperands_advance n
  emits    := ⟨[], .of_same (s.advance_outMem n) (s.advance_outLen n)⟩
  accOk    := by simp
  unitOk h := by rw [State.advance_unit]; split <;> omega
  pknOk    := by simp
  store    := by simp

theorem State.works_setPos_zero (s : State) (p : Nat) : s.Works (s.setPos p 0) :=
  ⟨by constructor <;> rfl, ⟨[], .of_same rfl rfl⟩, id, Nat.zero_lt_of_lt, id, rfl⟩

theorem State.works_push (s : State) (c : Byte) : s.Works (s.push c) := by
  have hpkn : s.pkn < cpb s.w → (s.push c).pkn < cpb s.w := by
    intro h
    rw [push_pkn]
    split <;> omega
  by_cases h : s.pkn + 1 = cpb s.w
  · rw [push_full h] at hpkn ⊢
    exact ⟨by constructor <;> rfl, ⟨_, (s.emits_emit _).silent rfl rfl⟩, id, id, hpkn, rfl⟩
  · rw [push_part h] at hpkn ⊢
    exact ⟨by constructor <;> rfl, ⟨[], .of_same rfl rfl⟩, id, id, hpkn, rfl⟩

theorem State.works_flushLoop (n : Nat) (s : State) : s.Works (s.flushLoop n) := by
  induction n generalizing s with
  | zero => exact .refl s
  | succ n ih =>
    unfold State.flushLoop
    split
    · exact .refl s
    · exact (s.works_push _).trans (ih _)

theorem State.works_flush (s : State) : s.Works s.flush := State.works_flushLoop _ s

theorem State.works_setSnapshot (s : State) {x : Snapshot} (h : x.AccLegal) : s.Works (s.setSnapshot x) := by
  refine ⟨s.sameOperands_setSnapshot x, ⟨[], .of_same (s.setSnapshot_outMem x) (s.setSnapshot_outLen x)⟩, fun hs => ?_,
    by simp, by simp, by simp⟩
  cases x with
  | four d => exact h
  | two d => exact hs

/-- Work on another branch store is work, once the store is put back (R27). -/
theorem State.Works.restoreStore {s u : State} {l : List Branch} (h : (s.setBranches l).Works u) :
    s.Works (u.setBranches s.branches) := by
  obtain ⟨m, hm⟩ := h.emits
  have operands := ((s.sameOperands_setBranches l).trans h.operands).trans (u.sameOperands_setBranches s.branches)
  have emits : s.Emits u m := by simpa using (State.Emits.of_same (s := s) (t := s.setBranches l) rfl rfl).trans hm
  exact ⟨operands, ⟨m, emits.silent rfl rfl⟩, h.accOk, h.unitOk, h.pknOk, rfl⟩

/-! The bodies. -/

/-- Only the legal widths have codes (R4). -/
theorem width_of_cpb_pos {w : Nat} (h : 0 < cpb w) : w = 2 ∨ w = 4 := by
  unfold cpb at h
  split at h
  · exact .inr rfl
  · exact .inl rfl
  · exact absurd h (Nat.lt_irrefl 0)

/-- The codec that a width with codes selects has as many codes to a byte (R102, R4). -/
theorem cpb_codec {w : Nat} (h : 0 < cpb w) : (if w = 4 then cpb 4 else cpb 2) = cpb w := by
  obtain rfl | rfl := width_of_cpb_pos h <;> rfl

/-- The frame of one code of the stream, of a byte of as many codes as its codec has (R102). -/
theorem stepCode_frame (s : State) (c : Byte) : s.CodeFrame (if s.w = 4 then cpb 4 else cpb 2) (stepCode s c) := by
  unfold stepCode
  split
  · exact codeStep4_frame _ s
  · exact codeStep2_frame _ s

theorem stepCode_accLegal (s : State) (c : Byte) (h : accLegal s.acc) : accLegal (stepCode s c).acc := by
  unfold stepCode
  split
  · simpa [codeStep4] using step4_accLegal (d := { prev := s.prev, acc := s.acc }) _ h
  · simpa using h

theorem stepCode_works (s : State) (c : Byte) : s.Works (stepCode s c) := by
  have h := stepCode_frame s c
  refine ⟨h.operands, ⟨_, h.emits⟩, stepCode_accLegal s c, fun hu => ?_, fun hn => by rw [h.pkn]; exact hn, h.branches⟩
  rw [cpb_codec (Nat.zero_lt_of_lt hu)] at h
  rw [h.unit]
  split <;> omega

theorem stepByte_works (s : State) (x : Byte) : s.Works (stepByte s x) := .foldl stepCode_works _ s

theorem beginStream_works (s : State) (b : Byte) : s.Works (beginStream s b) :=
  ((s.works_seed b).trans (State.works_emit _ b)).trans (State.works_setPos_zero _ 1)

theorem emitUnit_works (s : State) (c : Byte) : s.Works (emitUnit s c) :=
  (s.works_emit c).trans (State.works_advance _ le_rfl)

/-- The state that a body leaves, however it ends. -/
def BodyResult.state : BodyResult → State
  | .ok t => t
  | .raise _ t => t

@[simp] theorem BodyResult.state_ok (t : State) : (BodyResult.ok t).state = t := rfl
@[simp] theorem BodyResult.state_raise (e : Err) (t : State) : (BodyResult.raise e t).state = t := rfl

theorem packLoop_works (l : List Byte) (s : State) (hw : 0 < cpb s.w) : s.Works (packLoop s l).state := by
  induction l generalizing s with
  | nil => exact s.works_flush
  | cons c l ih =>
    rw [packLoop]
    split
    · exact .refl s
    · have hstep := (s.works_push c).trans (State.works_advance _ (n := 1) (by rw [(s.works_push c).operands.w]; exact hw))
      exact hstep.trans (ih _ (by rw [hstep.operands.w]; exact hw))

theorem decodeBody_works (s : State) : s.Works (decodeBody s).state := by
  unfold decodeBody
  split
  · exact .refl s
  · next b xs _ => exact (beginStream_works s b).trans (.foldl stepByte_works xs _)

theorem unpackBody_works (s : State) : s.Works (unpackBody s).state :=
  .foldl (fun t x => .foldl emitUnit_works (unitsOf t.w x) t) s.inBytes s

/-- Committing the winner of a store of legal states is work on an empty store (R200, R250, R27). -/
theorem commitWinner_works {s : State} (l : List Branch) {x : Branch} (hs : s.branches = []) (hx : x.state.AccLegal) :
    s.Works (commitWinner (s.setBranches l) x) := by
  have h := (((State.Works.foldl State.works_push x.hist (s.setBranches l)).trans (State.works_flush _)).trans
    (State.works_setSnapshot _ hx)).restoreStore
  rw [hs] at h
  exact h

/-- An encoder's body works, when its store evolves among legal states. -/
theorem encodeBody_works {evolve : List Byte → List Branch → List Branch} {s : State} (hs : s.branches = [])
    (hevolve : ∀ ts live, StoreLegal live → StoreLegal (evolve ts live)) : s.Works (encodeBody evolve s).state := by
  unfold encodeBody
  split
  · exact .refl s
  · next b targets _ =>
    have hemit := s.works_emit b
    dsimp only
    split
    · refine hemit.trans ?_
      have h := (State.Works.refl ((s.emit b).setBranches (evolve targets [rootBranch s.w b]))).restoreStore
      rw [State.emit_branches, hs] at h
      exact h
    · next x hx =>
      exact hemit.trans (commitWinner_works _ hs (hevolve _ _ (rootBranch_storeLegal s.w b) x (winner_mem hx)))

/-- Every body works on the state that `START` leaves for it, at a legal width. -/
theorem body_works (op : Operation) (s₀ s : State) (hs : s.branches = []) (hw : s.w = 2 ∨ s.w = 4) :
    s.Works (op.body s₀ s).state := by
  cases op with
  | pack => exact packLoop_works _ s (cpb_pos hw)
  | unpack => exact unpackBody_works s
  | decode => exact decodeBody_works s
  | encx => exact encodeBody_works hs fun ts _ => evolveGroups_storeLegal (search_keepsAcc s.tbl (base s.w)) (base s.w) s.g ts
  | encs => exact encodeBody_works hs fun ts _ => evolveGroups_storeLegal searchSimd_keepsAcc (base s.w) s.g ts
  | enct => exact (s.works_setDraw _).trans (encodeBody_works hs fun ts _ => trellis_storeLegal s.tbl _ s.b s.nr ts 1)

end Sys2Proof.Machine
end

section
/-! PROOF. What an operation and a step can answer, each said once. -/

namespace Sys2Proof.Machine

/-- The first three checks leave the two legal widths (R101). -/
theorem width_of_checked {op : Operation} {s : State} (h : firstError (checks op s) = none) : s.w = 2 ∨ s.w = 4 := by
  have hw := firstError_none.mp h (s.w != 2 && s.w != 4, .invalidCodeWidth) (by simp [checks])
  simp only [Bool.and_eq_false_iff, bne_eq_false_iff_eq] at hw
  exact hw

/-- The end of an operation: an error raised from what its body had done by then, nothing if the error is one of `START` (R290); or
success from where its body ends (R100). -/
theorem exec_operation_next {op : Operation} {s t : State} (h : exec op.instr s = .next t) :
    (∃ e u, s.startInit.Works u ∧ t = u.raiseError e) ∨
    (∃ u, firstError (checks op s) = none ∧ op.body s s.startInit = .ok u ∧ s.startInit.Works u ∧ t = u.finishOk) := by
  rw [exec_operation] at h
  obtain ⟨-, -, rfl⟩ := start_eq_next.mp h
  unfold runOperation
  cases hc : firstError (checks op s) with
  | some e => exact .inl ⟨e, s.startInit, .refl _, rfl⟩
  | none =>
    have hworks := body_works op s s.startInit rfl (width_of_checked hc)
    cases hb : op.body s s.startInit with
    | ok u => rw [hb] at hworks; exact .inr ⟨u, rfl, rfl, hworks, rfl⟩
    | raise e u => rw [hb] at hworks; exact .inl ⟨e, u, hworks, rfl⟩

/-- The selectors that decode are those of the six operations (R76). -/
theorem decodeOp_eq_instr {sel : BitVec 3} {i : Instr} (h : decodeOp sel = .instr i) : ∃ op : Operation, i = op.instr := by
  unfold decodeOp at h
  split at h <;> cases h
  exacts [⟨.pack, rfl⟩, ⟨.unpack, rfl⟩, ⟨.decode, rfl⟩, ⟨.encx, rfl⟩, ⟨.encs, rfl⟩, ⟨.enct, rfl⟩]

/-- The code in a unit is a step of the codec that `W` selects (R83, R102). -/
theorem exec_of_decodeUnit {s : State} {x : Byte} {i : Instr} (h : decodeUnit s.w x s.unit = .instr i) :
    (s.w = 2 ∨ s.w = 4) ∧ exec i s = .next (stepCode s (unitField x s.unit s.w)) := by
  unfold decodeUnit at h
  split at h
  · next hw =>
    split at h <;> cases h
    exact ⟨.inr hw, by rw [exec_decode4, stepCode, if_pos hw, hw]⟩
  · next hw4 =>
    split at h
    · next hw =>
      split at h <;> cases h
      exact ⟨.inl hw, by rw [exec_decode2, stepCode, if_neg hw4, hw]⟩
    · split at h <;> cases h

/-- What one step of the block can answer: of an idle block, the operation that `OPSEL` selects or the error of a reserved selector;
of a running DECODE, one code or the end of the operation. -/
inductive StepTo (s : State) : State → Prop
  | operation {op : Operation} {t : State} (idle : s.done = true) (written : s.has.opsel = true)
      (selected : decodeOp s.opsel = .instr op.instr) (run : exec op.instr s = .next t) : StepTo s t
  | reserved {why : DecodeReject} (idle : s.done = true) (written : s.has.opsel = true)
      (selected : decodeOp s.opsel = .rejected why) : StepTo s (s.startInit.raiseError .protocolError)
  | code {x : Byte} (busy : s.done = false) (selected : s.opsel = 2) (width : s.w = 2 ∨ s.w = 4) (left : s.pos < s.inLen)
      (byte : s.inMem.read s.pos = some x) : StepTo s (stepCode s (unitField x s.unit s.w))
  | finish (busy : s.done = false) (selected : s.opsel = 2) (consumed : s.inLen ≤ s.pos) : StepTo s s.finishOk

theorem fetch_idle {s : State} (hd : s.done = true) : fetch s = fetchRequest s := if_pos hd

theorem fetch_decode {s : State} (hd : s.done = false) (ho : s.opsel = 2) : fetch s = fetchCode s := by
  rw [fetch, if_neg (by simp [hd]), if_pos ho]

theorem fetch_midOperation {s : State} (hd : s.done = false) (ho : s.opsel ≠ 2) : fetch s = .refused .midOperation := by
  rw [fetch, if_neg (by simp [hd]), if_neg ho]

theorem stepTo_of_idle {s t : State} (hd : s.done = true) (h : step s = .next t) : StepTo s t := by
  rw [step, fetch_idle hd, fetchRequest] at h
  cases ho : s.has.opsel with
  | false => simp [ho] at h
  | true =>
    cases hs : decodeOp s.opsel with
    | instr i =>
      obtain ⟨op, rfl⟩ := decodeOp_eq_instr hs
      exact .operation hd ho hs (by simpa [ho, hs] using h)
    | rejected why =>
      obtain rfl : s.startInit.raiseError .protocolError = t := by simpa [ho, hs] using h
      exact .reserved hd ho hs

theorem stepTo_of_running {s t : State} (hd : s.done = false) (h : step s = .next t) : StepTo s t := by
  by_cases ho : s.opsel = 2
  · rw [step, fetch_decode hd ho, fetchCode] at h
    by_cases hp : s.pos < s.inLen
    · cases hx : s.inMem.read s.pos with
      | none => simp [hp, hx] at h
      | some x =>
        cases hi : decodeUnit s.w x s.unit with
        | rejected why => simp [hp, hx, hi] at h
        | instr i =>
          obtain ⟨width, hexec⟩ := exec_of_decodeUnit hi
          obtain rfl : stepCode s (unitField x s.unit s.w) = t := by simpa [hp, hx, hi, hexec] using h
          exact .code hd ho width hp hx
    · obtain rfl : s.finishOk = t := by simpa [hp] using h
      exact .finish hd ho (by omega)
  · simp [step, fetch_midOperation hd ho] at h

theorem step_cases {s t : State} (h : step s = .next t) : StepTo s t := by
  cases hd : s.done with
  | true => exact stepTo_of_idle hd h
  | false => exact stepTo_of_running hd h

end Sys2Proof.Machine
end

section
/-! PROOF. The invariant of the block is kept by every step, every host write and every hardware reset (O39). -/

namespace Sys2Proof.Machine

theorem cpb_le_four (w : Nat) : cpb w ≤ 4 := by unfold cpb; split <;> decide

theorem errCode_le_five (e : Err) : (errCode e).toNat ≤ 5 := by cases e <;> decide

/-- The free `ACC` of an error is a legal one (R290, R31). -/
theorem accLegal_two_pow (k : Fin 4) : accLegal (BitVec.ofNat 4 (2 ^ k.val)) := by
  revert k; decide

/-- Appended bytes have values. -/
theorem State.Emits.outFull {s t : State} {l : List Byte} (h : s.Emits t l) (hs : ∀ a, a < s.outLen → (s.outMem.read a).isSome) :
    ∀ a, a < t.outLen → (t.outMem.read a).isSome := by
  intro a ha
  rw [h.len] at ha
  rw [h.bytes]
  split
  · rw [List.getElem?_eq_getElem (by omega)]; rfl
  · exact hs a (by omega)

/-- A raised error leaves a good state, whatever the operation had done by then. -/
theorem State.raiseError_inv {s u : State} (hs : s.Inv) (h : s.startInit.Works u) (e : Err) : (u.raiseError e).Inv where
  accOk     := accLegal_two_pow _
  inWf      := by simpa [h.operands.inMem] using hs.inWf
  outWf     := by obtain ⟨l, hl⟩ := h.emits; exact hl.wf hs.outWf
  outFull   := by simp
  errOk     := errCode_le_five e
  errNoOut  := by simp
  busyNoErr := by simp
  unitOk    := (Config.freeUnit u.free).isLt
  unitRun   := by simp
  seeded    := by simp
  pknOk     := (Config.freePkn u.free).isLt
  storeNone := rfl

/-- A successful operation leaves a good state. -/
theorem State.finishOk_inv_of_works {s u : State} (hs : s.Inv) (hw : s.w = 2 ∨ s.w = 4) (h : s.startInit.Works u) : u.finishOk.Inv where
  accOk     := h.accOk (.inl rfl)
  inWf      := by simpa [h.operands.inMem] using hs.inWf
  outWf     := by obtain ⟨l, hl⟩ := h.emits; exact hl.wf hs.outWf
  outFull   := by obtain ⟨l, hl⟩ := h.emits; exact hl.outFull (by simp)
  errOk     := Nat.zero_le 5
  errNoOut  := by simp
  busyNoErr := by simp
  unitOk    := Nat.lt_of_lt_of_le (h.unitOk (cpb_pos hw)) (cpb_le_four s.w)
  unitRun   := by simp
  seeded    := by simp
  pknOk     := Nat.lt_of_lt_of_le (h.pknOk (cpb_pos hw)) (cpb_le_four s.w)
  storeNone := h.store

theorem exec_operation_inv {op : Operation} {s t : State} (hs : s.Inv) (h : exec op.instr s = .next t) : t.Inv := by
  obtain ⟨e, u, hu, rfl⟩ | ⟨u, hc, -, hu, rfl⟩ := exec_operation_next h
  · exact State.raiseError_inv hs hu e
  · exact State.finishOk_inv_of_works hs (width_of_checked hc) hu

/-- One code of a running DECODE leaves a good state, which is still running. -/
theorem stepCode_inv {s : State} (hs : s.Inv) (hd : s.done = false) (hw : s.w = 2 ∨ s.w = 4) (c : Byte) : (stepCode s c).Inv := by
  have hf := stepCode_frame s c
  have h := stepCode_works s c
  have hunit := h.unitOk (hs.unitRun hd hw)
  have herr : (stepCode s c).err = errNone := hf.err.trans (hs.busyNoErr hd)
  exact {
    accOk     := h.accOk hs.accOk
    inWf      := by rw [h.operands.inMem]; exact hs.inWf
    outWf     := hf.emits.wf hs.outWf
    outFull   := hf.emits.outFull hs.outFull
    errOk     := by rw [hf.err]; exact hs.errOk
    errNoOut  := fun hne => absurd herr hne
    busyNoErr := fun _ => herr
    unitOk    := Nat.lt_of_lt_of_le hunit (cpb_le_four s.w)
    unitRun   := fun _ _ => by rw [h.operands.w]; exact hunit
    seeded    := fun _ => hf.prevSet
    pknOk     := by rw [hf.pkn]; exact hs.pknOk
    storeNone := h.store.trans hs.storeNone }

/-- The end of a running DECODE leaves a good state. -/
theorem State.finishOk_inv {s : State} (hs : s.Inv) : s.finishOk.Inv :=
  { hs with errOk := Nat.zero_le 5, errNoOut := by simp, busyNoErr := by simp, unitRun := by simp, seeded := by simp }

theorem step_inv {s t : State} (hs : s.Inv) (h : step s = .next t) : t.Inv := by
  cases step_cases h with
  | operation _ _ _ run => exact exec_operation_inv hs run
  | reserved _ _ _ => exact State.raiseError_inv hs (.refl _) _
  | code busy _ width _ _ => exact stepCode_inv hs busy width _
  | finish _ _ _ => exact State.finishOk_inv hs

/-- A host write of an idle block leaves a good state: only operands, `IN` and the draw change. -/
theorem applyHostWrite_inv {s : State} (hs : s.Inv) (hd : s.done = true) (m : HostWrite) : (applyHostWrite s m).Inv where
  accOk     := by simpa using hs.accOk
  inWf      := applyHostWrite_inMem_wf m hs.inWf
  outWf     := by simpa using hs.outWf
  outFull   := by simpa using hs.outFull
  errOk     := by simpa using hs.errOk
  errNoOut  := by simpa using hs.errNoOut
  busyNoErr := by simp [hd]
  unitOk    := by simpa using hs.unitOk
  unitRun   := by simp [hd]
  seeded    := by simp [hd]
  pknOk     := by simpa using hs.pknOk
  storeNone := by simpa using hs.storeNone

/-- A hardware reset leaves what the invariant reads as `State.reset` has it. -/
theorem State.hardwareReset_inv (s : State) : s.hardwareReset.Inv := { invariantHoldsAtReset with }

/-- Settles O39: a step is an operation, one code or the end of a DECODE, and each keeps the invariant. -/
theorem stepsKeepTheInvariant : Obligations.StepsKeepTheInvariant := by
  refine ⟨fun s t hs h => step_inv hs h, fun m s t hs h => ?_, fun s t _ h => ?_⟩
  · obtain ⟨hd, rfl⟩ := hostWrite_eq_next.mp h
    exact applyHostWrite_inv hs hd m
  · unfold hardwareReset at h
    split at h <;> cases h
    exact s.hardwareReset_inv

end Sys2Proof.Machine
end

section
/-! PROOF. What the host reads after an operation (O45): the output, and whether a decoder was stepped, so that `PREV` has a value. -/

namespace Sys2Proof.Machine

/-! What a successful request had: the input that it read. -/

theorem isSome_read_of_firstMissing {m : Memory} {l : List Nat} (h : firstMissing m (fun _ => false) l = none) :
    ∀ a ∈ l, (m.read a).isSome := by
  induction l with
  | nil => simp
  | cons a l ih =>
    rw [firstMissing] at h
    cases ha : m.read a with
    | none => simp [ha] at h
    | some x => simpa [ha] using ih (by simpa [ha] using h)

/-- An operation other than PACK that answers and whose checks pass had a legal request: it reads its whole input (R290, R322). -/
theorem requestOk_of_exec {op : Operation} {s t : State} (h : exec op.instr s = .next t) (hc : firstError (checks op s) = none)
    (hop : op ≠ .pack) : RequestOk op s := by
  rw [exec_operation] at h
  obtain ⟨hregs, hbyte, -⟩ := start_eq_next.mp h
  refine ⟨hregs, ?_, hc⟩
  have hpass : passes 7 op s = true := by simpa [passes, checks] using hc
  have hstop : stopsAt op s.w = fun _ => false := by cases op <;> trivial
  have hall := isSome_read_of_firstMissing (m := s.inMem) (l := List.range s.inLen) (by
    unfold missingByte at hbyte
    rw [hstop] at hbyte
    split at hbyte
    · assumption
    · simp [hpass] at hbyte)
  simpa [inputWritten] using hall

/-- An encoder or a DECODE with a legal request has a first byte to start from (R285). -/
theorem RequestOk.inBytes_ne_nil {op : Operation} {s : State} (h : RequestOk op s) (hop : 0 < leastInLen op) :
    s.inBytes ≠ [] := by
  obtain ⟨-, -, -, -, -, hlen⟩ := h.facts
  rw [← List.length_pos_iff, inBytes_length h.input]
  omega

/-! Whether `PREV` has a value after a body. -/

@[simp] theorem State.setSnapshot_prevSet (s : State) (x : Snapshot) : (s.setSnapshot x).prevSet = true := by cases x <;> rfl

@[simp] theorem State.push_prevSet (s : State) (c : Byte) : (s.push c).prevSet = s.prevSet := by
  unfold State.push
  dsimp only
  split <;> rfl

theorem State.flushLoop_prevSet (n : Nat) (s : State) : (s.flushLoop n).prevSet = s.prevSet := by
  induction n generalizing s with
  | zero => rfl
  | succ n ih =>
    unfold State.flushLoop
    split
    · rfl
    · rw [ih, State.push_prevSet]

theorem packLoop_prevSet (l : List Byte) (s : State) : (packLoop s l).state.prevSet = s.prevSet := by
  induction l generalizing s with
  | nil => exact State.flushLoop_prevSet _ s
  | cons c l ih =>
    rw [packLoop]
    split
    · rfl
    · rw [ih, State.advance_prevSet, State.push_prevSet]

theorem unpackBody_prevSet (s : State) : (unpackBody s).state.prevSet = s.prevSet := by
  obtain ⟨-, -, hprev, -⟩ := unpack_fold s.inBytes s
  exact hprev

theorem decodeBody_prevSet {s : State} (hw : s.w = 2 ∨ s.w = 4) (hin : s.inBytes ≠ []) :
    (decodeBody s).state.prevSet = true := by
  obtain ⟨b, xs, hbx⟩ := List.exists_cons_of_ne_nil hin
  obtain ⟨-, -, -, hprev, -⟩ := stepBytes_spec xs (beginStream s b) hw rfl
  simpa only [decodeBody, hbx, BodyResult.state_ok] using hprev rfl

theorem betterBranch_isSome (best : Option Branch) (x : Branch) : (betterBranch best x).isSome := by
  unfold betterBranch
  split
  · rfl
  · split <;> rfl

/-- A store that is not empty has a winner (R257). -/
theorem winner_isSome {live : List Branch} (h : live ≠ []) : (winner live).isSome := by
  obtain ⟨x, xs, rfl⟩ := List.exists_cons_of_ne_nil h
  exact List.foldlRecOn (motive := fun best => best.isSome) (b := some x) xs betterBranch rfl fun best _ y _ => betterBranch_isSome best y

/-- An encoder whose store is never left empty ends with the winner's state in the registers (R200, R250). -/
theorem encodeBody_prevSet {evolve : List Byte → List Branch → List Branch} {s : State} (hin : s.inBytes ≠ [])
    (hevolve : ∀ ts x, evolve ts [x] ≠ []) : (encodeBody evolve s).state.prevSet = true := by
  obtain ⟨b, targets, hbt⟩ := List.exists_cons_of_ne_nil hin
  obtain ⟨x, hx⟩ := Option.isSome_iff_exists.mp (winner_isSome (hevolve targets (rootBranch s.w b)))
  simp [encodeBody, hbt, hx, commitWinner]

theorem evolveGroups_ne_nil (find : Snapshot → List Byte → Option Best) (bas gsize : Nat) (ts : List Byte) (x : Branch) :
    evolveGroups find bas gsize ts [x] ≠ [] := by
  simp [evolveGroups]

theorem drawSlots_ne_nil (pick : Nat → Nat → Nat → Nat) (p : Nat) {nr : Nat} {pool : List Branch} (hnr : 0 < nr) (hpool : pool ≠ []) :
    drawSlots pick p nr pool ≠ [] := by
  have hlt : pick p 0 pool.length % pool.length < pool.length := Nat.mod_lt _ (List.length_pos_iff.mpr hpool)
  exact List.ne_nil_of_mem (List.mem_filterMap.mpr ⟨0, List.mem_range.mpr hnr, List.getElem?_eq_getElem hlt⟩)

/-- A beam keeps someone: a top branch, or a drawn one when every slot is drawn (R253, R254). -/
theorem survivors_ne_nil (pick : Nat → Nat → Nat → Nat) {b nr : Nat} (p : Nat) {sorted : List Branch} (hb : 0 < b) (hnr : nr ≤ b)
    (h : sorted ≠ []) : survivors pick b nr p sorted ≠ [] := by
  unfold survivors
  split
  · exact h
  · next hlen =>
    intro hnil
    obtain ⟨htop, hdrawn⟩ := List.append_eq_nil_iff.mp hnil
    have hall : nr = b := by
      rcases List.take_eq_nil_iff.mp htop with hz | hz
      · omega
      · exact absurd hz h
    exact drawSlots_ne_nil pick p (by omega) (by simpa using hlen) hdrawn

theorem expand_ne_nil (tbl : Tables) {surv : List Branch} (t : Byte) (h : surv ≠ []) : expand tbl surv t ≠ [] := by
  obtain ⟨x, xs, rfl⟩ := List.exists_cons_of_ne_nil h
  simp [expand]

theorem trellis_ne_nil (tbl : Tables) (pick : Nat → Nat → Nat → Nat) {b nr : Nat} (hb : 0 < b) (hnr : nr ≤ b) :
    ∀ (ts : List Byte) (p : Nat) {live : List Branch}, live ≠ [] → trellis tbl pick b nr p ts live ≠ []
  | [], _, _, h => h
  | t :: ts, p, live, h => by
    refine trellis_ne_nil tbl pick hb hnr ts (p + 1) (expand_ne_nil tbl t (survivors_ne_nil pick p hb hnr ?_))
    rw [← List.length_pos_iff, sortBranches, List.length_insertionSort]
    exact List.length_pos_iff.mpr h

/-- PACK and UNPACK step no decoder (R122, R125). -/
theorem body_prevSet_of_noDecoder {op : Operation} (s₀ s : State) (h : op = .pack ∨ op = .unpack) :
    (op.body s₀ s).state.prevSet = s.prevSet := by
  obtain rfl | rfl := h
  · exact packLoop_prevSet s.inBytes s
  · exact unpackBody_prevSet s

/-- Every other operation with a legal request leaves a value in `PREV` (R102, R200, R250). -/
theorem body_prevSet_of_decoder {op : Operation} {s : State} (hr : RequestOk op s) (h : ¬(op = .pack ∨ op = .unpack)) :
    (op.body s s.startInit).state.prevSet = true := by
  obtain ⟨-, hw, -, -, hbeam, -⟩ := hr.facts
  have hin : 0 < leastInLen op → s.startInit.inBytes ≠ [] := by
    rw [s.sameOperands_startInit.inBytes]; exact hr.inBytes_ne_nil
  cases op with
  | pack => simp at h
  | unpack => simp at h
  | decode => exact decodeBody_prevSet hw (hin (by decide))
  | encx => exact encodeBody_prevSet (hin (by decide)) fun ts x => evolveGroups_ne_nil _ _ _ ts x
  | encs => exact encodeBody_prevSet (hin (by decide)) fun ts x => evolveGroups_ne_nil _ _ _ ts x
  | enct =>
    obtain ⟨hb, hnr⟩ := hbeam rfl
    exact encodeBody_prevSet (s := s.startInit.setDraw _) (hin (by decide)) fun ts x => trellis_ne_nil _ _ hb hnr ts 1 (by simp)

/-! The host's reads. -/

theorem exec_operation_done {op : Operation} {s t : State} (h : exec op.instr s = .next t) : t.done = true := by
  obtain ⟨e, u, -, rfl⟩ | ⟨u, -, -, -, rfl⟩ := exec_operation_next h <;> rfl

theorem exec_operation_sameOperands {op : Operation} {s t : State} (h : exec op.instr s = .next t) : s.SameOperands t := by
  obtain ⟨e, u, hu, rfl⟩ | ⟨u, -, -, hu, rfl⟩ := exec_operation_next h
  · exact (s.sameOperands_startInit.trans hu.operands).trans (u.sameOperands_raiseError e)
  · exact (s.sameOperands_startInit.trans hu.operands).trans u.sameOperands_finishOk

theorem errCode_ne_zero (e : Err) : errCode e ≠ 0 := by cases e <;> decide

/-- An operation that ends without an error ended by its body's end (R100, R290). -/
theorem exec_operation_ok {op : Operation} {s t : State} (h : exec op.instr s = .next t) (he : t.err = 0) :
    ∃ u, firstError (checks op s) = none ∧ op.body s s.startInit = .ok u ∧ s.startInit.Works u ∧ t = u.finishOk := by
  obtain ⟨e, u, -, rfl⟩ | hok := exec_operation_next h
  · exact absurd he (errCode_ne_zero e)
  · exact hok

/-- An operation that ends with an error raised it (R290). -/
theorem exec_operation_raised {op : Operation} {s t : State} (h : exec op.instr s = .next t) (he : t.err ≠ 0) :
    ∃ e u, s.startInit.Works u ∧ t = u.raiseError e := by
  obtain hraise | ⟨u, -, -, -, rfl⟩ := exec_operation_next h
  · exact hraise
  · exact absurd rfl he

/-- The host reads the bytes that an operation appended, and none beyond them (R22, R323). -/
theorem hostReadOut_of_emits {s t : State} {l : List Byte} (h : s.Emits t l) (h0 : s.outLen = 0) (hd : t.done = true)
    (he : t.err = 0) (a : Nat) : hostReadOut t a = l[a]? := by
  have hlen : t.outLen = l.length := by rw [h.len, h0, Nat.zero_add]
  by_cases ha : a < l.length
  · simp [hostReadOut, hd, he, errNone, hlen, ha, h.bytes, h0]
  · simp [hostReadOut, hd, he, errNone, hlen, ha]

theorem hostReads_while_busy {s : State} (hd : s.done = false) : hostReadPrev s = none ∧ hostReadAcc s = none ∧
    hostReadScale s = none ∧ hostReadOutLen s = none ∧ ∀ a, hostReadOut s a = none := by
  simp [hostReadPrev, hostReadAcc, hostReadScale, hostReadOutLen, hostReadOut, hd]

theorem hostReads_after_error (u : State) (e : Err) : hostReadOutLen (u.raiseError e) = some 0 ∧
    (∀ a, hostReadOut (u.raiseError e) a = none) ∧ hostReadAcc (u.raiseError e) = none ∧
    hostReadScale (u.raiseError e) = none ∧ hostReadPrev (u.raiseError e) = none := by
  have he : (errCode e == errNone) = false := beq_false_of_ne (errCode_ne_zero e)
  simp [hostReadPrev, hostReadAcc, hostReadScale, hostReadOutLen, hostReadOut, he]

/-- `PREV` as the host reads it after a success: nothing if no decoder was stepped (R11, R329). -/
theorem hostReadPrev_after_success {op : Operation} {s u : State} (h : exec op.instr s = .next u.finishOk)
    (hc : firstError (checks op s) = none) (hb : op.body s s.startInit = .ok u) :
    hostReadPrev u.finishOk = if op = .pack ∨ op = .unpack then none else some u.finishOk.prev := by
  split
  · next hop =>
    have hprev := body_prevSet_of_noDecoder s s.startInit hop
    rw [hb] at hprev
    simpa [hostReadPrev] using hprev
  · next hop =>
    have hprev := body_prevSet_of_decoder (requestOk_of_exec h hc fun hp => hop (.inl hp)) hop
    rw [hb] at hprev
    simpa [hostReadPrev] using hprev

/-- Settles O45: by the two ends of an operation, and by what each body appends to `OUT` and leaves in `PREV`. -/
theorem hostReadsTheResults : Obligations.HostReadsTheResults := by
  refine ⟨fun _ => ⟨rfl, rfl, rfl⟩, fun _ => hostReads_while_busy, fun op s t h => ?_⟩
  refine ⟨exec_operation_done h, ?_, fun he => ?_, fun he => ?_⟩
  · have hops := exec_operation_sameOperands h
    rw [hostReadW, hostReadW, hops.has, hops.w]
  · obtain ⟨u, hc, hb, hu, rfl⟩ := exec_operation_ok h he
    obtain ⟨l, hl⟩ := hu.emits
    have hemits := hl.silent u.finishOk_outMem u.finishOk_outLen
    rw [hemits.outBytes rfl]
    exact ⟨congrArg some (hemits.len.trans (Nat.zero_add _)), hostReadOut_of_emits hemits rfl rfl rfl, rfl, rfl,
      hostReadPrev_after_success h hc hb⟩
  · obtain ⟨e, u, -, rfl⟩ := exec_operation_raised h he
    exact hostReads_after_error u e

end Sys2Proof.Machine
end

section
/-! PROOF. Decode of encode (O4): a packed byte bit by bit, and what storing a code in one unit does to each unit's field. -/

namespace Sys2Proof

/-! The bits of a unit (R41). -/

/-- The mask of the width has its `w` low bits set. -/
theorem getLsbD_widthMask (w : Nat) {j : Nat} (hj : j < 8) : (BitVec.ofNat 8 (2 ^ w - 1)).getLsbD j = decide (j < w) := by
  simp only [BitVec.getLsbD_ofNat, Nat.testBit_two_pow_sub_one, hj, decide_true, Bool.true_and]

/-- The bits of a unit are bits of its byte. -/
theorem unit_bit_lt {w j : Nat} (u : Nat) (hjw : j < w) (hj : j < 8) : 8 - w * (u + 1) + j < 8 := by
  have hwidth : w ≤ w * (u + 1) := Nat.le_mul_of_pos_right w u.succ_pos
  omega

/-- Bit `j` of a unit is the bit of the byte that stands `j` above the unit's lowest one. -/
theorem getLsbD_unitField (x : Byte) (u w : Nat) {j : Nat} (hj : j < 8) :
    (unitField x u w).getLsbD j = (decide (j < w) && x.getLsbD (8 - w * (u + 1) + j)) := by
  rw [unitField, BitVec.getLsbD_and, getLsbD_widthMask w hj, BitVec.getLsbD_ushiftRight, Bool.and_comm]

/-- A placed code has its bits from the unit's lowest one on, and zeros below. -/
theorem getLsbD_placeUnit (c : Byte) (u w : Nat) {k : Nat} (hk : k < 8) :
    (placeUnit c u w).getLsbD k = (!decide (k < 8 - w * (u + 1)) && c.getLsbD (k - (8 - w * (u + 1)))) := by
  rw [placeUnit, BitVec.getLsbD_shiftLeft]
  simp only [hk, decide_true, Bool.true_and]

/-- Bits of a code of the width are zero from bit `w` on. -/
theorem getLsbD_of_lt_two_pow {c : Byte} {w j : Nat} (hc : c.toNat < 2 ^ w) (hj : w ≤ j) : c.getLsbD j = false :=
  Nat.testBit_lt_two_pow (Nat.lt_of_lt_of_le hc (Nat.pow_le_pow_right (by decide) hj))

/-- Bit `k` of the byte after a store is the code's bit inside the unit, and the byte's own outside. -/
theorem getLsbD_encodeUnit {w u : Nat} (x : Byte) (i : Instr) (hc : (encode i).toByte.toNat < 2 ^ w)
    {k : Nat} (hk : k < 8) : (encodeUnit w x u i).getLsbD k =
      if 8 - w * (u + 1) ≤ k ∧ k < 8 - w * (u + 1) + w then (encode i).toByte.getLsbD (k - (8 - w * (u + 1)))
      else x.getLsbD k := by
  have hmask : k - (8 - w * (u + 1)) < 8 := by omega
  simp only [encodeUnit, BitVec.getLsbD_or, BitVec.getLsbD_and, BitVec.getLsbD_not, getLsbD_placeUnit _ u w hk,
    getLsbD_widthMask w hmask]
  by_cases hlow : k < 8 - w * (u + 1)
  · rw [if_neg fun h => Nat.not_le.mpr hlow h.1]
    simp [hk, hlow]
  · by_cases hhigh : k < 8 - w * (u + 1) + w
    · have hin : k - (8 - w * (u + 1)) < w := by omega
      rw [if_pos ⟨by omega, hhigh⟩]
      simp [hlow, hin]
    · have hout : ¬ k - (8 - w * (u + 1)) < w := by omega
      rw [if_neg fun h => hhigh h.2]
      simp [hk, hout, getLsbD_of_lt_two_pow hc (Nat.not_lt.mp hout)]

/-! The fields after a store. -/

theorem unitField_encodeUnit_same {w u : Nat} (x : Byte) (i : Instr) (hc : (encode i).toByte.toNat < 2 ^ w) :
    unitField (encodeUnit w x u i) u w = (encode i).toByte := by
  refine BitVec.eq_of_getLsbD_eq fun j hj => ?_
  rw [getLsbD_unitField _ u w hj]
  by_cases hjw : j < w
  · rw [getLsbD_encodeUnit x i hc (unit_bit_lt u hjw hj), if_pos (by omega), Nat.add_sub_cancel_left]
    simp [hjw]
  · rw [getLsbD_of_lt_two_pow hc (Nat.not_lt.mp hjw)]
    simp [hjw]

/-- Two units of a byte do not overlap: the later one ends where the earlier begins, or before. -/
theorem units_disjoint {w u v : Nat} (h : v < u) : w * (v + 1) + w ≤ w * (u + 1) := by
  rw [← Nat.mul_succ]
  exact Nat.mul_le_mul_left w (by omega)

theorem unitField_encodeUnit_ne {w u v : Nat} (x : Byte) (i : Instr) (hu : w * (u + 1) ≤ 8) (hv : w * (v + 1) ≤ 8)
    (hc : (encode i).toByte.toNat < 2 ^ w) (hne : v ≠ u) : unitField (encodeUnit w x u i) v w = unitField x v w := by
  refine BitVec.eq_of_getLsbD_eq fun j hj => ?_
  rw [getLsbD_unitField _ v w hj, getLsbD_unitField _ v w hj]
  by_cases hjw : j < w
  · have hout : ¬(8 - w * (u + 1) ≤ 8 - w * (v + 1) + j ∧ 8 - w * (v + 1) + j < 8 - w * (u + 1) + w) := by
      rcases Nat.lt_or_gt_of_ne hne with h | h
      · have := units_disjoint (w := w) h; omega
      · have := units_disjoint (w := w) h; omega
    rw [getLsbD_encodeUnit x i hc (unit_bit_lt v hjw hj), if_neg hout]
  · simp [hjw]

/-! What the decoder makes of the fields. -/

/-- The decoder looks at the unit's field only (R83). -/
theorem decodeUnit_congr {w u : Nat} {x y : Byte} (h : unitField x u w = unitField y u w) :
    decodeUnit w x u = decodeUnit w y u := by
  unfold decodeUnit
  split
  · next hw => subst hw; rw [h]
  · split
    · next hw => subst hw; rw [h]
    · rfl

/-- A code that is well formed under a width is one of that width's format, with its bits (R70, R83). -/
theorem encode_of_wellFormed {w : Nat} {i : Instr} (hi : i.format ≠ .op) (hw : i.wellFormed w = true) :
    (∃ n, w = 4 ∧ encode i = .n4 n ∧ decode4 n = i) ∨ ∃ c, w = 2 ∧ encode i = .n2 c ∧ decode2 c = i := by
  have hdec := decodeWord_encode i
  have hfmt := encode_format i
  cases he : encode i with
  | n4 n =>
    rw [he] at hdec hfmt
    exact .inl ⟨n, by simpa [Instr.wellFormed, ← hfmt, CodeWord.format] using hw, rfl, Decoded.instr.inj hdec⟩
  | n2 c =>
    rw [he] at hdec hfmt
    exact .inr ⟨c, by simpa [Instr.wellFormed, ← hfmt, CodeWord.format] using hw, rfl, Decoded.instr.inj hdec⟩
  | op sel => rw [he] at hfmt; exact absurd hfmt.symm hi

theorem encode_toByte_lt {w : Nat} {i : Instr} (hi : i.format ≠ .op) (hw : i.wellFormed w = true) :
    (encode i).toByte.toNat < 2 ^ w := by
  obtain ⟨n, rfl, he, -⟩ | ⟨c, rfl, he, -⟩ := encode_of_wellFormed hi hw
  · simpa [he, CodeWord.toByte] using Nat.lt_of_le_of_lt (Nat.mod_le _ _) n.isLt
  · simpa [he, CodeWord.toByte] using Nat.lt_of_le_of_lt (Nat.mod_le _ _) c.isLt

/-- A unit that holds a code's bits decodes to the code (R80, R83). -/
theorem decodeUnit_of_unitField {w u : Nat} {x : Byte} {i : Instr} (hi : i.format ≠ .op) (hw : i.wellFormed w = true)
    (hu : u < cpb w) (h : unitField x u w = (encode i).toByte) : decodeUnit w x u = .instr i := by
  obtain ⟨n, rfl, he, rfl⟩ | ⟨c, rfl, he, rfl⟩ := encode_of_wellFormed hi hw
  · simp [decodeUnit, hu, h, he, CodeWord.toByte]
  · simp [decodeUnit, hu, h, he, CodeWord.toByte]

/-- The units of a byte lie inside its 8 bits (R41). -/
theorem mul_unit_le {w u : Nat} (hu : u < cpb w) : w * (u + 1) ≤ 8 := by
  have hcpb : w * cpb w = 8 := by
    obtain rfl | rfl := Machine.width_of_cpb_pos (Nat.zero_lt_of_lt hu) <;> rfl
  exact hcpb ▸ Nat.mul_le_mul_left w hu

/-- Settles O4: a store sets the field of its own unit to the code and keeps the field of every other unit, and the decoder reads
fields only. -/
theorem encodedCodesDecodeInEveryUnit : Obligations.EncodedCodesDecodeInEveryUnit := by
  refine ⟨fun w x u i hi hw hu => ⟨?_, fun v hv hne => ?_⟩, decodeWord_encode⟩
  · exact decodeUnit_of_unitField hi hw hu (unitField_encodeUnit_same x i (encode_toByte_lt hi hw))
  · exact decodeUnit_congr (unitField_encodeUnit_ne x i (mul_unit_le hu) (mul_unit_le hv) (encode_toByte_lt hi hw) hne)

end Sys2Proof
end

section
/-! PROOF. No step writes an operand (O40), by the cases of a step. -/

namespace Sys2Proof.Machine

/-- Settles O40: an operation, one code and the end of a DECODE each leave the operands alone. -/
theorem stepsNeverWriteTheOperands : Obligations.StepsNeverWriteTheOperands := by
  intro s t h
  cases step_cases h with
  | operation _ _ _ run => exact exec_operation_sameOperands run
  | reserved _ _ _ => exact s.sameOperands_startInit.trans (State.sameOperands_raiseError _ _)
  | code _ _ _ _ _ => exact (stepCode_frame s _).operands
  | finish _ _ _ => exact s.sameOperands_finishOk

end Sys2Proof.Machine
end

section
/-! PROOF. An operation's results are a function of its operands, its input and its draw (O42): two runs of one body stay alike. -/

namespace Sys2Proof.Machine

/-! `START` reads operands only. -/

theorem State.SameOperands.symm {s t : State} (h : s.SameOperands t) : t.SameOperands s :=
  ⟨h.tbl.symm, h.cfg.symm, h.w.symm, h.opsel.symm, h.g.symm, h.b.symm, h.nr.symm, h.has.symm, h.inMem.symm, h.inLen.symm⟩

/-- Updates that leave the operands alone keep two states' operands the same. -/
theorem State.SameOperands.lift {s t s' t' : State} (h : s.SameOperands t) (hs : s.SameOperands s') (ht : t.SameOperands t') :
    s'.SameOperands t' :=
  hs.symm.trans (h.trans ht)

theorem checks_congr (op : Operation) {s t : State} (h : s.SameOperands t) : checks op t = checks op s := by
  simp only [checks, h.cfg, h.w, h.g, h.b, h.nr, h.inLen]

theorem passes_congr (n : Nat) (op : Operation) {s t : State} (h : s.SameOperands t) : passes n op t = passes n op s := by
  rw [passes, checks_congr op h, passes]

theorem unwritten_congr (op : Operation) {s t : State} (h : s.SameOperands t) : unwritten op t = unwritten op s := by
  simp only [unwritten, passes_congr _ op h, h.has]

theorem missingByte_congr (op : Operation) {s t : State} (h : s.SameOperands t) : missingByte op t = missingByte op s := by
  simp only [missingByte, passes_congr _ op h, h.inMem, h.w, h.inLen]

/-! Two blocks inside one operation. -/

/-- The two states agree on all that an operation reads or answers with: the operands, the bytes of `OUT` below `OUTLEN`, the packer
and the decoder registers, `PREV` where it has a value. The rest is what earlier operations left, or is written before it is read
(R54, R100). -/
structure State.Alike (s t : State) : Prop where
  operands : s.SameOperands t
  outLen   : t.outLen = s.outLen
  out      : ∀ a, a < s.outLen → t.outMem.read a = s.outMem.read a
  pkb      : t.pkb = s.pkb
  pkn      : t.pkn = s.pkn
  acc      : t.acc = s.acc
  scale    : t.scale = s.scale
  prevSet  : t.prevSet = s.prevSet
  prev     : s.prevSet = true → t.prev = s.prev

theorem State.Alike.symm {s t : State} (h : s.Alike t) : t.Alike s where
  operands := h.operands.symm
  outLen   := h.outLen.symm
  out a ha := (h.out a (h.outLen ▸ ha)).symm
  pkb      := h.pkb.symm
  pkn      := h.pkn.symm
  acc      := h.acc.symm
  scale    := h.scale.symm
  prevSet  := h.prevSet.symm
  prev hp  := (h.prev (h.prevSet ▸ hp)).symm

theorem State.Alike.trans {s t u : State} (h : s.Alike t) (k : t.Alike u) : s.Alike u where
  operands := h.operands.trans k.operands
  outLen   := k.outLen.trans h.outLen
  out a ha := (k.out a (by rw [h.outLen]; exact ha)).trans (h.out a ha)
  pkb      := k.pkb.trans h.pkb
  pkn      := k.pkn.trans h.pkn
  acc      := k.acc.trans h.acc
  scale    := k.scale.trans h.scale
  prevSet  := k.prevSet.trans h.prevSet
  prev hp  := (k.prev (by rw [h.prevSet]; exact hp)).trans (h.prev hp)

/-- `START` forgets the past (R100). -/
theorem State.SameOperands.startInit_alike {s t : State} (h : s.SameOperands t) : s.startInit.Alike t.startInit where
  operands := h.lift s.sameOperands_startInit t.sameOperands_startInit
  outLen   := rfl
  out      := by simp
  pkb      := rfl
  pkn      := rfl
  acc      := rfl
  scale    := rfl
  prevSet  := rfl
  prev     := by simp

theorem State.Alike.outBytes {s t : State} (h : s.Alike t) : t.outBytes = s.outBytes := by
  rw [State.outBytes, State.outBytes, h.outLen]
  exact List.filterMap_congr fun a ha => h.out a (List.mem_range.mp ha)

/-! Updates of what no operation reads back: a state before and after one is alike. -/

theorem State.alike_unread (s : State) (p u d : Nat) (l : List Branch) (e : BitVec 3) (b : Bool) :
    s.Alike { s with pos := p, unit := u, draw := d, branches := l, err := e, done := b } where
  operands := by constructor <;> rfl
  outLen   := rfl
  out _ _  := rfl
  pkb      := rfl
  pkn      := rfl
  acc      := rfl
  scale    := rfl
  prevSet  := rfl
  prev _   := rfl

theorem State.alike_setPos (s : State) (p u : Nat) : s.Alike (s.setPos p u) := s.alike_unread p u _ _ _ _
theorem State.alike_setDraw (s : State) (n : Nat) : s.Alike (s.setDraw n) := s.alike_unread _ _ n _ _ _
theorem State.alike_setBranches (s : State) (l : List Branch) : s.Alike (s.setBranches l) := s.alike_unread _ _ _ l _ _
theorem State.alike_finishOk (s : State) : s.Alike s.finishOk := s.alike_unread _ _ _ _ _ _

theorem State.alike_advance (s : State) (n : Nat) : s.Alike (s.advance n) := by
  unfold State.advance
  split <;> exact s.alike_setPos _ _

/-! Each shared operation keeps two states alike. -/

section
variable {s t : State} (h : s.Alike t)
include h

/-- Two alike states are alike after updates of what no operation reads back. -/
theorem State.Alike.unread {s' t' : State} (hs : s.Alike s') (ht : t.Alike t') : s'.Alike t' := hs.symm.trans (h.trans ht)

theorem State.Alike.setPos (p u q v : Nat) : (s.setPos p u).Alike (t.setPos q v) :=
  h.unread (s.alike_setPos p u) (t.alike_setPos q v)

theorem State.Alike.advance (n : Nat) : (s.advance n).Alike (t.advance n) := h.unread (s.alike_advance n) (t.alike_advance n)

theorem State.Alike.setDraw (m n : Nat) : (s.setDraw m).Alike (t.setDraw n) := h.unread (s.alike_setDraw m) (t.alike_setDraw n)

theorem State.Alike.setBranches (l : List Branch) : (s.setBranches l).Alike (t.setBranches l) :=
  h.unread (s.alike_setBranches l) (t.alike_setBranches l)

theorem State.Alike.finishOk : s.finishOk.Alike t.finishOk := h.unread s.alike_finishOk t.alike_finishOk

theorem State.Alike.emit (v : Byte) : (s.emit v).Alike (t.emit v) :=
  { h with
    operands := h.operands.lift (s.sameOperands_emit v) (t.sameOperands_emit v)
    outLen   := congrArg (· + 1) h.outLen
    out      := fun a ha => by
      rw [State.emit_outMem, State.emit_outMem, Memory.read_write, Memory.read_write, h.outLen]
      rw [State.emit_outLen] at ha
      split
      · rfl
      · exact h.out a (by omega) }

theorem State.Alike.setPacker (x : Byte) (n : Nat) : (s.setPacker x n).Alike (t.setPacker x n) :=
  { h with operands := h.operands.lift (by constructor <;> rfl) (by constructor <;> rfl), pkb := rfl, pkn := rfl }

/-- Writing one value of `PREV` and equal step sizes to the decoder registers. -/
theorem State.Alike.decoder (p : Byte) {a a' : BitVec 4} {c c' : Byte} (ha : a' = a) (hc : c' = c) :
    ({ s with prev := p, prevSet := true, acc := a, scale := c } : State).Alike
      { t with prev := p, prevSet := true, acc := a', scale := c' } :=
  { h with
    operands := h.operands.lift (by constructor <;> rfl) (by constructor <;> rfl)
    acc := ha, scale := hc, prevSet := rfl, prev := fun _ => rfl }

theorem State.Alike.seed (b : Byte) : (s.seed b).Alike (t.seed b) := h.decoder b rfl rfl

theorem State.Alike.setDec4 (d : Dec4) : (s.setDec4 d).Alike (t.setDec4 d) := h.decoder d.prev rfl h.scale

theorem State.Alike.setDec2 (d : Dec2) : (s.setDec2 d).Alike (t.setDec2 d) := h.decoder d.prev h.acc rfl

theorem State.Alike.setSnapshot (x : Snapshot) : (s.setSnapshot x).Alike (t.setSnapshot x) := by
  cases x with
  | four d => exact h.setDec4 d
  | two d => exact h.setDec2 d

/-! The packer (R121). -/

theorem State.Alike.push (c : Byte) : (s.push c).Alike (t.push c) := by
  by_cases hfull : s.pkn + 1 = cpb s.w
  · rw [push_full hfull, push_full (s := t) (by rw [h.pkn, h.operands.w]; exact hfull), h.pkb, h.operands.w]
    exact (h.emit _).setPacker 0 0
  · rw [push_part hfull, push_part (s := t) (by rw [h.pkn, h.operands.w]; exact hfull), h.pkb, h.pkn, h.operands.w]
    exact h.setPacker _ _

theorem State.Alike.pushAll (l : List Byte) : (s.pushAll l).Alike (t.pushAll l) :=
  List.foldl_rel h fun c _ _ _ hc => hc.push c

end

theorem State.Alike.flushLoop (n : Nat) {s t : State} (h : s.Alike t) : (s.flushLoop n).Alike (t.flushLoop n) := by
  induction n generalizing s t with
  | zero => exact h
  | succ n ih =>
    unfold State.flushLoop
    rw [h.pkn, h.operands.cfg, h.operands.w]
    split
    · exact h
    · exact ih (h.push _)

theorem State.Alike.flush {s t : State} (h : s.Alike t) : s.flush.Alike t.flush := by
  unfold State.flush
  rw [h.operands.w]
  exact h.flushLoop _

/-! The decoder (R102). -/

/-- Alike states whose decoder is seeded, so that a code may read `PREV` (R324). -/
structure State.SeededAlike (s t : State) : Prop where
  alike  : s.Alike t
  seeded : s.prevSet = true

theorem codeStep4_alike (n : BitVec 4) {s t : State} (h : s.SeededAlike t) : (codeStep4 n s).Alike (codeStep4 n t) := by
  unfold codeStep4
  rw [h.alike.prev h.seeded, h.alike.acc]
  exact ((h.alike.setDec4 _).emit _).advance _

theorem codeStep2_alike (c : BitVec 2) {s t : State} (h : s.SeededAlike t) : (codeStep2 c s).Alike (codeStep2 c t) := by
  unfold codeStep2
  rw [h.alike.prev h.seeded, h.alike.scale, h.alike.operands.tbl]
  exact ((h.alike.setDec2 _).emit _).advance _

theorem stepCode_alike (c : Byte) {s t : State} (h : s.SeededAlike t) : (stepCode s c).SeededAlike (stepCode t c) := by
  refine ⟨?_, (stepCode_frame s c).prevSet⟩
  unfold stepCode
  rw [h.alike.operands.w]
  split
  · exact codeStep4_alike _ h
  · exact codeStep2_alike _ h

theorem stepByte_alike (x : Byte) {s t : State} (h : s.SeededAlike t) : (stepByte s x).SeededAlike (stepByte t x) := by
  unfold stepByte
  rw [h.alike.operands.w]
  exact List.foldl_rel h fun c _ _ _ hc => stepCode_alike c hc

theorem beginStream_alike (b : Byte) {s t : State} (h : s.Alike t) : (beginStream s b).SeededAlike (beginStream t b) :=
  ⟨((h.seed b).emit b).setPos 1 0 1 0, rfl⟩

/-! The bodies. -/

/-- Two ends of a body: both at its end, in alike states, or both raising the same error. -/
inductive BodyResult.Alike : BodyResult → BodyResult → Prop
  | ok {s t : State} (h : s.Alike t) : Alike (.ok s) (.ok t)
  | raise (e : Err) (s t : State) : Alike (.raise e s) (.raise e t)

theorem packLoop_alike (l : List Byte) {s t : State} (h : s.Alike t) : (packLoop s l).Alike (packLoop t l) := by
  induction l generalizing s t with
  | nil => exact .ok h.flush
  | cons c l ih =>
    rw [packLoop, packLoop, h.operands.w]
    split
    · exact .raise _ s t
    · exact ih ((h.push c).advance 1)

theorem packBody_alike {s t : State} (h : s.Alike t) : (packBody s).Alike (packBody t) := by
  rw [packBody, packBody, h.operands.inBytes]
  exact packLoop_alike _ h

theorem emitUnit_alike (c : Byte) {s t : State} (h : s.Alike t) : (emitUnit s c).Alike (emitUnit t c) := by
  unfold emitUnit
  rw [h.operands.w]
  exact (h.emit c).advance _

theorem unpackBody_alike {s t : State} (h : s.Alike t) : (unpackBody s).Alike (unpackBody t) := by
  unfold unpackBody
  rw [h.operands.inBytes]
  refine .ok (List.foldl_rel h fun x _ s' t' h' => ?_)
  rw [h'.operands.w]
  exact List.foldl_rel h' fun c _ _ _ hc => emitUnit_alike c hc

theorem decodeBody_alike {s t : State} (h : s.Alike t) : (decodeBody s).Alike (decodeBody t) := by
  unfold decodeBody
  rw [h.operands.inBytes]
  split
  · exact .ok h
  · next b xs _ => exact .ok (List.foldl_rel (beginStream_alike b h) fun x _ _ _ hx => stepByte_alike x hx).alike

theorem commitWinner_alike (x : Branch) {s t : State} (h : s.Alike t) : (commitWinner s x).Alike (commitWinner t x) :=
  (((h.pushAll x.hist).flush).setSnapshot x.state).setBranches []

/-- An encoder's store begins with the branch of the first byte and evolves by itself, so two runs have one winner. -/
theorem encodeBody_alike (evolve : List Byte → List Branch → List Branch) {s t : State} (h : s.Alike t) :
    (encodeBody evolve s).Alike (encodeBody evolve t) := by
  unfold encodeBody
  rw [h.operands.inBytes, h.operands.w]
  split
  · exact .ok h
  · next b targets _ =>
    have hstore := ((h.emit b).setBranches [rootBranch s.w b]).setBranches (evolve targets [rootBranch s.w b])
    simp only [State.setBranches_branches]
    cases winner (evolve targets [rootBranch s.w b]) with
    | none => exact .ok (hstore.setBranches [])
    | some x => exact .ok (commitWinner_alike x hstore)

/-- One operation in two alike states, with one draw if it is ENCT (R54, R20). -/
theorem body_alike (op : Operation) {s₁ s₂ s t : State} (hdraw : op = .enct → s₂.draw = s₁.draw) (h : s.Alike t) :
    (op.body s₁ s).Alike (op.body s₂ t) := by
  cases op with
  | pack => exact packBody_alike h
  | unpack => exact unpackBody_alike h
  | decode => exact decodeBody_alike h
  | encx =>
    dsimp only [Operation.body, encxBody]
    rw [h.operands.tbl, h.operands.w, h.operands.g]
    exact encodeBody_alike _ h
  | encs =>
    dsimp only [Operation.body, encsBody]
    rw [h.operands.w, h.operands.g]
    exact encodeBody_alike _ h
  | enct =>
    dsimp only [Operation.body, enctBody]
    rw [hdraw rfl, h.operands.tbl, h.operands.b, h.operands.nr]
    exact encodeBody_alike _ (h.setDraw _ _)

/-! The results. -/

/-- The two states answer alike: `ERR`, `OUTLEN` and `OUT`, and after a success the decoder registers (R54, R290). -/
def State.SameResults (s t : State) : Prop :=
  t.err = s.err ∧ t.outLen = s.outLen ∧ t.outBytes = s.outBytes ∧
    (s.err = 0 → t.prevSet = s.prevSet ∧ t.acc = s.acc ∧ t.scale = s.scale ∧ (s.prevSet = true → t.prev = s.prev))

/-- After one error two blocks answer alike, whatever they held (R290, R291). -/
theorem raiseError_sameResults (e : Err) (s t : State) : (s.raiseError e).SameResults (t.raiseError e) :=
  ⟨rfl, rfl, rfl, fun he => absurd he (errCode_ne_zero e)⟩

theorem State.Alike.finishOk_sameResults {s t : State} (h : s.Alike t) : s.finishOk.SameResults t.finishOk :=
  ⟨rfl, h.outLen, h.finishOk.outBytes, fun _ => ⟨h.prevSet, h.acc, h.scale, h.prev⟩⟩

theorem endOperation_sameResults {r₁ r₂ : BodyResult} (h : r₁.Alike r₂) : (endOperation r₁).SameResults (endOperation r₂) := by
  cases h with
  | ok h => exact h.finishOk_sameResults
  | raise e s t => exact raiseError_sameResults e s t

theorem runOperation_sameResults (op : Operation) {s₁ s₂ : State} (h : s₁.SameOperands s₂)
    (hdraw : op = .enct → s₂.draw = s₁.draw) :
    (runOperation op (op.body s₁) s₁).SameResults (runOperation op (op.body s₂) s₂) := by
  unfold runOperation
  rw [checks_congr op h]
  split
  · next e _ => exact raiseError_sameResults e _ _
  · exact endOperation_sameResults (body_alike op hdraw h.startInit_alike)

/-- Settles O42: `START` reads operands only and forgets the past, and each body keeps two blocks alike. -/
theorem earlierOperationsDoNotMatter : Obligations.EarlierOperationsDoNotMatter := by
  intro op s₁ s₂ t₁ h hdraw hexec
  rw [exec_operation] at hexec
  obtain ⟨hregs, hbyte, rfl⟩ := start_eq_next.mp hexec
  refine ⟨_, ?_, runOperation_sameResults op h hdraw⟩
  rw [exec_operation]
  exact start_eq_next.mpr ⟨(unwritten_congr op h).trans hregs, (missingByte_congr op h).trans hbyte, rfl⟩

end Sys2Proof.Machine
end

section
/-! PROOF. The words of the spec (O3), and encode of decode (O5): the field of a unit is always the bits of a code, and storing in a
unit the field that stands there changes no bit. -/

namespace Sys2Proof

/-- Settles O3: closed words, which the decoders' tables and the unit order of R41 evaluate. -/
theorem specWordsDecodeToTheirInstructions : Obligations.SpecWordsDecodeToTheirInstructions :=
  ⟨rfl, rfl, rfl, rfl, rfl, rfl, rfl, rfl, rfl, by decide, by decide⟩

/-! Every field of a unit is a code (R81). -/

theorem encode_decode4 (n : BitVec 4) : encode (decode4 n) = .n4 n := by revert n; decide

theorem encode_decode2 (c : BitVec 2) : encode (decode2 c) = .n2 c := by revert c; decide

/-- A unit's field has nothing above the width, so the width's low bits are all of it. -/
theorem setWidth_setWidth_unitField (x : Byte) (u w : Nat) : ((unitField x u w).setWidth w).setWidth 8 = unitField x u w := by
  refine BitVec.eq_of_getLsbD_eq fun j hj => ?_
  simp only [BitVec.getLsbD_setWidth, hj, getLsbD_unitField x u w hj, decide_true, Bool.true_and, Bool.and_self_left]

/-- Under a legal width a unit's field is the bits of a well-formed code, whatever the byte (R71, R72, R81). -/
theorem exists_code_of_unitField {w : Nat} (x : Byte) (u : Nat) (hw : w = 2 ∨ w = 4) :
    ∃ i : Instr, i.format ≠ .op ∧ i.wellFormed w = true ∧ unitField x u w = (encode i).toByte := by
  obtain rfl | rfl := hw
  · refine ⟨decode2 ((unitField x u 2).setWidth 2), ?_, ?_, ?_⟩
    · simp [decode2_format]
    · simp [Instr.wellFormed, decode2_format]
    · rw [encode_decode2]; exact (setWidth_setWidth_unitField x u 2).symm
  · refine ⟨decode4 ((unitField x u 4).setWidth 4), ?_, ?_, ?_⟩
    · simp [decode4_format]
    · simp [Instr.wellFormed, decode4_format]
    · rw [encode_decode4]; exact (setWidth_setWidth_unitField x u 4).symm

/-! Storing the code that stands in the unit. -/

theorem encodeUnit_eq_self {w u : Nat} {x : Byte} {i : Instr} (hc : (encode i).toByte.toNat < 2 ^ w)
    (h : unitField x u w = (encode i).toByte) : encodeUnit w x u i = x := by
  refine BitVec.eq_of_getLsbD_eq fun k hk => ?_
  rw [getLsbD_encodeUnit x i hc hk]
  split
  · next hin =>
    obtain ⟨hlow, hhigh⟩ := hin
    have hbit : k - (8 - w * (u + 1)) < w := by omega
    rw [← h, getLsbD_unitField x u w (by omega), Nat.add_sub_cancel' hlow, decide_eq_true hbit, Bool.true_and]
  · rfl

/-- Settles O5: the field of the unit is the bits of a code, which the decoder finds there and a store leaves there. -/
theorem everyByteIsALegalCodeByte : Obligations.EveryByteIsALegalCodeByte := by
  intro w x u hw hu
  obtain ⟨i, hcode, hwf, hfield⟩ := exists_code_of_unitField x u hw
  exact ⟨i, decodeUnit_of_unitField hcode hwf hu hfield, hwf, encodeUnit_eq_self (encode_toByte_lt hcode hwf) hfield⟩

end Sys2Proof
end

section
/-! PROOF. A step runs the instruction that it fetches (O2), and what DECODE does with a legal request (O23). -/

namespace Sys2Proof.Machine

/-! The fetch of a step. -/

theorem step_of_fetch_instr {s : State} {i : Instr} (h : fetch s = .instr i) : step s = exec i s := by
  rw [step, h]

/-- A running DECODE steps by the code that stands in its unit (R25, R83). -/
theorem step_code {s : State} {x : Byte} {i : Instr} (hd : s.done = false) (ho : s.opsel = 2) (hp : s.pos < s.inLen)
    (hx : s.inMem.read s.pos = some x) (hi : decodeUnit s.w x s.unit = .instr i) : step s = exec i s := by
  refine step_of_fetch_instr ?_
  rw [fetch_decode hd ho]
  simp [fetchCode, hp, hx, hi]

/-- A running DECODE that has consumed its input ends (R102). -/
theorem step_endOfStream {s : State} (hd : s.done = false) (ho : s.opsel = 2) (hp : s.inLen ≤ s.pos) :
    step s = .next s.finishOk := by
  rw [step, fetch_decode hd ho, fetchCode, if_neg (Nat.not_lt.mpr hp)]

/-- Settles O2: the fetch of an idle block reads `OPSEL`, that of a running DECODE the unit at `(POS, UNIT)`. -/
theorem stepRunsTheDecodedInstruction : Obligations.StepRunsTheDecodedInstruction := by
  refine ⟨fun s i hd ho hi => step_of_fetch_instr ?_, fun s i x => step_code, fun s => step_endOfStream⟩
  rw [fetch_idle hd, fetchRequest, if_pos ho, hi]

/-! DECODE of a legal request. -/

theorem exec_of_requestOk {op : Operation} {s : State} (h : RequestOk op s) :
    exec op.instr s = .next (endOperation (op.body s s.startInit)) := by
  rw [exec_operation, start_of_requestOk _ h]

/-- DECODE of a legal request runs its head and every byte of the stream, and ends without an error (R102). -/
theorem exec_decode_of_requestOk {s : State} (h : RequestOk .decode s) : ∃ b xs, s.inBytes = b :: xs ∧
    exec .decode s = .next (xs.foldl stepByte (beginStream s.startInit b)).finishOk := by
  obtain ⟨b, xs, hbx⟩ := List.exists_cons_of_ne_nil (h.inBytes_ne_nil (by decide))
  have hbody : decodeBody s.startInit = .ok (xs.foldl stepByte (beginStream s.startInit b)) := by
    rw [decodeBody, s.sameOperands_startInit.inBytes, hbx]
  have hexec : exec .decode s = .next (endOperation (decodeBody s.startInit)) := exec_of_requestOk h
  exact ⟨b, xs, hbx, by rw [hexec, hbody, endOperation]⟩

/-- Settles O23: the head of DECODE emits the first byte and seeds the decoder, and its loop is a replay of the unpacked codes. -/
theorem decodeReplaysTheStream : Obligations.DecodeReplaysTheStream := by
  intro s h
  obtain ⟨b, xs, hbx, hexec⟩ := exec_decode_of_requestOk h
  obtain ⟨-, hw, -⟩ := h.facts
  have hlen : xs.length + 1 = s.inLen := by rw [← inBytes_length h.input, hbx, List.length_cons]
  obtain ⟨-, hemits, hsnap, hprev, -, -, hunit, hpos⟩ := stepBytes_spec xs (beginStream s.startInit b) hw rfl
  rw [begin_snapshot] at hemits hsnap
  have hout := ((beginStream_emits s.startInit b).trans hemits).silent (State.finishOk_outMem _) (State.finishOk_outLen _)
  refine ⟨_, b, xs, hbx, hexec, rfl, rfl, hout.outBytes rfl, ?_, hsnap, hprev rfl, ?_, hunit⟩
  · have houtLen := hout.len
    rw [List.length_append, List.length_singleton, replay_length, unpack_length] at houtLen
    rw [houtLen, ← hlen, Nat.add_sub_cancel, Nat.mul_comm xs.length]
    exact Nat.zero_add _
  · rw [State.finishOk_pos, hpos, ← hlen, Nat.add_comm]
    rfl

end Sys2Proof.Machine
end

section
/-! PROOF. DECODE as one transition is its codes executed one to a step (O24): a simulation whose measure is the list of codes that are
left of the stream, by induction on that list. -/

namespace Sys2Proof.Machine

/-! The input and its codes by address. -/

/-- The input bytes by their addresses, when each has a value (R21, R322). -/
theorem read_of_inBytes_getElem? {s : State} (h : inputWritten s = true) {a : Nat} {x : Byte} (hx : s.inBytes[a]? = some x) :
    s.inMem.read a = some x := by
  have hall : ∀ a ∈ List.range s.inLen, s.inMem.read a = some ((s.inMem.read a).getD 0) := by
    intro a ha
    obtain ⟨y, hy⟩ := Option.isSome_iff_exists.mp (List.all_eq_true.mp h a ha)
    rw [hy, Option.getD_some]
  rw [State.inBytes, List.filterMap_eq_map_iff_forall_eq_some.mpr hall] at hx
  obtain ⟨ha, hx⟩ := List.getElem?_eq_some_iff.mp hx
  rw [List.length_map, List.length_range] at ha
  rw [List.getElem_map, List.getElem_range] at hx
  rw [hall a (List.mem_range.mpr ha), hx]

/-- The codes of a stream by byte and unit (R41, R126). -/
theorem unpackBytes_getElem? {w u : Nat} (hu : u < cpb w) : ∀ (xs : List Byte) (p : Nat),
    (unpackBytes w xs)[p * cpb w + u]? = xs[p]?.map (unitField · u w)
  | [], p => by simp [unpackBytes]
  | x :: xs, 0 => by
    rw [unpackBytes, List.flatMap_cons, Nat.zero_mul, Nat.zero_add, List.getElem?_append_left (by rwa [unitsOf_length])]
    simp [unitsOf, hu]
  | x :: xs, p + 1 => by
    have hskip : (p + 1) * cpb w + u = (unitsOf w x).length + (p * cpb w + u) := by rw [unitsOf_length]; ring
    rw [unpackBytes, List.flatMap_cons, hskip, List.getElem?_append_right (Nat.le_add_right _ _), Nat.add_sub_cancel_left]
    exact unpackBytes_getElem? hu xs p

/-- The loop of DECODE over bytes is the loop over their codes (R102). -/
theorem foldl_stepByte (xs : List Byte) (s : State) : xs.foldl stepByte s = (unpackBytes s.w xs).foldl stepCode s := by
  induction xs generalizing s with
  | nil => rfl
  | cons x xs ih =>
    have hw : (stepByte s x).w = s.w := (stepByte_works s x).operands.w
    rw [List.foldl_cons, ih, hw, unpackBytes, unpackBytes, List.flatMap_cons, List.foldl_append]
    rfl

/-! The simulation. -/

/-- The block runs a DECODE of a legal width, over an input with values (R31, R102). -/
structure State.Decoding (s : State) : Prop where
  busy     : s.done = false
  selected : s.opsel = 2
  width    : s.w = 2 ∨ s.w = 4
  unitOk   : s.unit < cpb s.w
  input    : inputWritten s = true

/-- The codes from `(POS, UNIT)` to the end of `IN` (R25, R103). -/
def State.codesLeft (s : State) : List Byte :=
  (unpackBytes s.w s.inBytes).drop (s.pos * cpb s.w + s.unit)

theorem inputWritten_congr {s t : State} (h : s.SameOperands t) : inputWritten t = inputWritten s := by
  rw [inputWritten, inputWritten, h.inLen, h.inMem]

/-- A code leaves the DECODE running. -/
theorem stepCode_decoding {s : State} (h : s.Decoding) (c : Byte) : (stepCode s c).Decoding := by
  have hframe := stepCode_frame s c
  have hops := hframe.operands
  exact ⟨hframe.done.trans h.busy, hops.opsel.trans h.selected, by rw [hops.w]; exact h.width,
    by rw [hops.w]; exact (stepCode_works s c).unitOk h.unitOk, (inputWritten_congr hops).trans h.input⟩

/-- A code takes one code off the stream (R25). -/
theorem codesLeft_stepCode {s : State} (h : s.Decoding) (c : Byte) : (stepCode s c).codesLeft = s.codesLeft.tail := by
  have hframe := stepCode_frame s c
  rw [cpb_codec (cpb_pos h.width)] at hframe
  have hops := hframe.operands
  have hnext : (stepCode s c).pos * cpb s.w + (stepCode s c).unit = s.pos * cpb s.w + s.unit + 1 := by
    rw [hframe.unit, hframe.pos]
    have hunit := h.unitOk
    split
    · omega
    · rw [Nat.succ_mul]; omega
  rw [State.codesLeft, State.codesLeft, hops.w, hops.inBytes, hnext, List.tail_drop]

/-- At a code that is left the step of a running DECODE is that code (R102, R105). -/
theorem step_of_codesLeft {s : State} {c : Byte} {cs : List Byte} (h : s.Decoding) (hl : s.codesLeft = c :: cs) :
    step s = .next (stepCode s c) := by
  have hget := congrArg (·[0]?) hl
  simp only [State.codesLeft, List.getElem?_drop, Nat.add_zero, List.getElem?_cons_zero, unpackBytes_getElem? h.unitOk,
    Option.map_eq_some_iff] at hget
  obtain ⟨x, hx, rfl⟩ := hget
  have hp : s.pos < s.inLen := by rw [← inBytes_length h.input]; exact (List.getElem?_eq_some_iff.mp hx).1
  obtain ⟨i, hi, -⟩ := everyByteIsALegalCodeByte s.w x s.unit h.width h.unitOk
  obtain ⟨-, hexec⟩ := exec_of_decodeUnit hi
  rw [step_code h.busy h.selected hp (read_of_inBytes_getElem? h.input hx) hi, hexec]

/-- At the end of the stream the step of a running DECODE ends it (R102). -/
theorem step_of_codesLeft_nil {s : State} (h : s.Decoding) (hl : s.codesLeft = []) : step s = .next s.finishOk := by
  refine step_endOfStream h.busy h.selected ?_
  rw [State.codesLeft, List.drop_eq_nil_iff, unpack_length, inBytes_length h.input] at hl
  have hunit := h.unitOk
  by_contra hp
  have hbyte := Nat.mul_le_mul_right (cpb s.w) (Nat.not_le.mp hp)
  rw [Nat.succ_mul] at hbyte
  omega

/-- A running DECODE executes the codes that are left, one to a step, and ends with the step after the last (R102). -/
theorem run_of_codesLeft (cs : List Byte) {s : State} (h : s.Decoding) (hl : s.codesLeft = cs) :
    Host.Core.run core (cs.length + 1) s = .next (cs.foldl stepCode s).finishOk := by
  induction cs generalizing s with
  | nil =>
    have hstep : core.step s = .next s.finishOk := step_of_codesLeft_nil h hl
    simp [Host.Core.run, hstep]
  | cons c cs ih =>
    have hstep : core.step s = .next (stepCode s c) := step_of_codesLeft h hl
    simp only [List.length_cons, Host.Core.run, hstep]
    exact ih (stepCode_decoding h c) (by rw [codesLeft_stepCode h, hl, List.tail_cons])

/-- The head of DECODE leaves it running, with the codes of every byte but the first left. -/
theorem beginDecode_decoding {s : State} (h : RequestOk .decode s) (ho : s.opsel = 2) (b : Byte) :
    (beginStream s.startInit b).Decoding := by
  obtain ⟨-, hw, -⟩ := h.facts
  exact ⟨rfl, ho, hw, cpb_pos hw, h.input⟩

theorem codesLeft_beginStream {s : State} {b : Byte} {xs : List Byte} (hbx : s.inBytes = b :: xs) :
    (beginStream s.startInit b).codesLeft = unpackBytes s.w xs := by
  have hunit : 1 * cpb s.w + 0 = (unitsOf s.w b).length := by rw [unitsOf_length, Nat.one_mul, Nat.add_zero]
  have hbytes : (beginStream s.startInit b).inBytes = b :: xs :=
    (s.sameOperands_startInit.trans (beginStream_works s.startInit b).operands).inBytes.trans hbx
  rw [State.codesLeft, hbytes]
  exact hunit ▸ List.drop_left

/-- Settles O24: the atomic DECODE is the loop over its codes, which the steps run one by one. -/
theorem decodeEqualsItsCodesStepByStep : Obligations.DecodeEqualsItsCodesStepByStep := by
  intro s h ho
  obtain ⟨b, xs, hbx, hexec⟩ := exec_decode_of_requestOk h
  have hbegin : s.beginDecode = beginStream s.startInit b := by
    rw [State.beginDecode, s.sameOperands_startInit.inBytes, hbx]
  have hcount : cpb s.w * (s.inLen - 1) = (unpackBytes s.w xs).length := by
    rw [unpack_length, ← inBytes_length h.input, hbx, List.length_cons, Nat.add_sub_cancel, Nat.mul_comm]
  refine ⟨_, hexec, ?_⟩
  rw [hbegin, hcount, foldl_stepByte]
  exact run_of_codesLeft _ (beginDecode_decoding h ho b) (codesLeft_beginStream hbx)

end Sys2Proof.Machine
end

section
/-! PROOF. The packer on a whole sequence: pushes and a flush emit its packing (R120, R121), and unpacking it gives the padded codes
back (R127). -/

namespace Sys2Proof.Machine

theorem padCodes_lt {w : Nat} {pad : Byte} {codes : List Byte} (hpad : pad.toNat < base w) (hc : ∀ c ∈ codes, c.toNat < base w) :
    ∀ c ∈ padCodes w pad codes, c.toNat < base w := by
  intro c h
  obtain h | h := List.mem_append.mp h
  · exact hc c h
  · rw [List.eq_of_mem_replicate h]; exact hpad

/-- From an empty packer, pushing codes and flushing emits their packing and leaves the packer empty (R121). -/
theorem flush_pushAll_eq_emits {s : State} (hw : s.w = 2 ∨ s.w = 4) (hn : s.pkn = 0) (hb : s.pkb = 0) {codes : List Byte}
    (hc : ∀ c ∈ codes, c.toNat < base s.w) :
    (s.pushAll codes).flush = (packCodes s.w (padCode s.cfg s.w) codes).foldl State.emit s := by
  rw [flush_pushAll s hw hn, pushAll_whole s hw hn hb _ (padCodes_lt (padCode_lt s.cfg hw) hc) (padCodes_length hw _ _)]
  rfl

/-! Unpacking a packed sequence. -/

theorem unitsOf_pack4 {c d : Byte} (hc : c.toNat < 16) (hd : d.toNat < 16) : unitsOf 4 (c * 16 + d) = [c, d] := by
  have key : ∀ c d : Fin 16, unitsOf 4 (BitVec.ofNat 8 c.val * 16 + BitVec.ofNat 8 d.val)
      = [BitVec.ofNat 8 c.val, BitVec.ofNat 8 d.val] := by decide +kernel
  simpa using key ⟨_, hc⟩ ⟨_, hd⟩

theorem unitsOf_pack2 {c d e f : Byte} (hc : c.toNat < 4) (hd : d.toNat < 4) (he : e.toNat < 4) (hf : f.toNat < 4) :
    unitsOf 2 (c * 64 + d * 16 + e * 4 + f) = [c, d, e, f] := by
  have key : ∀ c d e f : Fin 4, unitsOf 2 (BitVec.ofNat 8 c.val * 64 + BitVec.ofNat 8 d.val * 16 + BitVec.ofNat 8 e.val * 4
      + BitVec.ofNat 8 f.val) = [BitVec.ofNat 8 c.val, BitVec.ofNat 8 d.val, BitVec.ofNat 8 e.val, BitVec.ofNat 8 f.val] := by
    decide +kernel
  simpa using key ⟨_, hc⟩ ⟨_, hd⟩ ⟨_, he⟩ ⟨_, hf⟩

theorem unpackBytes_packWhole4 : ∀ codes : List Byte, (∀ c ∈ codes, c.toNat < 16) → codes.length % 2 = 0 →
    unpackBytes 4 (packWhole4 codes) = codes
  | [], _, _ => rfl
  | [_], _, hl => absurd hl (by simp)
  | c0 :: c1 :: rest, hc, hl => by
    have hrest := unpackBytes_packWhole4 rest (fun c h => hc c (by simp [h])) (by simp only [List.length_cons] at hl; omega)
    rw [unpackBytes] at hrest
    rw [packWhole4, unpackBytes, List.flatMap_cons, hrest, unitsOf_pack4 (hc _ (by simp)) (hc _ (by simp))]
    rfl

theorem unpackBytes_packWhole2 : ∀ codes : List Byte, (∀ c ∈ codes, c.toNat < 4) → codes.length % 4 = 0 →
    unpackBytes 2 (packWhole2 codes) = codes
  | [], _, _ => rfl
  | [_], _, hl => absurd hl (by simp)
  | [_, _], _, hl => absurd hl (by simp)
  | [_, _, _], _, hl => absurd hl (by simp)
  | c0 :: c1 :: c2 :: c3 :: rest, hc, hl => by
    have hrest := unpackBytes_packWhole2 rest (fun c h => hc c (by simp [h])) (by simp only [List.length_cons] at hl; omega)
    rw [unpackBytes] at hrest
    rw [packWhole2, unpackBytes, List.flatMap_cons, hrest,
      unitsOf_pack2 (hc _ (by simp)) (hc _ (by simp)) (hc _ (by simp)) (hc _ (by simp))]
    rfl

/-- Unpacking a packed sequence gives its codes and the pad codes after them (R127). -/
theorem unpackBytes_packCodes {w : Nat} (hw : w = 2 ∨ w = 4) {pad : Byte} (hpad : pad.toNat < base w) {codes : List Byte}
    (hc : ∀ c ∈ codes, c.toNat < base w) : unpackBytes w (packCodes w pad codes) = padCodes w pad codes := by
  have hlt := padCodes_lt hpad hc
  have hlen := padCodes_length hw pad codes
  obtain rfl | rfl := hw
  · exact unpackBytes_packWhole2 _ hlt hlen
  · exact unpackBytes_packWhole4 _ hlt hlen

end Sys2Proof.Machine
end

section
/-! PROOF. Every branch that an encoder commits holds the decoder state which replaying its codes leaves (R107, R258 (a)), whatever search
finds it. -/

namespace Sys2Proof.Machine

/-! Replays. -/

/-- `n` codes of the width `w` whose replay from the state `root` ends in the state `st` (R48, R107). -/
structure Replays (tbl : Tables) (w : Nat) (root : Snapshot) (n : Nat) (codes : List Byte) (st : Snapshot) : Prop where
  length  : codes.length = n
  inRange : ∀ c ∈ codes, c.toNat < base w
  state   : st = replayEnd tbl root codes

theorem Replays.nil (tbl : Tables) (w : Nat) (root : Snapshot) : Replays tbl w root 0 [] root := ⟨rfl, by simp, rfl⟩

theorem replayEnd_append (tbl : Tables) (st : Snapshot) (l m : List Byte) :
    replayEnd tbl st (l ++ m) = replayEnd tbl (replayEnd tbl st l) m := List.foldl_append

theorem replay_append (tbl : Tables) : ∀ (l m : List Byte) (st : Snapshot),
    replay tbl st (l ++ m) = replay tbl st l ++ replay tbl (replayEnd tbl st l) m
  | [], _, _ => rfl
  | c :: l, m, st => congrArg ((oracle tbl st c).sample :: ·) (replay_append tbl l m (oracle tbl st c))

section
variable {tbl : Tables} {w n : Nat} {root st : Snapshot} {codes : List Byte}

/-- Two replays in a row are one. -/
theorem Replays.append (h : Replays tbl w root n codes st) {m : Nat} {more : List Byte} {fin : Snapshot}
    (k : Replays tbl w st m more fin) : Replays tbl w root (n + m) (codes ++ more) fin where
  length  := by rw [List.length_append, h.length, k.length]
  inRange c hc := (List.mem_append.mp hc).elim (h.inRange c) (k.inRange c)
  state   := by rw [replayEnd_append, ← h.state, k.state]

/-- One oracle step more. -/
theorem Replays.snoc (h : Replays tbl w root n codes st) {c : Byte} (hc : c.toNat < base w) :
    Replays tbl w root (n + 1) (codes ++ [c]) (oracle tbl st c) :=
  h.append ⟨rfl, by simpa using hc, rfl⟩

end

/-! The codec of a snapshot. -/

/-- The width of the codec whose state a snapshot is (R27). -/
def Snapshot.width : Snapshot → Nat
  | .four _ => 4
  | .two _ => 2

theorem oracle_width (tbl : Tables) (st : Snapshot) (c : Byte) : (oracle tbl st c).width = st.width := by cases st <;> rfl

theorem replayEnd_width (tbl : Tables) (codes : List Byte) (st : Snapshot) : (replayEnd tbl st codes).width = st.width := by
  induction codes generalizing st with
  | nil => rfl
  | cons c codes ih => exact (ih _).trans (oracle_width tbl st c)

theorem seedSnapshot_width {w : Nat} (hw : w = 2 ∨ w = 4) (b : Byte) : (seedSnapshot w b).width = w := by
  obtain rfl | rfl := hw <;> rfl

theorem Replays.width_eq {tbl : Tables} {w n : Nat} {root st : Snapshot} {codes : List Byte} (h : Replays tbl w root n codes st) :
    st.width = root.width := by
  rw [h.state, replayEnd_width]

/-! Combination indices (R203). -/

/-- The last digit of a combination is its index modulo the base, and the others are those of the quotient. -/
theorem comboCodes_succ (bas g k : Nat) :
    comboCodes true bas (g + 1) k = comboCodes true bas g (k / bas) ++ [BitVec.ofNat 8 (k % bas)] := by
  rw [comboCodes, comboCodes, List.range_succ, List.map_append]
  congr 1
  · refine List.map_congr_left fun j hj => ?_
    have hexp : g + 1 - 1 - j = g - 1 - j + 1 := by have := List.mem_range.mp hj; omega
    simp only [comboDigit, if_true, hexp]
    rw [Nat.pow_succ', Nat.div_div_eq_div_mul]
  · simp [comboDigit]

theorem comboIndex_concat (bas : Nat) (codes : List Byte) (c : Byte) :
    comboIndex true bas (codes ++ [c]) = comboIndex true bas codes * bas + c.toNat := by
  simp [comboIndex]

/-- The digits of the index of a code sequence are its codes (R203). -/
theorem comboCodes_comboIndex {bas : Nat} (codes : List Byte) (hc : ∀ c ∈ codes, c.toNat < bas) :
    comboCodes true bas codes.length (comboIndex true bas codes) = codes := by
  induction codes using List.reverseRecOn with
  | nil => rfl
  | append_singleton codes c ih =>
    have hlt : c.toNat < bas := hc c (by simp)
    have hdiv : (comboIndex true bas codes * bas + c.toNat) / bas = comboIndex true bas codes := by
      rw [Nat.mul_comm, Nat.mul_add_div (Nat.zero_lt_of_lt hlt), Nat.div_eq_of_lt hlt, Nat.add_zero]
    rw [List.length_append, List.length_singleton, comboCodes_succ, comboIndex_concat, hdiv, Nat.mul_comm, Nat.mul_add_mod,
      Nat.mod_eq_of_lt hlt, ofNat_toNat_byte, ih fun d hd => hc d (by simp [hd])]

/-! The two searches. -/

/-- A search whose finds are replays: from a state of the width, for a group with a target, it finds a combination and the state that
replaying it leaves (R204, R206). -/
def FindsReplays (tbl : Tables) (w : Nat) (find : Snapshot → List Byte → Option Best) : Prop :=
  ∀ st ts, st.width = w → ts ≠ [] →
    ∃ y, find st ts = some y ∧ Replays tbl w st ts.length (comboCodes true (base w) ts.length y.index) y.state

theorem search_findsReplays (tbl : Tables) {w : Nat} (hw : w = 2 ∨ w = 4) : FindsReplays tbl w (search tbl (base w)) := by
  intro st ts _ _
  obtain ⟨hpos, hle⟩ := base_facts hw
  obtain ⟨k, -, hfind, -⟩ := foldl_better (candidate tbl (base w) st ts) (base w ^ ts.length) (Nat.pow_pos hpos)
  rw [candidate_eq] at hfind
  exact ⟨_, hfind, comboCodes_length .., comboCodes_lt hpos hle _ _, rfl⟩

/-- Each lane of `STEP16` is the oracle step of its code (R231). -/
theorem lane_eq_oracle (tbl : Tables) {d : Dec4} {lane : Dec4 × Nat} (hl : lane ∈ (step16 d).zipIdx) :
    (BitVec.ofNat 8 lane.2 : Byte).toNat < base 4 ∧ oracle tbl (.four d) (BitVec.ofNat 8 lane.2) = .four lane.1 := by
  obtain ⟨hi, hlane⟩ := List.mem_zipIdx' hl
  have hlt : lane.2 < 16 := by simpa [step16] using hi
  refine ⟨?_, ?_⟩
  · simp [base]; omega
  · simp [hlane, step16, oracle]

/-- The best path so far, where there is one, is a replay of `n` codes. -/
def PathReplays (tbl : Tables) (root : Snapshot) (n : Nat) (best : Option BestPath) : Prop :=
  ∀ y ∈ best, Replays tbl 4 root n y.codes (.four y.state)

theorem dfs_pathReplays (tbl : Tables) (root : Snapshot) (ts : List Byte) : ∀ (n : Nat) (d : Dec4) (e : Nat) (pre : List Byte)
    (best : Option BestPath), Replays tbl 4 root n pre (.four d) → PathReplays tbl root (n + ts.length) best →
    PathReplays tbl root (n + ts.length) (dfs ts d e pre best) := by
  induction ts with
  | nil => exact fun _ _ _ _ _ _ hbest => hbest
  | cons t ts ih =>
    intro n d e pre best hd hbest
    have child : ∀ lane ∈ (step16 d).zipIdx,
        Replays tbl 4 root (n + 1) (pre ++ [BitVec.ofNat 8 lane.2]) (.four lane.1) := by
      intro lane hl
      obtain ⟨hcode, hstep⟩ := lane_eq_oracle tbl hl
      exact hstep ▸ hd.snoc hcode
    cases ts with
    | nil =>
      refine List.foldlRecOn (motive := PathReplays tbl root (n + 1)) _ _ hbest fun best hb lane hl y hy => ?_
      obtain rfl | hold := betterPath_eq_some hy
      · exact child lane hl
      · exact hb y hold
    | cons t' ts =>
      rw [List.length_cons, Nat.add_comm _ 1, ← Nat.add_assoc] at hbest ⊢
      exact List.foldlRecOn (motive := PathReplays tbl root (n + 1 + (t' :: ts).length)) _ _ hbest
        fun b hb lane hl => ih _ _ _ _ b (child lane hl) hb

/-- A fold whose every step has a result has one, when there is a step. -/
theorem foldl_isSome {α β : Type} {f : Option β → α → Option β} (hf : ∀ b x, (f b x).isSome) {l : List α} (hl : l ≠ [])
    (b : Option β) : (l.foldl f b).isSome := by
  rw [← List.dropLast_concat_getLast hl, List.foldl_append]
  exact hf _ _

theorem step16_zipIdx_ne_nil (d : Dec4) : (step16 d).zipIdx ≠ [] := by simp [step16]

theorem betterPath_isSome (best : Option BestPath) (x : BestPath) : (betterPath best x).isSome := by
  unfold betterPath
  split
  · rfl
  · split <;> rfl

/-- The depth-first search of a group with a target finds a path (R232). -/
theorem dfs_isSome (t : Byte) (ts : List Byte) (d : Dec4) (e : Nat) (pre : List Byte) (best : Option BestPath) :
    (dfs (t :: ts) d e pre best).isSome := by
  induction ts generalizing t d e pre best with
  | nil => exact foldl_isSome (fun _ _ => betterPath_isSome _ _) (step16_zipIdx_ne_nil d) best
  | cons t' ts ih => exact foldl_isSome (fun _ _ => ih ..) (step16_zipIdx_ne_nil d) best

theorem searchSimd_findsReplays (tbl : Tables) : FindsReplays tbl 4 searchSimd := by
  intro st ts hst hts
  cases st with
  | two d => simp [Snapshot.width] at hst
  | four d =>
    obtain ⟨t, ts, rfl⟩ := List.exists_cons_of_ne_nil hts
    obtain ⟨x, hx⟩ := Option.isSome_iff_exists.mp (dfs_isSome t ts d 0 [] none)
    have hpath := dfs_pathReplays tbl (.four d) (t :: ts) 0 d 0 [] none (.nil tbl 4 _) nofun x hx
    rw [Nat.zero_add] at hpath
    refine ⟨_, congrArg (Option.map _) hx, ?_⟩
    have hcodes := comboCodes_comboIndex x.codes hpath.inRange
    rw [hpath.length] at hcodes
    exact hcodes ▸ hpath

/-! The branch stores. -/

/-- Every branch of a store is a replay of `n` codes from the state `root`. -/
def StoreReplays (tbl : Tables) (w : Nat) (root : Snapshot) (n : Nat) (live : List Branch) : Prop :=
  ∀ x ∈ live, Replays tbl w root n x.hist x.state

theorem rootBranch_storeReplays (tbl : Tables) (w : Nat) (b : Byte) : StoreReplays tbl w (seedSnapshot w b) 0 [rootBranch w b] := by
  intro x hx
  obtain rfl := List.mem_singleton.mp hx
  exact .nil tbl w _

/-- The group loop appends a code for each target (R200, R202, R207). -/
theorem encodeGroups_replays {tbl : Tables} {w gsize : Nat} {find : Snapshot → List Byte → Option Best} (hfind : FindsReplays tbl w find)
    (hg : 0 < gsize) {root : Snapshot} (hroot : root.width = w) : ∀ (fuel : Nat) (ts : List Byte) (n : Nat) (x : Branch),
    ts.length ≤ fuel → Replays tbl w root n x.hist x.state →
    Replays tbl w root (n + ts.length) (encodeGroups find (base w) gsize fuel ts x).hist
      (encodeGroups find (base w) gsize fuel ts x).state
  | 0, [], _, _, _, h => h
  | _ + 1, [], _, _, _, h => h
  | fuel + 1, t :: ts, n, x, hlen, h => by
    obtain ⟨y, hy, hgroup⟩ := hfind x.state ((t :: ts).take gsize) (h.width_eq.trans hroot) (by simp; omega)
    have hcommit := h.append hgroup
    have hrest : (t :: ts).length = ((t :: ts).take gsize).length + ((t :: ts).drop gsize).length := by
      rw [← List.length_append, List.take_append_drop]
    rw [encodeGroups, hy, hrest, ← Nat.add_assoc]
    refine encodeGroups_replays hfind hg hroot fuel _ _ _ ?_ hcommit
    rw [List.length_drop]
    omega

theorem evolveGroups_storeReplays {tbl : Tables} {w gsize : Nat} {find : Snapshot → List Byte → Option Best}
    (hfind : FindsReplays tbl w find) (hg : 0 < gsize) {root : Snapshot} (hroot : root.width = w) (ts : List Byte) {live : List Branch}
    (h : StoreReplays tbl w root 0 live) : StoreReplays tbl w root ts.length (evolveGroups find (base w) gsize ts live) := by
  intro y hy
  obtain ⟨x, hx, rfl⟩ := List.mem_map.mp hy
  have hgroups := encodeGroups_replays hfind hg hroot ts.length ts 0 x le_rfl (h x hx)
  rwa [Nat.zero_add] at hgroups

theorem expand_storeReplays {tbl : Tables} {root : Snapshot} {n : Nat} {surv : List Branch} (t : Byte)
    (h : StoreReplays tbl 4 root n surv) : StoreReplays tbl 4 root (n + 1) (expand tbl surv t) := by
  intro y hy
  obtain ⟨x, hx, hchild⟩ := List.mem_flatMap.mp hy
  obtain ⟨i, hi, rfl⟩ := List.mem_map.mp hchild
  refine (h x hx).snoc ?_
  have := List.mem_range.mp hi
  simp [base]; omega

/-- The trellis appends a code for each target to every live branch, whatever it draws (R250, R256). -/
theorem trellis_storeReplays (tbl : Tables) (pick : Nat → Nat → Nat → Nat) (b nr : Nat) {root : Snapshot} : ∀ (ts : List Byte) (p n : Nat)
    {live : List Branch}, StoreReplays tbl 4 root n live → StoreReplays tbl 4 root (n + ts.length) (trellis tbl pick b nr p ts live)
  | [], _, _, _, h => h
  | t :: ts, p, n, live, h => by
    rw [List.length_cons, Nat.add_comm _ 1, ← Nat.add_assoc]
    refine trellis_storeReplays tbl pick b nr ts (p + 1) (n + 1) (expand_storeReplays t ?_)
    intro x hx
    exact h x ((List.mem_insertionSort _).mp (survivors_subset pick b nr p _ hx))

end Sys2Proof.Machine
end

section
/-! PROOF. What an encoder with a legal request does (R200, R230, R250), and that DECODE of its output gives the samples that it scored
(O37). -/

namespace Sys2Proof.Machine

/-! An encoder's body. -/

/-- An encoder whose store ends not empty and full of replays commits one of them. -/
theorem encodeBody_commits {evolve : List Byte → List Branch → List Branch} {s : State} {b : Byte} {targets : List Byte}
    (hin : s.inBytes = b :: targets) (hne : evolve targets [rootBranch s.w b] ≠ [])
    (hstore : StoreReplays s.tbl s.w (seedSnapshot s.w b) targets.length (evolve targets [rootBranch s.w b])) :
    ∃ l x, encodeBody evolve s = .ok (commitWinner ((s.emit b).setBranches l) x) ∧
      Replays s.tbl s.w (seedSnapshot s.w b) targets.length x.hist x.state := by
  obtain ⟨x, hx⟩ := Option.isSome_iff_exists.mp (winner_isSome hne)
  refine ⟨evolve targets [rootBranch s.w b], x, ?_, hstore x (winner_mem hx)⟩
  simp only [encodeBody, hin, State.setBranches_branches, hx]
  rfl

/-- What every encoder with a legal request does: emit the first byte and commit a branch that is a replay of a code for each target. Only
ENCT has a draw to use up (R200, R230, R250). -/
theorem encoder_commits {op : Operation} {s : State} (he : isEncoder op = true) (h : RequestOk op s) :
    ∃ b targets d l x, s.inBytes = b :: targets ∧ (op ≠ .enct → d = s.draw) ∧
      op.body s s.startInit = .ok (commitWinner (((s.startInit.setDraw d).emit b).setBranches l) x) ∧
      Replays s.tbl s.w (seedSnapshot s.w b) targets.length x.hist x.state := by
  obtain ⟨-, hw, honly, hgroup, hbeam, -⟩ := h.facts
  obtain ⟨b, targets, hbt⟩ := List.exists_cons_of_ne_nil (h.inBytes_ne_nil (by cases op <;> simp [isEncoder, leastInLen] at he ⊢))
  have hroot := rootBranch_storeReplays s.tbl s.w b
  have hwidth := seedSnapshot_width hw b
  cases op with
  | pack | unpack | decode => simp [isEncoder] at he
  | encx =>
    obtain ⟨l, x, hbody, hx⟩ := encodeBody_commits (s := s.startInit) hbt (evolveGroups_ne_nil _ _ _ targets _)
      (evolveGroups_storeReplays (search_findsReplays s.tbl hw) (hgroup rfl).1 hwidth targets hroot)
    exact ⟨b, targets, s.draw, l, x, hbt, fun _ => rfl, hbody, hx⟩
  | encs =>
    have hfind : FindsReplays s.tbl s.w searchSimd := honly rfl ▸ searchSimd_findsReplays s.tbl
    obtain ⟨l, x, hbody, hx⟩ := encodeBody_commits (s := s.startInit) hbt (evolveGroups_ne_nil _ _ _ targets _)
      (evolveGroups_storeReplays hfind (hgroup rfl).1 hwidth targets hroot)
    exact ⟨b, targets, s.draw, l, x, hbt, fun _ => rfl, hbody, hx⟩
  | enct =>
    obtain ⟨hb, hnr⟩ := hbeam rfl
    have hstore : StoreReplays s.tbl s.w (seedSnapshot s.w b) targets.length
        (trellis s.tbl (Config.pick s.draw) s.b s.nr 1 targets [rootBranch s.w b]) := by
      rw [honly rfl] at hroot ⊢
      rw [← Nat.zero_add targets.length]
      exact trellis_storeReplays s.tbl _ s.b s.nr targets 1 0 hroot
    obtain ⟨l, x, hbody, hx⟩ := encodeBody_commits (s := s.startInit.setDraw (s.draw + 1)) hbt
      (trellis_ne_nil _ _ hb hnr targets 1 (by simp)) hstore
    exact ⟨b, targets, s.draw + 1, l, x, hbt, fun hne => absurd rfl hne, hbody, hx⟩

/-! What a commit leaves. -/

/-- From an empty packer the commit of a branch emits the packing of its codes and leaves its state in the decoder registers (R200). -/
theorem commitWinner_eq {s : State} {x : Branch} (hw : s.w = 2 ∨ s.w = 4) (hn : s.pkn = 0) (hb : s.pkb = 0)
    (hc : ∀ c ∈ x.hist, c.toNat < base s.w) : commitWinner s x =
      (((packCodes s.w (padCode s.cfg s.w) x.hist).foldl State.emit s).setSnapshot x.state).setBranches [] := by
  rw [commitWinner, flush_pushAll_eq_emits hw hn hb hc]

theorem commitWinner_emits {s : State} {x : Branch} (hw : s.w = 2 ∨ s.w = 4) (hn : s.pkn = 0) (hb : s.pkb = 0)
    (hc : ∀ c ∈ x.hist, c.toNat < base s.w) : s.Emits (commitWinner s x) (packCodes s.w (padCode s.cfg s.w) x.hist) := by
  rw [commitWinner_eq hw hn hb hc]
  exact (emitAll_emits s _).silent (by simp) (by simp)

theorem commitWinner_snapshot {s : State} {x : Branch} {n : Nat} {b : Byte}
    (hx : Replays s.tbl s.w (seedSnapshot s.w b) n x.hist x.state) : (commitWinner s x).snapshot = x.state := by
  have hops := (s.sameOperands_pushAll x.hist).trans (State.sameOperands_flush _)
  exact setSnapshot_snapshot _ _ ⟨b, x.hist, by rw [hops.tbl, hops.w]; exact hx.state⟩

/-- What an encoder with a legal request leaves: the first byte, the packing of a code for each target, and the state that the replay of
those codes leaves (R200, R230, R250). -/
theorem exec_encoder_of_requestOk {op : Operation} {s : State} (he : isEncoder op = true) (h : RequestOk op s) :
    ∃ b targets codes t, s.inBytes = b :: targets ∧ exec op.instr s = .next t ∧ t.outBytes = b :: packCodes s.w (padCode s.cfg s.w) codes ∧
      Replays s.tbl s.w (seedSnapshot s.w b) targets.length codes t.snapshot := by
  obtain ⟨-, hw, -⟩ := h.facts
  obtain ⟨b, targets, d, l, x, hbt, -, hbody, hx⟩ := encoder_commits he h
  refine ⟨b, targets, x.hist, _, hbt, exec_of_requestOk h, ?_, ?_⟩
  · have hhead : s.startInit.Emits (((s.startInit.setDraw d).emit b).setBranches l) [b] :=
      ((State.Emits.of_same rfl rfl).trans (State.emits_emit _ b)).silent rfl rfl
    have hall := hhead.trans (commitWinner_emits (x := x) hw rfl rfl hx.inRange)
    rw [hbody]
    exact (hall.silent (State.finishOk_outMem _) (State.finishOk_outLen _)).outBytes rfl
  · have hsnap : (endOperation (op.body s s.startInit)).snapshot = x.state := by
      rw [hbody]
      exact commitWinner_snapshot hx
    rw [hsnap]
    exact hx

/-! DECODE of that output. -/

/-- DECODE of a byte and packed codes begins with the byte and the samples of the codes (R102, R107, R127). -/
theorem exec_decode_of_packed {u : State} {b pad : Byte} {codes : List Byte} (h : RequestOk .decode u) (hpad : pad.toNat < base u.w)
    (hc : ∀ c ∈ codes, c.toNat < base u.w) (hin : u.inBytes = b :: packCodes u.w pad codes) :
    ∃ v, exec .decode u = .next v ∧
      v.outBytes.take (codes.length + 1) = b :: replay u.tbl (seedSnapshot u.w b) codes := by
  obtain ⟨-, hw, -⟩ := h.facts
  obtain ⟨v, b', xs, hbx, hexec, -, -, hout, -⟩ := decodeReplaysTheStream u h
  obtain ⟨rfl, rfl⟩ := List.cons.inj (hin.symm.trans hbx)
  refine ⟨v, hexec, ?_⟩
  rw [hout, unpackBytes_packCodes hw hpad hc, padCodes, replay_append, List.take_succ_cons]
  exact congrArg _ (List.take_left' (replay_length ..))

/-- Settles O37: what an encoder commits is a replay, its output packs the codes of that replay, and DECODE replays them. -/
theorem decodeOfEncodedGivesTheScoredSamples : Obligations.DecodeOfEncodedGivesTheScoredSamples := by
  intro op s he h
  obtain ⟨-, hw, -⟩ := h.facts
  obtain ⟨b, targets, codes, t, hbt, hexec, hout, hreplay⟩ := exec_encoder_of_requestOk he h
  have hlen : codes.length + 1 = s.inLen := by rw [hreplay.length, ← inBytes_length h.input, hbt, List.length_cons]
  refine ⟨t, b, targets, codes, hbt, hexec, by omega, hout, hreplay.state, fun u hu huw htbl hin => ?_⟩
  rw [hout, ← huw] at hin
  rw [← hlen, ← huw, ← htbl]
  rw [← huw] at hw
  exact exec_decode_of_packed hu (padCode_lt s.cfg hw) (huw ▸ hreplay.inRange) hin

end Sys2Proof.Machine
end

section
/-! PROOF. The checks of `START` in their order (O14). -/

namespace Sys2Proof.Machine

/-- With every operand register written `START` reads no register without a value (R322). -/
theorem unwritten_of_all (op : Operation) {s : State} (h : s.has = Written.all) : unwritten op s = none := by
  simp [unwritten, h, Written.all]

/-- The seven checks are all the checks there are. -/
theorem passes_seven (op : Operation) (s : State) : passes 7 op s = (firstError (checks op s)).isNone := rfl

/-- No byte is read where a check fails (R290). -/
theorem missingByte_of_failed {op : Operation} {s : State} {e : Err} (h : firstError (checks op s) = some e) :
    missingByte op s = none := by
  unfold missingByte
  split
  · rfl
  · simp [passes_seven, h]

/-- A failing check raises its error over what `START` left (R101, R290). -/
theorem exec_of_failed {op : Operation} {s : State} {e : Err} (hregs : unwritten op s = none)
    (h : firstError (checks op s) = some e) : exec op.instr s = .next (s.startInit.raiseError e) := by
  rw [exec_operation, start_eq_next]
  refine ⟨hregs, missingByte_of_failed h, ?_⟩
  simp only [runOperation, h]

theorem encodeBody_ok (evolve : List Byte → List Branch → List Branch) (s : State) : ∃ u, encodeBody evolve s = .ok u := by
  unfold encodeBody
  split
  · exact ⟨_, rfl⟩
  · dsimp only
    split <;> exact ⟨_, rfl⟩

/-- Only PACK raises an error after its checks (R290). -/
theorem body_ok {op : Operation} (hop : op ≠ .pack) (s₀ s : State) : ∃ u, op.body s₀ s = .ok u := by
  cases op with
  | pack => exact absurd rfl hop
  | unpack => exact ⟨_, rfl⟩
  | decode =>
    dsimp only [Operation.body, decodeBody]
    split <;> exact ⟨_, rfl⟩
  | encx => exact encodeBody_ok (evolveGroups (search s.tbl (base s.w)) (base s.w) s.g) s
  | encs => exact encodeBody_ok (evolveGroups searchSimd (base s.w) s.g) s
  | enct => exact encodeBody_ok _ (s.setDraw (s.draw + 1))

/-- The checks as the conditions of R101, one after the other. -/
theorem firstError_checks (op : Operation) (s : State) : firstError (checks op s) =
    if (op = .encx ∧ s.cfg.hasEncx = false) ∨ (op = .encs ∧ s.cfg.hasEncs = false) ∨
        (op = .enct ∧ s.cfg.hasEnct = false) then some .protocolError
    else if s.w = 3 then some .unsupportedFormat
    else if s.w ≠ 2 ∧ s.w ≠ 4 then some .invalidCodeWidth
    else if (op = .encs ∨ op = .enct) ∧ s.w = 2 then some .protocolError
    else if ((op = .encx ∨ op = .encs) ∧ s.g = 0) ∨ (op = .enct ∧ (s.b = 0 ∨ s.b < s.nr)) then some .protocolError
    else if (op = .decode ∧ s.inLen < 2) ∨ ((op = .encx ∨ op = .encs ∨ op = .enct) ∧ s.inLen = 0) then some .emptyInput
    else if (op = .encx ∨ op = .encs) ∧ s.cfg.maxComb < (if s.w = 4 then 16 else 4) ^ s.g then some .groupSizeTooLarge
    else none := by
  have hengine : absentEngine s.cfg op = true ↔ (op = .encx ∧ s.cfg.hasEncx = false) ∨ (op = .encs ∧ s.cfg.hasEncs = false) ∨
      (op = .enct ∧ s.cfg.hasEnct = false) := by cases op <;> simp [absentEngine]
  have honly : onlyWidth4 op = true ↔ op = .encs ∨ op = .enct := by cases op <;> simp [onlyWidth4]
  have hgroup : usesGroup op = true ↔ op = .encx ∨ op = .encs := by cases op <;> simp [usesGroup]
  have hbeam : usesBeam op = true ↔ op = .enct := by cases op <;> simp [usesBeam]
  have hleast : s.inLen < leastInLen op ↔
      (op = .decode ∧ s.inLen < 2) ∨ ((op = .encx ∨ op = .encs ∨ op = .enct) ∧ s.inLen = 0) := by
    cases op <;> simp [leastInLen]
  refine if_congr hengine rfl (if_congr (by simp) rfl (ite_congr (by simp) (fun _ => rfl) fun hw => ?_))
  have hbase : base s.w = if s.w = 4 then 16 else 4 := by
    have hw : s.w = 2 ∨ s.w = 4 := by omega
    obtain hw | hw := hw <;> rw [hw] <;> rfl
  refine if_congr (by simp [honly]) rfl (if_congr (by simp [hgroup, hbeam]) rfl (if_congr (by simp [hleast]) rfl ?_))
  exact if_congr (by simp [hgroup, hbase]) rfl rfl

/-- The selectors 6 and 7 are no operation (R76, R82). -/
theorem decodeOp_reserved {sel : BitVec 3} (h : 6 ≤ sel.toNat) : decodeOp sel = .rejected .reservedSelector := by
  revert sel
  decide

/-- Settles O14: the first failing check decides before any byte is read, and after the checks only PACK raises an error. -/
theorem startChecksInTheirOrder : Obligations.StartChecksInTheirOrder := by
  refine ⟨fun op s hall => ?_, fun s hd ho hsel => ?_⟩
  · dsimp only
    rw [← firstError_checks]
    have hregs := unwritten_of_all op hall
    cases hc : firstError (checks op s) with
    | some e => exact ⟨_, exec_of_failed hregs hc, rfl, rfl, rfl, rfl⟩
    | none =>
      intro hin
      refine ⟨_, exec_of_requestOk ⟨hregs, hin, hc⟩, ?_, fun hop => ?_⟩
      · exact exec_operation_done (exec_of_requestOk ⟨hregs, hin, hc⟩)
      · obtain ⟨u, hu⟩ := body_ok hop s s.startInit
        rw [hu]
        rfl
  · rw [step, fetch_idle hd, fetchRequest, if_pos ho, decodeOp_reserved hsel]
    exact ⟨_, rfl, rfl, rfl, rfl, rfl⟩

end Sys2Proof.Machine
end

section
/-! PROOF. The frame of the operations (O41): what a body that ends without an error leaves aside, and what one that raises has done. -/

namespace Sys2Proof.Machine

/-! What a body leaves aside. -/

/-- The second state has the draw, the packer and the step size of the codec that is not in use of the first (R13, R12, R20, R26). -/
structure State.Spares (s t : State) : Prop where
  w     : t.w = s.w
  draw  : t.draw = s.draw
  pkb   : t.pkb = s.pkb
  pkn   : t.pkn = s.pkn
  scale : s.w = 4 → t.scale = s.scale
  acc   : s.w = 2 → t.acc = s.acc

theorem State.Spares.refl (s : State) : s.Spares s := ⟨rfl, rfl, rfl, rfl, fun _ => rfl, fun _ => rfl⟩

theorem State.Spares.trans {s t u : State} (h : s.Spares t) (k : t.Spares u) : s.Spares u where
  w        := k.w.trans h.w
  draw     := k.draw.trans h.draw
  pkb      := k.pkb.trans h.pkb
  pkn      := k.pkn.trans h.pkn
  scale hw := (k.scale (h.w.trans hw)).trans (h.scale hw)
  acc hw   := (k.acc (h.w.trans hw)).trans (h.acc hw)

theorem State.Spares.foldl {α : Type} {f : State → α → State} (hf : ∀ (s : State) (x : α), s.Spares (f s x)) (l : List α) (s : State) :
    s.Spares (l.foldl f s) := by
  induction l generalizing s with
  | nil => exact .refl s
  | cons x l ih => exact (hf s x).trans (ih _)

theorem State.spares_emit (s : State) (v : Byte) : s.Spares (s.emit v) := ⟨rfl, rfl, rfl, rfl, fun _ => rfl, fun _ => rfl⟩

theorem State.spares_setPos (s : State) (p u : Nat) : s.Spares (s.setPos p u) := ⟨rfl, rfl, rfl, rfl, fun _ => rfl, fun _ => rfl⟩

theorem State.spares_setBranches (s : State) (l : List Branch) : s.Spares (s.setBranches l) :=
  ⟨rfl, rfl, rfl, rfl, fun _ => rfl, fun _ => rfl⟩

theorem State.spares_advance (s : State) (n : Nat) : s.Spares (s.advance n) := by constructor <;> simp

/-- Seeding writes what `START` has left in both step sizes (R100, R140, R180). -/
theorem State.spares_seed {s : State} (hacc : s.acc = 1) (hscale : s.scale = 0) (b : Byte) : s.Spares (s.seed b) :=
  ⟨rfl, rfl, rfl, rfl, fun _ => hscale.symm, fun _ => hacc.symm⟩

/-- A snapshot of the codec in use does not write the other's step size. -/
theorem State.spares_setSnapshot {s : State} {x : Snapshot} (h : x.width = s.w) : s.Spares (s.setSnapshot x) := by
  cases x with
  | four d => exact ⟨rfl, rfl, rfl, rfl, fun _ => rfl, fun hw => absurd (show 4 = 2 from h.trans hw) (by decide)⟩
  | two d => exact ⟨rfl, rfl, rfl, rfl, fun hw => absurd (show 2 = 4 from h.trans hw) (by decide), fun _ => rfl⟩

theorem stepCode_spares (s : State) (c : Byte) : s.Spares (stepCode s c) := by
  have h := stepCode_frame s c
  refine ⟨h.operands.w, h.draw, h.pkb, h.pkn, fun hw => ?_, fun hw => ?_⟩
  · rw [stepCode, if_pos hw, codeStep4_scale]
  · rw [stepCode, if_neg (by omega), codeStep2_acc]

/-! The bodies that end without an error. -/

/-- PACK ends without an error only on codes of the width, which its packer empties (R122, R124). -/
theorem packLoop_spares {s u : State} {l : List Byte} (hw : s.w = 2 ∨ s.w = 4) (hn : s.pkn = 0) (hb : s.pkb = 0) (hu : s.unit = 0)
    (h : packLoop s l = .ok u) : s.Spares u := by
  have hc : ∀ c ∈ l, c.toNat < base s.w := by
    by_contra hout
    push Not at hout
    obtain ⟨t, ht⟩ := packLoop_raise l s hout
    rw [ht] at h
    cases h
  rw [packLoop_ok l s hu hc, flush_pushAll_eq_emits hw hn hb hc] at h
  obtain rfl := BodyResult.ok.inj h
  exact (State.Spares.foldl State.spares_emit _ s).trans (State.spares_setPos _ _ _)

theorem unpackBody_spares (s : State) : s.Spares (unpackBody s).state :=
  .foldl (fun t x => .foldl (fun u c => (u.spares_emit c).trans (State.spares_advance _ _)) (unitsOf t.w x) t) s.inBytes s

theorem decodeBody_spares {s : State} (hacc : s.acc = 1) (hscale : s.scale = 0) : s.Spares (decodeBody s).state := by
  unfold decodeBody
  split
  · exact .refl s
  · next b xs _ =>
    have hbegin := ((State.spares_seed hacc hscale b).trans (State.spares_emit _ b)).trans (State.spares_setPos _ 1 0)
    exact hbegin.trans (.foldl (fun t x => .foldl stepCode_spares (unitsOf t.w x) t) xs _)

theorem commitWinner_spares {s : State} {x : Branch} (hw : s.w = 2 ∨ s.w = 4) (hn : s.pkn = 0) (hb : s.pkb = 0)
    (hc : ∀ c ∈ x.hist, c.toNat < base s.w) (hx : x.state.width = s.w) : s.Spares (commitWinner s x) := by
  have hemits := State.Spares.foldl State.spares_emit (packCodes s.w (padCode s.cfg s.w) x.hist) s
  rw [commitWinner_eq hw hn hb hc]
  exact (hemits.trans (State.spares_setSnapshot (hx.trans hemits.w.symm))).trans (State.spares_setBranches _ [])

/-- A body that ends without an error leaves aside what `START` set, but for the draw that ENCT uses up. -/
theorem body_spares {op : Operation} {s t u : State} (h : exec op.instr s = .next t) (hc : firstError (checks op s) = none)
    (hb : op.body s s.startInit = .ok u) : ∃ d, (op ≠ .enct → d = s.draw) ∧ (s.startInit.setDraw d).Spares u := by
  have hw := width_of_checked hc
  have encoder : isEncoder op = true → op ≠ .pack → ∃ d, (op ≠ .enct → d = s.draw) ∧ (s.startInit.setDraw d).Spares u := by
    intro he hop
    obtain ⟨b, targets, d, l, x, -, hd, hbody, hx⟩ := encoder_commits he (requestOk_of_exec h hc hop)
    obtain rfl := BodyResult.ok.inj (hb.symm.trans hbody)
    have hhead := (State.spares_emit (s.startInit.setDraw d) b).trans (State.spares_setBranches _ l)
    exact ⟨d, hd, hhead.trans (commitWinner_spares hw rfl rfl hx.inRange (hx.width_eq.trans (seedSnapshot_width hw b)))⟩
  cases op with
  | pack => exact ⟨s.draw, fun _ => rfl, packLoop_spares hw rfl rfl rfl hb⟩
  | unpack =>
    have hspares := unpackBody_spares s.startInit
    rw [show unpackBody s.startInit = .ok u from hb] at hspares
    exact ⟨s.draw, fun _ => rfl, hspares⟩
  | decode =>
    have hspares := decodeBody_spares (s := s.startInit) rfl rfl
    rw [show decodeBody s.startInit = .ok u from hb] at hspares
    exact ⟨s.draw, fun _ => rfl, hspares⟩
  | encx | encs | enct => exact encoder rfl nofun

/-! The operations that raise. -/

theorem push_outLen_le (s : State) (c : Byte) : (s.push c).outLen ≤ s.outLen + 1 := by
  by_cases h : s.pkn + 1 = cpb s.w
  · rw [push_full h]; exact le_rfl
  · rw [push_part h]; exact Nat.le_succ _

theorem push_draw (s : State) (c : Byte) : (s.push c).draw = s.draw := by
  by_cases h : s.pkn + 1 = cpb s.w
  · rw [push_full h]; rfl
  · rw [push_part h]; rfl

/-- A PACK that raises has emitted at most a byte for each code that it pushed, and used no draw (R121, R124). -/
theorem packLoop_raised {s u : State} {e : Err} {l : List Byte} (h : packLoop s l = .raise e u) :
    u.outLen ≤ s.outLen + l.length ∧ u.draw = s.draw := by
  induction l generalizing s with
  | nil => cases h
  | cons c l ih =>
    rw [packLoop] at h
    split at h
    · cases h
      exact ⟨Nat.le_add_right _ _, rfl⟩
    · obtain ⟨hlen, hdraw⟩ := ih h
      rw [State.advance_outLen] at hlen
      rw [State.advance_draw, push_draw] at hdraw
      have hpush := push_outLen_le s c
      exact ⟨by rw [List.length_cons]; omega, hdraw⟩

/-- An operation that ends with an error raised it at `START`, or is a PACK that raised it in its body (R124, R290). -/
theorem exec_operation_error {op : Operation} {s t : State} (h : exec op.instr s = .next t) (he : t.err ≠ 0) :
    (∃ e, t = s.startInit.raiseError e) ∨
    (∃ e u, op = .pack ∧ packBody s.startInit = .raise e u ∧ s.startInit.Works u ∧ t = u.raiseError e) := by
  rw [exec_operation] at h
  obtain ⟨-, -, rfl⟩ := start_eq_next.mp h
  unfold runOperation at he ⊢
  cases hc : firstError (checks op s) with
  | some e => exact .inl ⟨e, rfl⟩
  | none =>
    have hworks := body_works op s s.startInit rfl (width_of_checked hc)
    rw [hc] at he
    cases hb : op.body s s.startInit with
    | ok u => rw [hb] at he; exact absurd rfl he
    | raise e u =>
      have hop : op = .pack := by
        by_contra hne
        obtain ⟨v, hv⟩ := body_ok hne s s.startInit
        rw [hv] at hb
        cases hb
      subst hop
      rw [hb] at hworks
      exact .inr ⟨e, u, rfl, hb, hworks, rfl⟩

/-! The frame. -/

/-- Bytes above what was appended are as they were. -/
theorem State.Works.read_of_le {s t : State} (h : s.Works t) {a : Nat} (ha : t.outLen ≤ a) : t.outMem.read a = s.outMem.read a := by
  obtain ⟨l, hl⟩ := h.emits
  have hlen := hl.len
  rw [hl.bytes, if_neg (by omega)]

theorem inBytes_length_le (s : State) : s.inBytes.length ≤ s.inLen :=
  (List.length_filterMap_le _ _).trans_eq List.length_range

/-- The frame of an operation that ends without an error. -/
theorem frame_of_ok {op : Operation} {s t : State} (h : exec op.instr s = .next t) (he : t.err = 0) :
    (∀ a, t.outLen ≤ a → t.outMem.read a = s.outMem.read a) ∧ t.pkb = 0 ∧ t.pkn = 0 ∧ (s.w = 4 → t.scale = 0) ∧
    (s.w = 2 → t.acc = 1) ∧ (op ≠ .enct → t.draw = s.draw) ∧ t.branches = [] := by
  obtain ⟨u, hc, hb, hu, rfl⟩ := exec_operation_ok h he
  obtain ⟨d, hd, hspares⟩ := body_spares h hc hb
  exact ⟨fun a ha => hu.read_of_le ha, hspares.pkb, hspares.pkn, hspares.scale, hspares.acc,
    fun hop => hspares.draw.trans (hd hop), hu.store⟩

/-- The frame of an operation that ends with an error: only a PACK may have written, a byte at most for each of its codes. -/
theorem frame_of_error {op : Operation} {s t : State} (h : exec op.instr s = .next t) (he : t.err ≠ 0) :
    (∀ a, op ≠ .pack ∨ s.inLen ≤ a → t.outMem.read a = s.outMem.read a) ∧ t.draw = s.draw ∧ t.branches = [] := by
  obtain ⟨e, rfl⟩ | ⟨e, u, rfl, hb, hu, rfl⟩ := exec_operation_error h he
  · exact ⟨fun _ _ => rfl, rfl, rfl⟩
  · obtain ⟨hlen, hdraw⟩ := packLoop_raised hb
    refine ⟨fun a ha => hu.read_of_le ?_, hdraw, rfl⟩
    have hin : s.inLen ≤ a := ha.resolve_left fun hne => hne rfl
    calc u.outLen ≤ 0 + s.startInit.inBytes.length := hlen
      _ ≤ s.inLen := by rw [Nat.zero_add]; exact inBytes_length_le s.startInit
      _ ≤ a := hin

/-- Settles O41, by the two ends of an operation. -/
theorem operationsLeaveEverythingElse : Obligations.OperationsLeaveEverythingElse := by
  intro op s t h
  by_cases he : t.err = 0
  · obtain ⟨hout, hpkb, hpkn, hscale, hacc, hdraw, hstore⟩ := frame_of_ok h he
    exact ⟨fun _ => ⟨hout, hpkb, hpkn, hscale, hacc⟩, fun hne => absurd he hne, fun hne => absurd he hne, hdraw, hstore⟩
  · obtain ⟨hout, hdraw, hstore⟩ := frame_of_error h he
    exact ⟨fun h0 => absurd h0 he, fun _ hop a => hout a (.inl hop), fun _ _ a ha => hout a (.inr ha), fun _ => hdraw, hstore⟩

end Sys2Proof.Machine
end

section
/-! PROOF. The two directions of the packer on whole sequences (O19), and `pack` byte by byte (O18). -/

namespace Sys2Proof.Machine

/-! The value of a packed byte and of its units (R41, R73, R74). -/

/-- Two 4-bit codes in one byte do not overflow it (R73). -/
theorem toNat_pack4 {c d : Byte} (hc : c.toNat < 16) (hd : d.toNat < 16) :
    (c * 16 + d).toNat = c.toNat * 16 + d.toNat := by
  bv_omega

/-- Four 2-bit codes in one byte do not overflow it (R74). -/
theorem toNat_pack2 {c d e f : Byte} (hc : c.toNat < 4) (hd : d.toNat < 4) (he : e.toNat < 4) (hf : f.toNat < 4) :
    (c * 64 + d * 16 + e * 4 + f).toNat = c.toNat * 64 + d.toNat * 16 + e.toNat * 4 + f.toNat := by
  bv_omega

/-- A unit is a base-`2^w` digit of its byte (R41). -/
theorem toNat_unitField (x : Byte) (u : Nat) {w : Nat} (hw : w ≤ 8) :
    (unitField x u w).toNat = x.toNat / 2 ^ (8 - w * (u + 1)) % 2 ^ w := by
  have hpow : 2 ^ w ≤ 2 ^ 8 := Nat.pow_le_pow_right (by decide) hw
  have hmask : (2 ^ w - 1) % 2 ^ 8 = 2 ^ w - 1 := Nat.mod_eq_of_lt (by have := Nat.two_pow_pos w; omega)
  rw [unitField, BitVec.toNat_and, BitVec.toNat_ushiftRight, BitVec.toNat_ofNat, hmask, Nat.and_two_pow_sub_one_eq_mod,
    Nat.shiftRight_eq_div_pow]

theorem toNat_unitField_lt (x : Byte) (u : Nat) {w : Nat} (hw : w ≤ 8) : (unitField x u w).toNat < 2 ^ w := by
  rw [toNat_unitField x u hw]
  exact Nat.mod_lt _ (Nat.two_pow_pos w)

/-! Packing an unpacked sequence (R127). -/

/-- A byte is its two 4-bit units. -/
theorem pack4_units (x : Byte) : unitField x 0 4 * 16 + unitField x 1 4 = x := by
  have hlt (u : Nat) : (unitField x u 4).toNat < 16 := toNat_unitField_lt x u (by decide)
  refine BitVec.eq_of_toNat_eq ?_
  rw [toNat_pack4 (hlt 0) (hlt 1), toNat_unitField x 0 (by decide), toNat_unitField x 1 (by decide)]
  omega

/-- A byte is its four 2-bit units. -/
theorem pack2_units (x : Byte) :
    unitField x 0 2 * 64 + unitField x 1 2 * 16 + unitField x 2 2 * 4 + unitField x 3 2 = x := by
  have hlt (u : Nat) : (unitField x u 2).toNat < 4 := toNat_unitField_lt x u (by decide)
  refine BitVec.eq_of_toNat_eq ?_
  rw [toNat_pack2 (hlt 0) (hlt 1) (hlt 2) (hlt 3), toNat_unitField x 0 (by decide), toNat_unitField x 1 (by decide),
    toNat_unitField x 2 (by decide), toNat_unitField x 3 (by decide)]
  omega

theorem unpackBytes_cons (w : Nat) (x : Byte) (xs : List Byte) :
    unpackBytes w (x :: xs) = unitsOf w x ++ unpackBytes w xs := rfl

theorem unitsOf_four (x : Byte) : unitsOf 4 x = [unitField x 0 4, unitField x 1 4] := rfl

theorem unitsOf_two (x : Byte) : unitsOf 2 x = [unitField x 0 2, unitField x 1 2, unitField x 2 2, unitField x 3 2] := rfl

theorem packWhole4_unpackBytes (xs : List Byte) : packWhole4 (unpackBytes 4 xs) = xs := by
  induction xs with
  | nil => rfl
  | cons x xs ih =>
    rw [unpackBytes_cons, unitsOf_four, List.cons_append, List.cons_append, List.nil_append, packWhole4, pack4_units, ih]

theorem packWhole2_unpackBytes (xs : List Byte) : packWhole2 (unpackBytes 2 xs) = xs := by
  induction xs with
  | nil => rfl
  | cons x xs ih =>
    rw [unpackBytes_cons, unitsOf_two, List.cons_append, List.cons_append, List.cons_append, List.cons_append, List.nil_append,
      packWhole2, pack2_units, ih]

theorem packWhole_unpackBytes {w : Nat} (hw : w = 2 ∨ w = 4) (xs : List Byte) : packWhole w (unpackBytes w xs) = xs := by
  obtain rfl | rfl := hw
  · exact packWhole2_unpackBytes xs
  · exact packWhole4_unpackBytes xs

/-- A sequence that fills its bytes gets no pad code (R123). -/
theorem packCodes_of_whole {w : Nat} (pad : Byte) {codes : List Byte} (h : codes.length % cpb w = 0) :
    packCodes w pad codes = packWhole w codes := by
  rw [packCodes, padCodes, h, Nat.sub_zero, Nat.mod_self, List.replicate_zero, List.append_nil]

/-- Settles O19: unpacking undoes packing up to the pad codes; a byte is the packing of its units, and no pad code follows them. -/
theorem unpackInvertsPack : Obligations.UnpackInvertsPack := by
  intro w pad hw hpad
  refine ⟨fun codes hc => unpackBytes_packCodes hw hpad hc, fun xs => ?_⟩
  have hwhole : (unpackBytes w xs).length % cpb w = 0 := by rw [unpack_length, Nat.mul_mod_left]
  rw [packCodes_of_whole pad hwhole, packWhole_unpackBytes hw]

/-! Byte `k` of a packing (R120). -/

/-- Byte `k` holds the codes from `2 * k` on, the first one highest. -/
theorem packWhole4_getElem? : ∀ (codes : List Byte) (k : Nat) (h : 2 * k + 1 < codes.length),
    (packWhole4 codes)[k]? = some (codes[2 * k] * 16 + codes[2 * k + 1])
  | [], _, h => absurd h (by simp)
  | [_], _, h => absurd h (by simp)
  | _ :: _ :: _, 0, _ => rfl
  | _ :: _ :: rest, k + 1, h => packWhole4_getElem? rest k (by simp only [List.length_cons] at h; omega)

/-- Byte `k` holds the codes from `4 * k` on, the first one highest. -/
theorem packWhole2_getElem? : ∀ (codes : List Byte) (k : Nat) (h : 4 * k + 3 < codes.length),
    (packWhole2 codes)[k]? = some (codes[4 * k] * 64 + codes[4 * k + 1] * 16 + codes[4 * k + 2] * 4 + codes[4 * k + 3])
  | [], _, h => absurd h (by simp)
  | [_], _, h => absurd h (by simp)
  | [_, _], _, h => absurd h (by simp)
  | [_, _, _], _, h => absurd h (by simp)
  | _ :: _ :: _ :: _ :: _, 0, _ => rfl
  | _ :: _ :: _ :: _ :: rest, k + 1, h => packWhole2_getElem? rest k (by simp only [List.length_cons] at h; omega)

/-- Settles O18: whole bytes get no pad code, and codes in range do not overflow the byte that holds them. -/
theorem packPlacesTheFirstCodeHighest : Obligations.PackPlacesTheFirstCodeHighest := by
  intro pad codes
  refine ⟨fun hc hl => ?_, fun hc hl => ?_⟩
  · have hpack : packCodes 4 pad codes = packWhole4 codes := packCodes_of_whole pad hl
    rw [hpack]
    refine ⟨packWhole4_length codes, fun k hk => ?_⟩
    have hlast : 2 * k + 1 < codes.length := by omega
    have hlt {i : Nat} (hi : i < codes.length) := hc codes[i] (List.getElem_mem hi)
    exact ⟨_, _, _, List.getElem?_eq_getElem _, List.getElem?_eq_getElem hlast, packWhole4_getElem? codes k hlast,
      toNat_pack4 (hlt _) (hlt hlast)⟩
  · have hpack : packCodes 2 pad codes = packWhole2 codes := packCodes_of_whole pad hl
    rw [hpack]
    refine ⟨packWhole2_length codes, fun k hk => ?_⟩
    have hlast : 4 * k + 3 < codes.length := by omega
    have hlt {i : Nat} (hi : i < codes.length) := hc codes[i] (List.getElem_mem hi)
    exact ⟨_, _, _, _, _, List.getElem?_eq_getElem _, List.getElem?_eq_getElem _, List.getElem?_eq_getElem _,
      List.getElem?_eq_getElem hlast, packWhole2_getElem? codes k hlast,
      toNat_pack2 (hlt _) (hlt _) (hlt _) (hlt hlast)⟩

end Sys2Proof.Machine
end

section
/-! PROOF. The packer's unit: `push` and `flush` refine `pack` (O20), and the operations PACK (O21) and UNPACK (O22). -/

namespace Sys2Proof.Machine

/-- Emitting bytes writes `OUT` and `OUTLEN` and nothing else (R105). -/
theorem exists_foldl_emit_eq (l : List Byte) (s : State) :
    ∃ m n, l.foldl State.emit s = { s with outMem := m, outLen := n } := by
  induction l generalizing s with
  | nil => exact ⟨s.outMem, s.outLen, rfl⟩
  | cons x l ih => exact ih (s.emit x)

/-- Settles O20: the pushes and the flush are the emission of the packed bytes. -/
theorem pushAndFlushComputePack : Obligations.PushAndFlushComputePack := by
  intro s codes hw hn hb hc
  rw [flush_pushAll_eq_emits hw hn hb hc]
  exact ⟨emitAll_emits s _, exists_foldl_emit_eq _ s⟩

/-! PACK. -/

/-- PACK of codes in range emits their packing and moves past them (R122). -/
theorem packBody_startInit_eq_ok {s : State} (hw : s.w = 2 ∨ s.w = 4) (hc : ∀ c ∈ s.inBytes, c.toNat < base s.w) :
    packBody s.startInit = .ok (((packCodes s.w (padCode s.cfg s.w) s.inBytes).foldl State.emit s.startInit).setPos
      s.inBytes.length 0) := by
  rw [packBody, s.sameOperands_startInit.inBytes, packLoop_ok _ s.startInit rfl hc,
    flush_pushAll_eq_emits (s := s.startInit) hw rfl rfl hc, State.startInit_pos, Nat.zero_add]
  rfl

/-- PACK of an input with a byte that is no code raises ProtocolError (R124). -/
theorem exists_packBody_startInit_eq_raise {s : State} (hc : ∃ c ∈ s.inBytes, base s.w ≤ c.toNat) :
    ∃ u, packBody s.startInit = .raise .protocolError u := by
  rw [packBody, s.sameOperands_startInit.inBytes]
  exact packLoop_raise _ s.startInit hc

theorem endOperation_done (r : BodyResult) : (endOperation r).done = true := by
  cases r <;> rfl

/-- Settles O21: PACK's loop either pushes every code and flushes, or raises at the first byte that is no code. -/
theorem packOperationPacksOrRaises : Obligations.PackOperationPacksOrRaises := by
  intro s h
  obtain ⟨-, hw, -⟩ := h.facts
  refine ⟨_, exec_of_requestOk (op := .pack) h, endOperation_done _, fun hc => ?_, fun hc => ?_⟩
  · have hemits := emitAll_emits s.startInit (packCodes s.w (padCode s.cfg s.w) s.inBytes)
    have hout := hemits.outBytes rfl
    have hlen := hemits.len
    obtain ⟨m, n, hstate⟩ := exists_foldl_emit_eq (packCodes s.w (padCode s.cfg s.w) s.inBytes) s.startInit
    rw [Operation.body, packBody_startInit_eq_ok hw hc]
    rw [packCodes_length hw, inBytes_length h.input, State.startInit_outLen, Nat.zero_add] at hlen
    refine ⟨rfl, hout, hlen, ?_⟩
    rw [hstate]
    exact ⟨rfl, rfl, rfl, rfl, rfl⟩
  · obtain ⟨u, hraise⟩ := exists_packBody_startInit_eq_raise hc
    rw [Operation.body, hraise]
    exact ⟨rfl, rfl⟩

/-! UNPACK. -/

/-- Settles O22: the two loops of UNPACK emit the units of every byte and touch no register of a decoder. -/
theorem unpackOperationUnpacks : Obligations.UnpackOperationUnpacks := by
  intro s h
  obtain ⟨hemits, -, hprev, hacc, hscale⟩ := unpack_fold s.startInit.inBytes s.startInit
  rw [s.sameOperands_startInit.inBytes, State.startInit_w] at hemits
  have hlen := hemits.len
  rw [unpack_length, inBytes_length h.input, State.startInit_outLen, Nat.zero_add] at hlen
  exact ⟨_, exec_of_requestOk (op := .unpack) h, rfl, rfl, hemits.outBytes rfl, hlen, hprev, hacc, hscale⟩

end Sys2Proof.Machine
end

section
/-! PROOF. The 4-bit codes: how far a code can move the sum (O11), how `ACC` moves (O10), and what the codes that subtract and the
codes that add do (O6, O7). -/

namespace Sys2Proof.Machine

/-! The magnitude and the sum before the clamp (R142, R143). -/

theorem codeData_le (n : BitVec 4) : codeData n ≤ 7 := Nat.le_of_lt_succ (Nat.mod_lt _ (by decide))

theorem codeSgn_eq (n : BitVec 4) : codeSgn n = 1 ∨ codeSgn n = -1 := by
  unfold codeSgn
  split
  · exact .inl rfl
  · exact .inr rfl

theorem toNat_le_of_accLegal {a : BitVec 4} (h : accLegal a) : a.toNat ≤ 8 := by
  obtain rfl | rfl | rfl | rfl := h <;> decide

/-- The magnitude is largest at `data = 7` and `ACC = 8` (R143). -/
theorem codeDelta_le {a : BitVec 4} (h : accLegal a) {data : Nat} (hdata : data ≤ 7) : codeDelta data a ≤ 60 :=
  have ha : a.toNat ≤ 8 := toNat_le_of_accLegal h
  calc data * a.toNat + a.toNat / 2
    _ ≤ 7 * 8 + 8 / 2 := Nat.add_le_add (Nat.mul_le_mul hdata ha) (Nat.div_le_div_right ha)

/-- Settles O11: the sum moves a byte up or down by a magnitude of at most 60. -/
theorem stepSumStaysInRange : Obligations.StepSumStaysInRange := by
  intro d n h
  have hdelta : codeDelta (codeData n) d.acc ≤ 60 := codeDelta_le h (codeData_le n)
  have hprev : d.prev.toNat < 256 := d.prev.isLt
  obtain hsgn | hsgn := codeSgn_eq n <;> rw [hsgn] <;> omega

/-! The adaptation of `ACC`, row by row of its table (R144). -/

theorem adaptAcc_zero {a : BitVec 4} (h : accLegal a) : adaptAcc 0 a = if a = 1 then 1 else a / 2 := by
  obtain rfl | rfl | rfl | rfl := h <;> decide

theorem adaptAcc_of_le_four (a : BitVec 4) {data : Nat} (hpos : 1 ≤ data) (hle : data ≤ 4) : adaptAcc data a = a := by
  rw [adaptAcc, if_neg (by omega), if_neg (by omega)]

theorem adaptAcc_of_five_le {a : BitVec 4} (h : accLegal a) {data : Nat} (hdata : 5 ≤ data) :
    adaptAcc data a = if a = 8 then 8 else a * 2 := by
  have hne : data ≠ 0 := by omega
  obtain rfl | rfl | rfl | rfl := h <;> simp [adaptAcc, hne, hdata]

/-- The three rows together, in natural numbers: neither the halving nor the doubling of a legal `ACC` wraps. -/
theorem adaptAcc_toNat {a : BitVec 4} (h : accLegal a) (data : Nat) : (adaptAcc data a).toNat =
    if data = 0 then (if a = 1 then 1 else a.toNat / 2)
    else if data < 5 then a.toNat else (if a = 8 then 8 else a.toNat * 2) := by
  split_ifs with hzero hone hlt height
  · rw [hzero, adaptAcc_zero h, if_pos hone]; rfl
  · rw [hzero, adaptAcc_zero h, if_neg hone, BitVec.toNat_udiv]; rfl
  · rw [adaptAcc_of_le_four a (by omega) (by omega)]
  · rw [adaptAcc_of_five_le h (by omega), if_pos height]; rfl
  · have hle : a.toNat ≤ 8 := toNat_le_of_accLegal h
    rw [adaptAcc_of_five_le h (by omega), if_neg height]
    bv_omega

/-- A replay on the 4-bit codec ends in a state of that codec with a legal `ACC` (R48, R31). -/
theorem exists_replayEnd_eq_four (tbl : Tables) (codes : List Byte) {d : Dec4} (h : accLegal d.acc) :
    ∃ e, replayEnd tbl (.four d) codes = .four e ∧ accLegal e.acc := by
  induction codes generalizing d with
  | nil => exact ⟨d, rfl, h⟩
  | cons c codes ih => exact ih (step4_accLegal _ h)

/-- Settles O10: every step keeps `ACC` legal, and from a legal `ACC` the next code takes its row of the table. -/
theorem accumulatorFollowsItsTable : Obligations.AccumulatorFollowsItsTable := by
  intro tbl d codes h
  obtain ⟨e, hend, hacc⟩ := exists_replayEnd_eq_four tbl codes h
  refine ⟨e, hend, hacc, fun n => ⟨fun hzero => ?_, adaptAcc_of_le_four e.acc, adaptAcc_of_five_le hacc⟩⟩
  rw [step4, hzero, adaptAcc_zero hacc]

/-! What a code leaves in the decoder registers (R141). -/

@[simp] theorem codeStep4_acc (n : BitVec 4) (s : State) : (codeStep4 n s).acc = adaptAcc (codeData n) s.acc := by
  simp [codeStep4, step4]

theorem codeStep4_prev_toNat (n : BitVec 4) (s : State) : ((codeStep4 n s).prev.toNat : Int) =
    max 0 (min 255 ((s.prev.toNat : Int) + codeSgn n * (codeDelta (codeData n) s.acc : Int))) := by
  simp [codeStep4, step4, clampByte_toNat]

theorem codeDelta_cast (data : Nat) (a : BitVec 4) :
    (codeDelta data a : Int) = data * a.toNat + a.toNat / 2 := by
  simp [codeDelta]

/-! The codes of the two signs (R71, R80). -/

theorem minusCodes_eq_decode4 {i : Instr} {d : Nat} (h : (i, d) ∈ minusCodes) : d < 8 ∧ i = decode4 (BitVec.ofNat 4 d) :=
  (by decide : ∀ p ∈ minusCodes, p.2 < 8 ∧ p.1 = decode4 (BitVec.ofNat 4 p.2)) _ h

theorem plusCodes_eq_decode4 {i : Instr} {d : Nat} (h : (i, d) ∈ plusCodes) : d < 8 ∧ i = decode4 (BitVec.ofNat 4 (8 + d)) :=
  (by decide : ∀ p ∈ plusCodes, p.2 < 8 ∧ p.1 = decode4 (BitVec.ofNat 4 (8 + p.2))) _ h

/-- A value below 8 is the code with sign bit 0 and itself as `data`. -/
theorem codeFields_minus : ∀ d < 8, codeSgn (BitVec.ofNat 4 d) = -1 ∧ codeData (BitVec.ofNat 4 d) = d := by decide

/-- 8 more is the code with sign bit 1 and the same `data`. -/
theorem codeFields_plus : ∀ d < 8, codeSgn (BitVec.ofNat 4 (8 + d)) = 1 ∧ codeData (BitVec.ofNat 4 (8 + d)) = d := by decide

/-- Settles O6: a code of sign -1 can only pass the lower end of the clamp. -/
theorem minusCodesSubtractTheirDelta : Obligations.MinusCodesSubtractTheirDelta := by
  intro s i d hi hacc
  obtain ⟨hd, rfl⟩ := minusCodes_eq_decode4 hi
  obtain ⟨hsgn, hdata⟩ := codeFields_minus d hd
  have frame := codeStep4_frame (BitVec.ofNat 4 d) s
  refine ⟨encode_decode4 _, _, exec_decode4 _ s, ?_, ?_, frame.emits, frame.done, frame.err⟩
  · have hprev : s.prev.toNat < 256 := s.prev.isLt
    rw [codeStep4_prev_toNat, hsgn, hdata, ← codeDelta_cast]
    omega
  · rw [codeStep4_acc, hdata, adaptAcc_toNat hacc]

/-- Settles O7: a code of sign +1 can only pass the upper end of the clamp. -/
theorem plusCodesAddTheirDelta : Obligations.PlusCodesAddTheirDelta := by
  intro s i d hi hacc
  obtain ⟨hd, rfl⟩ := plusCodes_eq_decode4 hi
  obtain ⟨hsgn, hdata⟩ := codeFields_plus d hd
  have frame := codeStep4_frame (BitVec.ofNat 4 (8 + d)) s
  refine ⟨encode_decode4 _, _, exec_decode4 _ s, ?_, ?_, frame.emits, frame.done, frame.err⟩
  · rw [codeStep4_prev_toNat, hsgn, hdata, ← codeDelta_cast]
    omega
  · rw [codeStep4_acc, hdata, adaptAcc_toNat hacc]

end Sys2Proof.Machine
end

section
/-! PROOF. The 2-bit codes: the table entry they look up and what they leave in the decoder registers (O8), and the step sizes at
which they are all alike (O12). -/

namespace Sys2Proof.Machine

/-! The table index and the step size (R182, R184). -/

@[simp] theorem tableIndex_val (c : BitVec 2) (scale : Byte) : (tableIndex c scale).val = min (c.toNat + scale.toNat) 23 := rfl

/-- From `SCALE = 23` on, the index is the last one, whatever the code (R182, C10). -/
theorem tableIndex_eq_last (c : BitVec 2) {scale : Byte} (h : 23 ≤ scale.toNat) : tableIndex c scale = Fin.last 23 := by
  have hval : (tableIndex c scale).val = 23 := by rw [tableIndex_val]; omega
  exact Fin.ext hval

theorem addScale_toNat (scale : Byte) (adj : Int) : ((addScale scale adj).toNat : Int) = ((scale.toNat : Int) + adj) % 256 := by
  rw [addScale, BitVec.toNat_ofInt]
  omega

/-! What a code leaves in the decoder registers (R181). -/

theorem codeStep2_prev_toNat (c : BitVec 2) (s : State) : ((codeStep2 c s).prev.toNat : Int) =
    max 0 (min 255 ((s.prev.toNat : Int) + s.tbl.delta.get (tableIndex c s.scale))) := by
  simp [codeStep2, step2, clampByte_toNat]

theorem codeStep2_scale_toNat (c : BitVec 2) (s : State) : ((codeStep2 c s).scale.toNat : Int) =
    ((s.scale.toNat : Int) + s.tbl.adj.get (tableIndex c s.scale)) % 256 := by
  simp [codeStep2, step2, addScale_toNat]

/-- A step reads its code through the table index alone (R181, R182). -/
theorem codeStep2_congr {c c' : BitVec 2} {s : State} (h : tableIndex c s.scale = tableIndex c' s.scale) :
    codeStep2 c s = codeStep2 c' s := by
  simp only [codeStep2, step2, h]

/-! The four codes (R80). -/

theorem twoBitCodes_eq_decode2 {i : Instr} {c : Nat} (h : (i, c) ∈ twoBitCodes) : c < 4 ∧ i = decode2 (BitVec.ofNat 2 c) :=
  (by decide : ∀ p ∈ twoBitCodes, p.2 < 4 ∧ p.1 = decode2 (BitVec.ofNat 2 p.2)) _ h

/-- Settles O8: the code is one step at the clamped index, from which both tables are read. -/
theorem twoBitCodesUseTheTables : Obligations.TwoBitCodesUseTheTables := by
  intro s i c hi
  obtain ⟨hc, rfl⟩ := twoBitCodes_eq_decode2 hi
  have hindex : (tableIndex (BitVec.ofNat 2 c) s.scale).val = min (c + s.scale.toNat) 23 := by
    rw [tableIndex_val, BitVec.toNat_ofNat, Nat.mod_eq_of_lt hc]
  have frame := codeStep2_frame (BitVec.ofNat 2 c) s
  exact ⟨encode_decode2 _, _, _, exec_decode2 _ s, hindex, codeStep2_prev_toNat _ s, codeStep2_scale_toNat _ s,
    frame.emits, frame.done, frame.err⟩

/-- Settles O12: at such a `SCALE` every code looks up the last entry, and a step reads nothing else of its code. -/
theorem largeScaleMakesTwoBitCodesAlike : Obligations.LargeScaleMakesTwoBitCodesAlike := by
  intro s hscale
  have alike (c : BitVec 2) : exec (decode2 c) s = exec (decode2 0) s := by
    have hindex : tableIndex c s.scale = tableIndex 0 s.scale := by
      rw [tableIndex_eq_last c hscale, tableIndex_eq_last 0 hscale]
    rw [exec_decode2, exec_decode2, codeStep2_congr hindex]
  exact ⟨alike 1, alike 2, alike 3⟩

end Sys2Proof.Machine
end

section
/-! PROOF. The combination index and its digits are inverse (O25): the last digit is split off, and the index is built on it. -/

namespace Sys2Proof.Machine

/-- The index of the digits of `k` is `k` (R203). -/
theorem comboIndex_comboCodes {bas : Nat} (hbas : bas ≤ 16) : ∀ (g : Nat) {k : Nat}, k < bas ^ g →
    comboIndex true bas (comboCodes true bas g k) = k
  | 0, k, hk => by
    obtain rfl : k = 0 := by simpa using hk
    rfl
  | g + 1, k, hk => by
    rw [Nat.pow_succ'] at hk
    have hpos : 0 < bas := Nat.pos_of_mul_pos_right (Nat.zero_lt_of_lt hk)
    have hdigit : (BitVec.ofNat 8 (k % bas)).toNat = k % bas := by
      have := Nat.mod_lt k hpos
      rw [BitVec.toNat_ofNat, Nat.mod_eq_of_lt (by omega)]
    rw [comboCodes_succ, comboIndex_concat, comboIndex_comboCodes hbas g (Nat.div_lt_of_lt_mul hk), hdigit, Nat.div_add_mod']

/-- Codes in range have an index below the number of combinations (R203). -/
theorem comboIndex_lt {bas : Nat} (codes : List Byte) (hc : ∀ c ∈ codes, c.toNat < bas) :
    comboIndex true bas codes < bas ^ codes.length := by
  induction codes using List.reverseRecOn with
  | nil => exact Nat.one_pos
  | append_singleton codes c ih =>
    have hlt : c.toNat < bas := hc c (by simp)
    have hinit := ih fun d hd => hc d (by simp [hd])
    rw [comboIndex_concat, List.length_append, List.length_singleton, Nat.pow_succ]
    calc comboIndex true bas codes * bas + c.toNat
        < (comboIndex true bas codes + 1) * bas := by rw [Nat.succ_mul]; omega
      _ ≤ bas ^ codes.length * bas := Nat.mul_le_mul_right bas hinit

/-- The first code is the most significant digit (R203, D14). -/
theorem comboIndex_cons (bas : Nat) (c : Byte) (codes : List Byte) :
    comboIndex true bas (c :: codes) = c.toNat * bas ^ codes.length + comboIndex true bas codes := by
  induction codes using List.reverseRecOn with
  | nil => simp [comboIndex]
  | append_singleton codes d ih =>
    rw [← List.cons_append, comboIndex_concat, comboIndex_concat, ih, List.length_append, List.length_singleton]
    ring

/-- Settles O25: both directions go digit by digit from the last, and the first code carries the highest power. -/
theorem combinationIndexAndDigitsAgree : Obligations.CombinationIndexAndDigitsAgree := by
  intro bas g hone hbas
  refine ⟨fun k hk => ⟨comboIndex_comboCodes hbas g hk, comboCodes_length .., comboCodes_lt (by omega) hbas g k⟩, ?_⟩
  rintro codes rfl hc
  refine ⟨comboIndex_lt codes hc, comboCodes_comboIndex codes hc, ?_⟩
  rintro c rest rfl
  exact comboIndex_cons bas c rest

end Sys2Proof.Machine
end

section
/-! PROOF. The exhaustive search of one group (O26). -/

namespace Sys2Proof.Machine

/-- Settles O26: the search keeps the first candidate of least error, and a candidate's error is that of its replay. -/
theorem searchIsOptimalWithinAGroup : Obligations.SearchIsOptimalWithinAGroup := by
  intro tbl bas st target hbas
  obtain ⟨i, hi, hfind, hleast, hfirst⟩ := foldl_better (candidate tbl bas st target) (bas ^ target.length) (Nat.pow_pos hbas)
  have hsearch : search tbl bas st target = some (candidate tbl bas st target i) := hfind
  rw [candidate_eq] at hsearch
  simp only [candidate_eq] at hleast hfirst
  refine ⟨_, hsearch, hi, rfl, rfl, fun k hk => ⟨hleast k hk, fun heq => ?_⟩⟩
  by_contra hlt
  exact (hfirst k (not_le.mp hlt)).ne' heq

end Sys2Proof.Machine
end

section
/-! PROOF. What ENCX leaves (O27): the branch that the group loop commits is a replay whose groups are those that the search finds, and its
commit packs its codes. -/

namespace Sys2Proof.Machine

/-! The branch that the group loop commits. -/

/-- The committed branch of an exhaustive encoder after all groups of its targets (R200, R202, R207). -/
def exhaustiveBranch (s : State) (b : Byte) (targets : List Byte) : Branch :=
  encodeGroups (search s.tbl (base s.w)) (base s.w) s.g targets.length targets (rootBranch s.w b)

theorem exhaustiveBranch_replays {s : State} (hw : s.w = 2 ∨ s.w = 4) (hg : 0 < s.g) (b : Byte) (targets : List Byte) :
    Replays s.tbl s.w (seedSnapshot s.w b) targets.length (exhaustiveBranch s b targets).hist (exhaustiveBranch s b targets).state := by
  have hgroups := encodeGroups_replays (search_findsReplays s.tbl hw) hg (seedSnapshot_width hw b) targets.length targets 0
    (rootBranch s.w b) le_rfl (.nil s.tbl s.w _)
  rwa [Nat.zero_add] at hgroups

/-- Each group of the branch's codes is what the search finds from the state that the codes before it leave (R202, R206). -/
theorem exhaustiveBranch_groups {s : State} (hw : s.w = 2 ∨ s.w = 4) (hg : 0 < s.g) (b : Byte) (targets : List Byte) (q : Nat)
    (hq : q * s.g < targets.length) :
    ∃ y, search s.tbl (base s.w)
        (replayEnd s.tbl (seedSnapshot s.w b) ((exhaustiveBranch s b targets).hist.take (q * s.g)))
        ((targets.drop (q * s.g)).take s.g) = some y ∧
      ((exhaustiveBranch s b targets).hist.drop (q * s.g)).take s.g
        = comboCodes true (base s.w) ((targets.drop (q * s.g)).take s.g).length y.index := by
  obtain ⟨hpos, hle⟩ := base_facts hw
  obtain ⟨codes, hhist, -, -, -, hgroups⟩ := encodeGroups_spec s.tbl (base s.w) s.g hpos hle hg _ (fun _ _ _ => rfl)
    targets.length targets (rootBranch s.w b) le_rfl
  have hcodes : (exhaustiveBranch s b targets).hist = codes := hhist
  rw [hcodes]
  exact hgroups q hq

/-! What the end of an encoder leaves. -/

/-- The block after an encoder that emitted its first byte, committed a branch over some store, and ended (R200). -/
def State.encoded (s : State) (b : Byte) (l : List Branch) (x : Branch) : State :=
  (commitWinner ((s.startInit.emit b).setBranches l) x).finishOk

section
variable {s : State} {b : Byte} {l : List Branch} {x : Branch} {n : Nat}

theorem State.encoded_emits (hw : s.w = 2 ∨ s.w = 4) (hc : ∀ c ∈ x.hist, c.toNat < base s.w) :
    s.startInit.Emits (s.encoded b l x) (b :: packCodes s.w (padCode s.cfg s.w) x.hist) := by
  have hhead : s.startInit.Emits ((s.startInit.emit b).setBranches l) [b] := (State.emits_emit _ b).silent rfl rfl
  exact (hhead.trans (commitWinner_emits (x := x) hw rfl rfl hc)).silent (State.finishOk_outMem _) (State.finishOk_outLen _)

theorem State.encoded_snapshot (hx : Replays s.tbl s.w (seedSnapshot s.w b) n x.hist x.state) :
    (s.encoded b l x).snapshot = x.state :=
  commitWinner_snapshot hx

theorem State.encoded_prevSet : (s.encoded b l x).prevSet = true := by
  simp [State.encoded, commitWinner]

/-- A legal request of an engine with groups leaves the exhaustive result when its commit is that of the group loop (R200, R230). -/
theorem State.encoded_exhaustiveResult {op : Operation} (hop : usesGroup op = true) (h : RequestOk op s) {targets : List Byte}
    (hbt : s.inBytes = b :: targets) :
    ExhaustiveResult s (s.encoded b l (exhaustiveBranch s b targets)) (s.encoded b l (exhaustiveBranch s b targets)).snapshot := by
  obtain ⟨-, hw, -, hgroup, -⟩ := h.facts
  have hg : 0 < s.g := (hgroup hop).1
  have hx := exhaustiveBranch_replays hw hg b targets
  have hemits := State.encoded_emits (b := b) (l := l) hw hx.inRange
  have hlen : targets.length = s.inLen - 1 := by rw [← inBytes_length h.input, hbt, List.length_cons, Nat.add_sub_cancel]
  have hout : (s.encoded b l (exhaustiveBranch s b targets)).outLen = 1 + (s.inLen - 1 + cpb s.w - 1) / cpb s.w := by
    rw [hemits.len, State.startInit_outLen, Nat.zero_add, List.length_cons, packCodes_length hw, hx.length, hlen, Nat.add_comm]
  exact ⟨b, targets, _, hbt, hx.length.trans hlen, hx.inRange, hemits.outBytes rfl, hout,
    (State.encoded_snapshot hx).trans hx.state, exhaustiveBranch_groups hw hg b targets⟩

end

/-- ENCX of a legal request commits the branch of the group loop (R200). -/
theorem exec_encx_of_requestOk {s : State} (h : RequestOk .encx s) :
    ∃ b targets l, s.inBytes = b :: targets ∧ exec .encx s = .next (s.encoded b l (exhaustiveBranch s b targets)) := by
  obtain ⟨b, targets, hbt⟩ := List.exists_cons_of_ne_nil (h.inBytes_ne_nil (by decide))
  have hexec : exec .encx s = .next (endOperation (encxBody s.startInit)) := exec_of_requestOk h
  refine ⟨b, targets, [exhaustiveBranch s b targets], hbt, ?_⟩
  simp only [hexec, encxBody, encodeBody, s.sameOperands_startInit.inBytes, hbt, State.setBranches_branches, evolve_single]
  rfl

/-- Settles O27: ENCX commits the branch of the group loop, whose end is the exhaustive result. -/
theorem encxEncodesGroupByGroup : Obligations.EncxEncodesGroupByGroup := by
  intro s h
  obtain ⟨b, targets, l, hbt, hexec⟩ := exec_encx_of_requestOk h
  exact ⟨_, hexec, rfl, rfl, State.encoded_prevSet, State.encoded_exhaustiveResult rfl h hbt⟩

end Sys2Proof.Machine
end

section
/-! PROOF. The lanes of `STEP16` are the code steps (O13). -/

namespace Sys2Proof.Machine

theorem step16_getElem? (d : Dec4) (n : BitVec 4) : (step16 d)[n.toNat]? = some (step4 d n) := by
  simp [step16, List.getElem?_range n.isLt]

/-- A code leaves the scalar step of the decoder registers in them (R141). -/
theorem codeStep4_dec4 (n : BitVec 4) (s : State) :
    ({ prev := (codeStep4 n s).prev, acc := (codeStep4 n s).acc } : Dec4) = step4 { prev := s.prev, acc := s.acc } n := by
  simp [codeStep4]

/-- Settles O13: lane `n` and the code `n` are the same scalar step, and the code emits its new `PREV`. -/
theorem lanesEqualTheCodeSteps : Obligations.LanesEqualTheCodeSteps := by
  intro s n
  refine ⟨rfl, codeStep4 n s, exec_decode4 n s, ?_, codeStep4_emits n s⟩
  rw [codeStep4_dec4, step16_getElem?]

end Sys2Proof.Machine
end

section
/-! PROOF. The depth-first search finds what the exhaustive search finds: it visits the leaves in the order of their combination indices,
and both keep the first of least error (R206, R232). -/

namespace Sys2Proof.Machine

/-! Ranges and digits in two parts: the first code, and the codes after it. -/

/-- A fold over `n * m` indices is a fold over `n` blocks of `m`. -/
theorem foldl_range_mul {β : Type} (f : β → Nat → β) (n m : Nat) (b : β) :
    (List.range (n * m)).foldl f b = (List.range n).foldl (fun b i => (List.range m).foldl (fun b k => f b (i * m + k)) b) b := by
  induction n with
  | zero => simp
  | succ n ih => rw [Nat.succ_mul, List.range_add, List.foldl_append, ih, List.range_succ, List.foldl_append, List.foldl_map]; rfl

/-- The first digit of a combination is the quotient of its index, and the others are those of the remainder (R203, D14). -/
theorem comboCodes_cons {bas g i k : Nat} (hbas : bas ≤ 16) (hi : i < bas) (hk : k < bas ^ g) :
    comboCodes true bas (g + 1) (i * bas ^ g + k) = BitVec.ofNat 8 i :: comboCodes true bas g k := by
  have hdigit : (BitVec.ofNat 8 i).toNat = i := by rw [BitVec.toNat_ofNat, Nat.mod_eq_of_lt (by omega)]
  have hindex : comboIndex true bas (BitVec.ofNat 8 i :: comboCodes true bas g k) = i * bas ^ g + k := by
    rw [comboIndex_cons, hdigit, comboCodes_length, comboIndex_comboCodes hbas g hk]
  have hrange : ∀ c ∈ BitVec.ofNat 8 i :: comboCodes true bas g k, c.toNat < bas :=
    List.forall_mem_cons.mpr ⟨hdigit.symm ▸ hi, comboCodes_lt (Nat.zero_lt_of_lt hi) hbas g k⟩
  have hcodes := comboCodes_comboIndex _ hrange
  rwa [hindex, List.length_cons, comboCodes_length] at hcodes

/-! The nodes of the depth-first search. -/

/-- A path as a candidate: its codes by their combination index (R203, R232). -/
def BestPath.toBest (x : BestPath) : Best :=
  { err := x.err, index := comboIndex true 16 x.codes, state := .four x.state }

/-- A path after one more code at the target `t`, by lane `i` of `STEP16` (R232). -/
def BestPath.child (x : BestPath) (t : Byte) (i : Nat) : BestPath :=
  let d := step4 x.state (BitVec.ofNat 4 i)
  { err := x.err + sqDiff d.prev t, codes := x.codes ++ [BitVec.ofNat 8 i], state := d }

/-- A path extended by the combination of index `k` for the targets left, as a candidate (R203, R204). -/
def BestPath.extend (tbl : Tables) (x : BestPath) (ts : List Byte) (k : Nat) : Best :=
  let y := candidate tbl 16 (.four x.state) ts k
  { err := x.err + y.err, index := comboIndex true 16 x.codes * 16 ^ ts.length + k, state := y.state }

theorem BestPath.extend_nil (tbl : Tables) (x : BestPath) : x.extend tbl [] 0 = x.toBest := by
  simp [extend, toBest, candidate, score]

/-- Extending a child is extending the path by a combination that begins with the child's code. -/
theorem BestPath.extend_child (tbl : Tables) (x : BestPath) (t : Byte) (ts : List Byte) {i k : Nat} (hi : i < 16)
    (hk : k < 16 ^ ts.length) : (x.child t i).extend tbl ts k = x.extend tbl (t :: ts) (i * 16 ^ ts.length + k) := by
  have hcode : (BitVec.ofNat 8 i).toNat = i := by rw [BitVec.toNat_ofNat, Nat.mod_eq_of_lt (by omega)]
  have hstep : oracle tbl (.four x.state) (BitVec.ofNat 8 i) = .four (step4 x.state (BitVec.ofNat 4 i)) := by simp [oracle]
  have hindex : comboIndex true 16 x.codes * 16 ^ (ts.length + 1) + (i * 16 ^ ts.length + k)
      = (comboIndex true 16 x.codes * 16 + i) * 16 ^ ts.length + k := by ring
  simp only [extend, child, candidate, Config.comboMsdFirst, List.length_cons, comboCodes_cons le_rfl hi hk, score, hstep,
    comboIndex_concat, hcode, hindex, Snapshot.sample, Nat.add_assoc]

/-- The search below a node of the tree: a leaf is compared with the best so far (R232). -/
def searchBelow : List Byte → BestPath → Option BestPath → Option BestPath
  | [], x, best => betterPath best x
  | t :: ts, x, best => dfs (t :: ts) x.state x.err x.codes best

theorem step16_zipIdx (d : Dec4) : (step16 d).zipIdx = (List.range 16).map fun i => (step4 d (BitVec.ofNat 4 i), i) := rfl

/-- The children of a node are visited in code order (R232). -/
theorem searchBelow_cons (t : Byte) (ts : List Byte) (x : BestPath) (best : Option BestPath) :
    searchBelow (t :: ts) x best = (List.range 16).foldl (fun best i => searchBelow ts (x.child t i) best) best := by
  cases ts <;> rw [searchBelow, dfs, step16_zipIdx, List.foldl_map] <;> rfl

theorem betterPath_toBest (best : Option BestPath) (x : BestPath) :
    (betterPath best x).map BestPath.toBest = better (best.map BestPath.toBest) x.toBest := by
  cases best with
  | none => rfl
  | some y => exact apply_ite (Option.map BestPath.toBest) _ _ _

/-- Below a node the search compares the node's extensions in the order of their indices (R203, R206, R232). -/
theorem searchBelow_toBest (tbl : Tables) (ts : List Byte) (x : BestPath) (best : Option BestPath) :
    (searchBelow ts x best).map BestPath.toBest
      = (List.range (16 ^ ts.length)).foldl (fun b k => better b (x.extend tbl ts k)) (best.map BestPath.toBest) := by
  induction ts generalizing x best with
  | nil => rw [searchBelow, betterPath_toBest, ← x.extend_nil tbl]; rfl
  | cons t ts ih =>
    have hchildren := List.foldl_hom (l := List.range 16) (init := best) (Option.map BestPath.toBest)
      (g₂ := fun b i => (List.range (16 ^ ts.length)).foldl (fun b k => better b ((x.child t i).extend tbl ts k)) b)
      fun b i => (ih (x.child t i) b).symm
    rw [searchBelow_cons, ← hchildren, List.length_cons, Nat.pow_succ', foldl_range_mul]
    refine List.foldl_ext _ _ _ fun b i hi => List.foldl_ext _ _ _ fun b k hk => ?_
    rw [x.extend_child tbl t ts (List.mem_range.mp hi) (List.mem_range.mp hk)]

/-- From a 4-bit state, for a group with a target, both searches find the same (R232, R233). -/
theorem searchSimd_eq_search (tbl : Tables) {st : Snapshot} {ts : List Byte} (hst : st.width = 4) (hts : ts ≠ []) :
    searchSimd st ts = search tbl (base 4) st ts := by
  cases st with
  | two d => simp [Snapshot.width] at hst
  | four d =>
    obtain ⟨t, ts, rfl⟩ := List.exists_cons_of_ne_nil hts
    have hroot : ∀ k, BestPath.extend tbl ⟨0, [], d⟩ (t :: ts) k = candidate tbl 16 (.four d) (t :: ts) k := by
      simp [BestPath.extend, candidate, comboIndex]
    have hbelow := searchBelow_toBest tbl (t :: ts) ⟨0, [], d⟩ none
    simp only [hroot] at hbelow
    exact hbelow

end Sys2Proof.Machine
end

section
/-! PROOF. ENCS does what ENCX does when `W = 4` (O29), and so leaves the exhaustive result (O28). -/

namespace Sys2Proof.Machine

/-! Searches that agree encode alike. -/

/-- The group loops of two searches that agree on every group with a target commit the same, when the finds keep the width. -/
theorem encodeGroups_congr {tbl : Tables} {w gsize : Nat} {find find' : Snapshot → List Byte → Option Best} (hg : 0 < gsize)
    (hfind : FindsReplays tbl w find') (hagree : ∀ {st ts}, st.width = w → ts ≠ [] → find st ts = find' st ts) :
    ∀ (fuel : Nat) (ts : List Byte) (x : Branch), x.state.width = w →
      encodeGroups find (base w) gsize fuel ts x = encodeGroups find' (base w) gsize fuel ts x
  | 0, _, _, _ => rfl
  | _ + 1, [], _, _ => rfl
  | fuel + 1, t :: ts, x, hx => by
    have hgroup : (t :: ts).take gsize ≠ [] := by simp [hg.ne']
    obtain ⟨y, hy, hreplay⟩ := hfind x.state _ hx hgroup
    rw [encodeGroups, encodeGroups, hagree hx hgroup, hy]
    exact encodeGroups_congr hg hfind hagree fuel _ _ (hreplay.width_eq.trans hx)

theorem encodeBody_congr {evolve evolve' : List Byte → List Branch → List Branch} {s : State}
    (h : ∀ targets b, evolve targets [rootBranch s.w b] = evolve' targets [rootBranch s.w b]) :
    encodeBody evolve s = encodeBody evolve' s := by
  simp only [encodeBody, State.setBranches_branches, h]

/-- The two bodies are the same for `W = 4` and a group size (R230, R233). -/
theorem encsBody_eq_encxBody {s : State} (hw : s.w = 4) (hg : 0 < s.g) : encsBody s = encxBody s := by
  refine encodeBody_congr fun targets b => congrArg (· :: []) ?_
  rw [hw]
  exact encodeGroups_congr hg (search_findsReplays s.tbl (.inr rfl)) (searchSimd_eq_search s.tbl) targets.length targets
    (rootBranch 4 b) rfl

/-! `START` of the two engines. -/

theorem group_pos_of_checked {op : Operation} {s : State} (hop : usesGroup op = true) (h : firstError (checks op s) = none) :
    0 < s.g := by
  have hc := firstError_none.mp h
    ((usesGroup op && s.g == 0) || (usesBeam op && (s.b == 0 || decide (s.b < s.nr))), .protocolError) (by simp [checks])
  simp only [hop, Bool.true_and, Bool.or_eq_false_iff, beq_eq_false_iff_ne] at hc
  exact Nat.pos_of_ne_zero hc.1

/-- With `W = 4` and both engines or neither, the two operations make the same checks (R101, R233). -/
theorem checks_encs_eq_encx {s : State} (hw : s.w = 4) (hengine : s.cfg.hasEncs = s.cfg.hasEncx) : checks .encs s = checks .encx s := by
  simp [checks, absentEngine, usesGroup, usesBeam, onlyWidth4, leastInLen, hw, hengine]

theorem runOperation_encs_eq_encx {s : State} (hw : s.w = 4) (hengine : s.cfg.hasEncs = s.cfg.hasEncx) :
    runOperation .encs encsBody s = runOperation .encx encxBody s := by
  unfold runOperation
  rw [checks_encs_eq_encx hw hengine]
  cases hc : firstError (checks .encx s) with
  | some e => rfl
  | none => exact congrArg endOperation (encsBody_eq_encxBody (s := s.startInit) hw (group_pos_of_checked rfl hc))

/-- Settles O29: the checks and what they read are the same, and the bodies are the same where the checks pass. -/
theorem encsEqualsEncx : Obligations.EncsEqualsEncx := by
  intro s hw hengine
  have hpasses : ∀ n, passes n .encs s = passes n .encx s := fun n => by rw [passes, passes, checks_encs_eq_encx hw hengine]
  have hregs : unwritten .encs s = unwritten .encx s := by simp only [unwritten, hpasses]; rfl
  have hbytes : missingByte .encs s = missingByte .encx s := by simp only [missingByte, hpasses]; rfl
  calc exec .encs s = start .encs encsBody s := exec_operation .encs s
    _ = start .encx encxBody s := by simp only [start, hregs, hbytes, runOperation_encs_eq_encx hw hengine]
    _ = exec .encx s := (exec_operation .encx s).symm

/-! What ENCS leaves. -/

/-- ENCS of a legal request commits the branch of the group loop of ENCX (R200, R230). -/
theorem exec_encs_of_requestOk {s : State} (h : RequestOk .encs s) :
    ∃ b targets l, s.inBytes = b :: targets ∧ exec .encs s = .next (s.encoded b l (exhaustiveBranch s b targets)) := by
  obtain ⟨-, -, honly, hgroup, -⟩ := h.facts
  obtain ⟨b, targets, hbt⟩ := List.exists_cons_of_ne_nil (h.inBytes_ne_nil (by decide))
  have hexec : exec .encs s = .next (endOperation (encsBody s.startInit)) := exec_of_requestOk h
  rw [encsBody_eq_encxBody (s := s.startInit) (honly rfl) (hgroup rfl).1] at hexec
  refine ⟨b, targets, [exhaustiveBranch s b targets], hbt, ?_⟩
  simp only [hexec, encxBody, encodeBody, s.sameOperands_startInit.inBytes, hbt, State.setBranches_branches, evolve_single]
  rfl

/-- Settles O28: ENCS commits the branch that ENCX commits, whose end is the exhaustive result. -/
theorem encsEncodesGroupByGroup : Obligations.EncsEncodesGroupByGroup := by
  intro s h
  obtain ⟨b, targets, l, hbt, hexec⟩ := exec_encs_of_requestOk h
  exact ⟨_, hexec, rfl, rfl, State.encoded_prevSet, State.encoded_exhaustiveResult rfl h hbt⟩

end Sys2Proof.Machine
end

section
/-! PROOF. The sort of the branch store (O30), the survivors (O31) and the winner (O33) of the trellis. -/

namespace Sys2Proof.Machine

/-! The sort (R252). -/

theorem sortBranches_perm (live : List Branch) : (sortBranches live).Perm live := List.perm_insertionSort _ _

theorem sortBranches_length (live : List Branch) : (sortBranches live).length = live.length := (sortBranches_perm live).length_eq

theorem sortBranches_ascending (live : List Branch) : (sortBranches live).Pairwise (fun x y => x.err ≤ y.err) := by
  have htotal : Std.Total (fun x y : Branch => x.err ≤ y.err) := ⟨fun x y => Nat.le_total x.err y.err⟩
  have htrans : IsTrans Branch (fun x y => x.err ≤ y.err) := ⟨fun _ _ _ => Nat.le_trans⟩
  exact List.pairwise_insertionSort _ live

/-- The branches of one error are an ascending sublist of the live list, so the sort keeps them in order, and it adds no other. -/
theorem sortBranches_filter (live : List Branch) (e : Nat) :
    (sortBranches live).filter (fun x => x.err == e) = live.filter (fun x => x.err == e) := by
  have hclass : ∀ x ∈ live.filter (fun x => x.err == e), x.err = e := fun x hx => by simpa using (List.mem_filter.mp hx).2
  have hpairwise : (live.filter (fun x => x.err == e)).Pairwise (fun x y => x.err ≤ y.err) :=
    List.pairwise_of_forall_mem_list fun x hx y hy => ((hclass x hx).trans (hclass y hy).symm).le
  have hsub : (live.filter (fun x => x.err == e)).Sublist (sortBranches live) :=
    List.sublist_insertionSort hpairwise List.filter_sublist
  have hsubclass := hsub.filter (fun x => x.err == e)
  rw [List.filter_filter] at hsubclass
  simp only [Bool.and_self] at hsubclass
  exact (hsubclass.eq_of_length ((sortBranches_perm live).filter _).length_eq.symm).symm

/-- Settles O30: insertion sort permutes, sorts and keeps every ascending sublist. -/
theorem branchSortIsStable : Obligations.BranchSortIsStable :=
  fun live => ⟨sortBranches_perm live, sortBranches_ascending live, sortBranches_filter live⟩

/-! The survivors (R253, R254, R255). -/

/-- From a pool that is not empty every slot draws a branch (R254). -/
theorem drawSlots_eq_map (pick : Nat → Nat → Nat → Nat) (p nr : Nat) {pool : List Branch} (hpool : 0 < pool.length) :
    drawSlots pick p nr pool
      = (List.range nr).map fun t => pool[pick p t pool.length % pool.length]'(Nat.mod_lt _ hpool) := by
  rw [← List.filterMap_eq_map]
  exact List.filterMap_congr fun t _ => List.getElem?_eq_getElem (Nat.mod_lt _ hpool)

section
variable {pick : Nat → Nat → Nat → Nat} {b nr p : Nat} {sorted : List Branch}

theorem survivors_of_le (h : sorted.length ≤ b) : survivors pick b nr p sorted = sorted := if_pos h

theorem survivors_of_lt (h : b < sorted.length) :
    survivors pick b nr p sorted = sorted.take (b - nr) ++ drawSlots pick p nr (sorted.drop b) :=
  if_neg (Nat.not_le.mpr h)

theorem survivors_length_of_lt (hnr : nr ≤ b) (h : b < sorted.length) : (survivors pick b nr p sorted).length = b := by
  rw [survivors_of_lt h, drawSlots_eq_map pick p nr (by rw [List.length_drop]; omega)]
  simp only [List.length_append, List.length_take, List.length_map, List.length_range]
  omega

theorem survivors_length_le (hnr : nr ≤ b) : (survivors pick b nr p sorted).length ≤ b := by
  rcases Nat.lt_or_ge b sorted.length with h | h
  · exact (survivors_length_of_lt hnr h).le
  · exact (survivors_of_le h).symm ▸ h

/-- The top ranks survive in place (R253). -/
theorem survivors_top (h : b < sorted.length) {k : Nat} (hk : k < b - nr) :
    (survivors pick b nr p sorted)[k]? = sorted[k]? := by
  rw [survivors_of_lt h, List.getElem?_append_left (by rw [List.length_take]; omega), List.getElem?_take_of_lt hk]

/-- Random slot `k` holds the branch that its draw names among the ranks from `B` on (R254). -/
theorem survivors_drawn (h : b < sorted.length) {k : Nat} (hk : k < nr) :
    (survivors pick b nr p sorted)[b - nr + k]? = sorted[b + pick p k (sorted.length - b) % (sorted.length - b)]? := by
  have hpool : 0 < (sorted.drop b).length := by rw [List.length_drop]; omega
  have htop : (sorted.take (b - nr)).length = b - nr := by rw [List.length_take]; omega
  rw [survivors_of_lt h, List.getElem?_append_right (by omega), htop, Nat.add_sub_cancel_left, drawSlots_eq_map pick p nr hpool,
    List.getElem?_map, List.getElem?_range hk, Option.map_some, ← List.getElem?_eq_getElem, List.getElem?_drop, List.length_drop]

end

/-- Settles O31: the two cases of the definition, the second one rank by rank and slot by slot. -/
theorem survivorsAreTheTopAndTheDrawn : Obligations.SurvivorsAreTheTopAndTheDrawn :=
  fun _ _ _ _ _ hnr => ⟨survivors_of_le, fun h => ⟨survivors_length_of_lt hnr h, fun _ => survivors_top h, fun _ => survivors_drawn h⟩⟩

/-! The winner (R257). -/

theorem winner_concat (live : List Branch) (z : Branch) : winner (live ++ [z]) = betterBranch (winner live) z := by
  simp [winner]

/-- The winner splits the live list into larger errors before it and no smaller ones after it (R257). By induction on the list from its
end: a later branch wins only with a smaller error, and then every branch before it has a larger one. -/
theorem winner_split {live : List Branch} {x : Branch} (h : winner live = some x) :
    ∃ pre post, live = pre ++ x :: post ∧ (∀ y ∈ pre, x.err < y.err) ∧ ∀ y ∈ post, x.err ≤ y.err := by
  induction live using List.reverseRecOn generalizing x with
  | nil => cases h
  | append_singleton live z ih =>
    rw [winner_concat] at h
    cases hwin : winner live with
    | none =>
      obtain rfl : live = [] := by
        by_contra hne
        simpa [hwin] using winner_isSome hne
      obtain rfl := Option.some.inj h
      exact ⟨[], [], rfl, nofun, nofun⟩
    | some y =>
      obtain ⟨pre, post, hsplit, hpre, hpost⟩ := ih hwin
      rw [hwin, betterBranch] at h
      split at h
      · next hz =>
        obtain rfl := Option.some.inj h
        refine ⟨live, [], rfl, ?_, nofun⟩
        rw [hsplit]
        exact List.forall_mem_append.mpr
          ⟨fun v hv => hz.trans (hpre v hv), List.forall_mem_cons.mpr ⟨hz, fun v hv => hz.trans_le (hpost v hv)⟩⟩
      · next hz =>
        obtain rfl := Option.some.inj h
        refine ⟨pre, post ++ [z], by rw [hsplit, List.append_assoc, List.cons_append], hpre, ?_⟩
        exact List.forall_mem_append.mpr ⟨hpost, List.forall_mem_singleton.mpr (not_lt.mp hz)⟩

/-- Settles O33: a store that is not empty has a winner, and the winner splits it. -/
theorem winnerIsTheFirstOfMinimalError : Obligations.WinnerIsTheFirstOfMinimalError := by
  intro live hlive
  obtain ⟨x, hx⟩ := Option.isSome_iff_exists.mp (winner_isSome hlive)
  obtain ⟨pre, post, hsplit, hpre, hpost⟩ := winner_split hx
  exact ⟨pre, x, post, hsplit, hx, hpre, hpost⟩

theorem winner_err_le {live : List Branch} {x : Branch} (h : winner live = some x) : ∀ y ∈ live, x.err ≤ y.err := by
  obtain ⟨pre, post, rfl, hpre, hpost⟩ := winner_split h
  exact List.forall_mem_append.mpr ⟨fun y hy => (hpre y hy).le, List.forall_mem_cons.mpr ⟨le_rfl, hpost⟩⟩

/-- The first branch of the sorted list is the winner: it has the least error, and of those that have it the sort keeps the first one
first (R252, R257). -/
theorem sortBranches_head {live : List Branch} {x : Branch} (h : winner live = some x) : ∃ rest, sortBranches live = x :: rest := by
  have hmem : x ∈ sortBranches live := (sortBranches_perm live).mem_iff.mpr (winner_mem h)
  obtain ⟨y, rest, hsorted⟩ := List.exists_cons_of_ne_nil (List.ne_nil_of_mem hmem)
  have hylive : y ∈ live := (sortBranches_perm live).mem_iff.mp (hsorted ▸ List.mem_cons_self)
  have hyle : y.err ≤ x.err := by
    rw [hsorted] at hmem
    have hascending := sortBranches_ascending live
    rw [hsorted] at hascending
    rcases List.mem_cons.mp hmem with rfl | hrest
    · exact le_rfl
    · exact List.rel_of_pairwise_cons hascending hrest
  have hyerr : y.err = x.err := hyle.antisymm (winner_err_le h y hylive)
  obtain ⟨pre, post, hsplit, hpre, -⟩ := winner_split h
  have hpre : pre.filter (fun z => z.err == x.err) = [] :=
    List.filter_eq_nil_iff.mpr fun z hz => by simpa using (hpre z hz).ne'
  have hclass := sortBranches_filter live x.err
  rw [hsorted, hsplit, List.filter_append, hpre, List.nil_append, List.filter_cons_of_pos (by simpa using hyerr),
    List.filter_cons_of_pos (by simp)] at hclass
  obtain ⟨rfl, -⟩ := List.cons.inj hclass
  exact ⟨rest, hsorted⟩

end Sys2Proof.Machine
end

section
/-! PROOF. The live branches of the trellis: each has scored the replay of its codes, and they are at most `16 * B` (O32); a beam that
never prunes has one for every code sequence (O35). -/

namespace Sys2Proof.Machine

/-! The error of a replay. -/

theorem squaredError_append : ∀ {vs ts : List Byte} (us rs : List Byte), vs.length = ts.length →
    squaredError (vs ++ us) (ts ++ rs) = squaredError vs ts + squaredError us rs
  | [], [], _, _, _ => (Nat.zero_add _).symm
  | v :: vs, t :: ts, us, rs, h => by
    simp only [List.cons_append, squaredError, squaredError_append us rs (Nat.succ.inj h), Nat.add_assoc]

/-- One code more adds the error of its sample (R204). -/
theorem squaredError_replay_concat (tbl : Tables) (root : Snapshot) {codes seen : List Byte} (h : codes.length = seen.length)
    (c t : Byte) : squaredError (replay tbl root (codes ++ [c])) (seen ++ [t]) =
      squaredError (replay tbl root codes) seen + sqDiff (oracle tbl (replayEnd tbl root codes) c).sample t := by
  rw [replay_append, squaredError_append _ _ (by rw [replay_length, h])]
  rfl

/-! The branches. -/

/-- The codes of a branch are a replay from the state `root`, and its error is that of the replay against the targets seen so far
(R256, R258 (a)). -/
structure Branch.Scores (tbl : Tables) (root : Snapshot) (seen : List Byte) (x : Branch) : Prop where
  replays : Replays tbl 4 root seen.length x.hist x.state
  err     : x.err = squaredError (replay tbl root x.hist) seen

theorem rootBranch_scores (tbl : Tables) (b : Byte) : (rootBranch 4 b).Scores tbl (seedSnapshot 4 b) [] :=
  ⟨.nil tbl 4 _, rfl⟩

theorem childBranch_scores {tbl : Tables} {root : Snapshot} {seen : List Byte} {x : Branch} (h : x.Scores tbl root seen) (t : Byte)
    {i : Nat} (hi : i < 16) : (childBranch tbl t x i).Scores tbl root (seen ++ [t]) where
  replays := by
    rw [List.length_append]
    exact h.replays.snoc (by simp [base]; omega)
  err := by
    rw [childBranch, squaredError_replay_concat tbl root h.replays.length, ← h.replays.state, ← h.err]

/-! The branch stores. -/

theorem mem_expand {tbl : Tables} {surv : List Branch} {t : Byte} {y : Branch} :
    y ∈ expand tbl surv t ↔ ∃ x ∈ surv, ∃ i < 16, childBranch tbl t x i = y := by
  simp [expand]

theorem expand_length (tbl : Tables) (surv : List Branch) (t : Byte) : (expand tbl surv t).length = surv.length * 16 := by
  simp [expand]

theorem survivors_sort_subset (pick : Nat → Nat → Nat → Nat) (b nr p : Nat) (live : List Branch) :
    survivors pick b nr p (sortBranches live) ⊆ live :=
  fun _ hx => (sortBranches_perm live).mem_iff.mp (survivors_subset pick b nr p _ hx)

/-- Every position keeps the scores, whatever it draws (R256, R258 (a)). -/
theorem trellis_scores (tbl : Tables) (pick : Nat → Nat → Nat → Nat) (b nr : Nat) {root : Snapshot} : ∀ (ts : List Byte) (p : Nat)
    {seen : List Byte} {live : List Branch}, (∀ x ∈ live, x.Scores tbl root seen) →
    ∀ x ∈ trellis tbl pick b nr p ts live, x.Scores tbl root (seen ++ ts)
  | [], _, _, _, h => by rwa [List.append_nil]
  | t :: ts, p, seen, live, h => by
    rw [List.append_cons]
    refine trellis_scores tbl pick b nr ts (p + 1) fun y hy => ?_
    obtain ⟨x, hx, i, hi, rfl⟩ := mem_expand.mp hy
    exact childBranch_scores (h x (survivors_sort_subset pick b nr p live hx)) t hi

theorem trellis_scores_root (tbl : Tables) (pick : Nat → Nat → Nat → Nat) (b nr : Nat) (b0 : Byte) (targets : List Byte) :
    ∀ x ∈ trellis tbl pick b nr 1 targets [rootBranch 4 b0], x.Scores tbl (seedSnapshot 4 b0) targets :=
  trellis_scores tbl pick b nr targets 1 (seen := []) (List.forall_mem_singleton.mpr (rootBranch_scores tbl b0))

/-- At most `B` branches survive, and each has 16 children (R255, R259). -/
theorem trellis_length_le (tbl : Tables) (pick : Nat → Nat → Nat → Nat) {b nr : Nat} (hnr : nr ≤ b) : ∀ (ts : List Byte) (p : Nat)
    {live : List Branch}, live.length ≤ 16 * b → (trellis tbl pick b nr p ts live).length ≤ 16 * b
  | [], _, _, h => h
  | t :: ts, p, live, _ => by
    refine trellis_length_le tbl pick hnr ts (p + 1) ?_
    rw [expand_length, Nat.mul_comm]
    exact Nat.mul_le_mul_left 16 (survivors_length_le hnr)

/-- Settles O32: the root has scored no target, and every position keeps the scores and the bound. -/
theorem liveBranchesAreReplays : Obligations.LiveBranchesAreReplays := by
  intro tbl pick b nr b0 targets hb hnr
  refine ⟨fun x hx => ?_, trellis_length_le tbl pick hnr targets 1 (by rw [List.length_singleton]; omega)⟩
  obtain ⟨⟨hlength, hrange, hstate⟩, herr⟩ := trellis_scores_root tbl pick b nr b0 targets x hx
  exact ⟨hlength, hrange, hstate, herr⟩

/-! A beam that never prunes (R258 (d)). -/

/-- While the whole tree below the live branches fits in the beam, each of them is extended by every code sequence. -/
theorem trellis_complete (tbl : Tables) (pick : Nat → Nat → Nat → Nat) (b nr : Nat) : ∀ (ts : List Byte) (p : Nat) {live : List Branch},
    (∀ k < ts.length, live.length * 16 ^ k ≤ b) → ∀ x ∈ live, ∀ codes : List Byte, codes.length = ts.length →
    (∀ c ∈ codes, c.toNat < 16) → ∃ y ∈ trellis tbl pick b nr p ts live, y.hist = x.hist ++ codes
  | [], _, _, _, x, hx, codes, hlen, _ => by
    obtain rfl := List.length_eq_zero_iff.mp hlen
    exact ⟨x, hx, (List.append_nil _).symm⟩
  | t :: ts, p, live, hfits, x, hx, c :: codes, hlen, hcodes => by
    obtain ⟨hc, hcodes⟩ := List.forall_mem_cons.mp hcodes
    have hall : survivors pick b nr p (sortBranches live) = sortBranches live := by
      refine survivors_of_le ?_
      rw [sortBranches_length]
      simpa using hfits 0 (Nat.succ_pos _)
    have hchild : childBranch tbl t x c.toNat ∈ expand tbl (sortBranches live) t :=
      mem_expand.mpr ⟨x, (sortBranches_perm live).mem_iff.mpr hx, c.toNat, hc, rfl⟩
    have hrest : ∀ k < ts.length, (expand tbl (sortBranches live) t).length * 16 ^ k ≤ b := by
      intro k hk
      rw [expand_length, sortBranches_length, Nat.mul_assoc, ← Nat.pow_succ']
      exact hfits (k + 1) (Nat.succ_lt_succ hk)
    obtain ⟨y, hy, hhist⟩ := trellis_complete tbl pick b nr ts (p + 1) hrest _ hchild codes (Nat.succ.inj hlen) hcodes
    refine ⟨y, by rwa [trellis, hall], ?_⟩
    rw [hhist, childBranch, ofNat_toNat_byte, ← List.append_cons]

/-- Settles O35: the code sequence is that of a live branch, whose error is that of its replay, and the winner's is no larger. -/
theorem wideBeamIsGloballyOptimal : Obligations.WideBeamIsGloballyOptimal := by
  intro tbl pick b nr b0 targets x _ hbeam hwin codes hlen hcodes
  have hfits : ∀ k < targets.length, [rootBranch 4 b0].length * 16 ^ k ≤ b := by
    intro k hk
    rw [List.length_singleton, Nat.one_mul]
    exact (Nat.pow_le_pow_right (by decide) (Nat.le_sub_one_of_lt hk)).trans hbeam
  obtain ⟨y, hy, hhist⟩ := trellis_complete tbl pick b nr targets 1 hfits _ List.mem_cons_self codes hlen hcodes
  have hyhist : y.hist = codes := hhist
  calc x.err ≤ y.err := winner_err_le hwin y hy
    _ = squaredError (replay tbl (seedSnapshot 4 b0) codes) targets := by
      rw [(trellis_scores_root tbl pick b nr b0 targets y hy).err, hyhist]

end Sys2Proof.Machine
end

section
/-! PROOF. What ENCT leaves (O34): it commits the winner of the trellis. -/

namespace Sys2Proof.Machine

/-- An encoder commits the winner of the store that evolved from the branch of the first byte (R200, R250, R257). -/
theorem encodeBody_of_winner {evolve : List Byte → List Branch → List Branch} {s : State} {b : Byte} {targets : List Byte} {x : Branch}
    (hin : s.inBytes = b :: targets) (hwin : winner (evolve targets [rootBranch s.w b]) = some x) :
    encodeBody evolve s = .ok (commitWinner ((s.emit b).setBranches (evolve targets [rootBranch s.w b])) x) := by
  simp only [encodeBody, hin, State.setBranches_branches, hwin]
  rfl

/-- ENCT of a legal request uses up its draw and commits the winner of the trellis (R250, R257). -/
theorem exec_enct_of_requestOk {s : State} (h : RequestOk .enct s) :
    ∃ b targets l x, s.inBytes = b :: targets ∧
      winner (trellis s.tbl (Config.pick s.draw) s.b s.nr 1 targets [rootBranch 4 b]) = some x ∧
      exec .enct s = .next ((s.setDraw (s.draw + 1)).encoded b l x) := by
  obtain ⟨-, -, honly, -, hbeam, -⟩ := h.facts
  obtain ⟨hb, hnr⟩ := hbeam rfl
  obtain ⟨b, targets, hbt⟩ := List.exists_cons_of_ne_nil (h.inBytes_ne_nil (by decide))
  have hne := trellis_ne_nil s.tbl (Config.pick s.draw) hb hnr targets 1 (List.cons_ne_nil (rootBranch s.w b) [])
  obtain ⟨x, hx⟩ := Option.isSome_iff_exists.mp (winner_isSome hne)
  have hbody := encodeBody_of_winner (s := s.startInit.setDraw (s.draw + 1)) hbt hx
  have hexec : exec .enct s = .next (endOperation (enctBody (Config.pick s.draw) s.startInit)) := exec_of_requestOk h
  have hwin : winner (trellis s.tbl (Config.pick s.draw) s.b s.nr 1 targets [rootBranch 4 b]) = some x := honly rfl ▸ hx
  exact ⟨b, targets, _, x, hbt, hwin, hexec.trans (congrArg (Host.Outcome.next ∘ endOperation) hbody)⟩

theorem State.spares_finishOk (s : State) : s.Spares s.finishOk := ⟨rfl, rfl, rfl, rfl, fun _ => rfl, fun _ => rfl⟩

/-! The end of an encoder that commits a replay of `n` codes (R200, R250). -/

section
variable {s : State} {b : Byte} {l : List Branch} {x : Branch} {n : Nat} (hw : s.w = 2 ∨ s.w = 4)
  (hx : Replays s.tbl s.w (seedSnapshot s.w b) n x.hist x.state)
include hw hx

theorem State.encoded_outBytes : (s.encoded b l x).outBytes = b :: packCodes s.w (padCode s.cfg s.w) x.hist :=
  (State.encoded_emits hw hx.inRange).outBytes rfl

theorem State.encoded_outLen : (s.encoded b l x).outLen = 1 + (n + cpb s.w - 1) / cpb s.w := by
  rw [(State.encoded_emits hw hx.inRange).len, State.startInit_outLen, Nat.zero_add, List.length_cons, packCodes_length hw, hx.length,
    Nat.add_comm]

theorem State.encoded_spares : s.startInit.Spares (s.encoded b l x) := by
  have hwidth : x.state.width = s.w := hx.width_eq.trans (seedSnapshot_width hw b)
  have hhead := (State.spares_emit s.startInit b).trans (State.spares_setBranches _ l)
  exact (hhead.trans (commitWinner_spares hw rfl rfl hx.inRange hwidth)).trans (State.spares_finishOk _)

end

theorem State.snapshot_of_w4 {s : State} (h : s.w = 4) : s.snapshot = .four { prev := s.prev, acc := s.acc } := if_pos h

/-- Settles O34: the winner is a replay of a code for each target, and its commit packs its codes. -/
theorem enctEncodesTheWinner : Obligations.EnctEncodesTheWinner := by
  intro s h
  obtain ⟨b, targets, l, x, hbt, hwin, hexec⟩ := exec_enct_of_requestOk h
  obtain ⟨-, -, honly, -⟩ := h.facts
  have hw : (s.setDraw (s.draw + 1)).w = 4 := honly rfl
  have hlen : targets.length = s.inLen - 1 := by rw [← inBytes_length h.input, hbt, List.length_cons, Nat.add_sub_cancel]
  have hx : Replays (s.setDraw (s.draw + 1)).tbl (s.setDraw (s.draw + 1)).w (seedSnapshot (s.setDraw (s.draw + 1)).w b)
      targets.length x.hist x.state := by
    rw [hw]
    exact (trellis_scores_root s.tbl _ s.b s.nr b targets x (winner_mem hwin)).replays
  have hspares := State.encoded_spares (l := l) (.inr hw) hx
  refine ⟨_, b, targets, x, hbt, hwin, hexec, rfl, rfl, hx.length.trans hlen, ?_, ?_, ?_, State.encoded_prevSet, hspares.draw⟩
  · rw [State.encoded_outBytes (.inr hw) hx, hw, State.setDraw_cfg]
  · rw [State.encoded_outLen (.inr hw) hx, hw, hlen]; rfl
  · rw [← State.encoded_snapshot hx, State.snapshot_of_w4 (hspares.w.trans hw)]

end Sys2Proof.Machine
end

section
/-! PROOF. ENCT with a beam of one and no random slots does what ENCX with groups of one does (O36): each keeps one branch, the first
child of least error. -/

namespace Sys2Proof.Machine

/-! A beam of one. -/

/-- With `B = 1` and `NR = 0` the winner alone survives, whatever is drawn (R253, R257). -/
theorem survivors_one {live : List Branch} {x : Branch} (h : winner live = some x) (pick : Nat → Nat → Nat → Nat) (p : Nat) :
    survivors pick 1 0 p (sortBranches live) = [x] := by
  obtain ⟨rest, hsorted⟩ := sortBranches_head h
  rw [hsorted]
  cases rest with
  | nil => exact survivors_of_le le_rfl
  | cons y rest =>
    rw [survivors_of_lt (by simp)]
    rfl

/-! A group of one. -/

/-- For one target the combination of index `k` is the code `k`, so its commit is the child by that code (R203, R207, R256). -/
theorem commitGroup_candidate (tbl : Tables) (x : Branch) (t : Byte) {k : Nat} (hk : k < 16) :
    commitGroup 16 1 x (some (candidate tbl 16 x.state [t] k)) = childBranch tbl t x k := by
  have hcode : comboCodes true 16 1 k = [BitVec.ofNat 8 k] := by
    rw [comboCodes_succ, Nat.mod_eq_of_lt hk]
    rfl
  simp only [commitGroup, candidate, Config.comboMsdFirst, List.length_singleton, hcode, score, childBranch, Nat.add_zero]

/-- Commits to one branch compare as the candidates do (R206, R257). -/
theorem betterBranch_commitGroup (bas g : Nat) (x : Branch) (best : Option Best) (y : Best) :
    betterBranch (best.map fun z => commitGroup bas g x (some z)) (commitGroup bas g x (some y))
      = (better best y).map fun z => commitGroup bas g x (some z) := by
  cases best with
  | none => rfl
  | some z =>
    simp only [better, betterBranch, commitGroup, Option.map_some, Nat.add_lt_add_iff_left, apply_ite (Option.map _)]

/-- The first child of least error is the branch that the search of a group of one commits (R206, R256, R257). -/
theorem winner_expand_one (tbl : Tables) (x : Branch) (t : Byte) :
    winner (expand tbl [x] t) = some (commitGroup 16 1 x (search tbl 16 x.state [t])) := by
  have hsearch : winner (expand tbl [x] t) = (search tbl 16 x.state [t]).map fun z => commitGroup 16 1 x (some z) := by
    have hfold := List.foldl_hom (l := List.range 16) (init := (none : Option Best)) (Option.map fun z => commitGroup 16 1 x (some z))
      (g₁ := fun best k => better best (candidate tbl 16 x.state [t] k))
      (g₂ := fun best k => betterBranch best (commitGroup 16 1 x (some (candidate tbl 16 x.state [t] k))))
      fun best k => betterBranch_commitGroup 16 1 x best _
    rw [winner, expand, List.flatMap_singleton, List.foldl_map]
    refine (List.foldl_ext _ _ _ fun best k hk => ?_).trans hfold
    rw [commitGroup_candidate tbl x t (List.mem_range.mp hk)]
  obtain ⟨y, hy, -⟩ := searchIsOptimalWithinAGroup tbl 16 x.state [t] (by decide)
  rw [hsearch, hy]
  rfl

/-- Position by position the winner of a beam of one is the committed branch of groups of one (R200, R250). -/
theorem winner_trellis_one (tbl : Tables) (pick : Nat → Nat → Nat → Nat) : ∀ (ts : List Byte) (p : Nat) {live : List Branch} {x : Branch},
    winner live = some x →
    winner (trellis tbl pick 1 0 p ts live) = some (encodeGroups (search tbl 16) 16 1 ts.length ts x)
  | [], _, _, _, h => h
  | t :: ts, p, live, x, h => by
    rw [trellis, survivors_one h]
    exact winner_trellis_one tbl pick ts (p + 1) (winner_expand_one tbl x t)

/-- Settles O36: both commit the same branch, and what the commit of a replay leaves does not depend on the branch store or the draw. -/
theorem beamOfOneEqualsGroupsOfOne : Obligations.BeamOfOneEqualsGroupsOfOne := by
  intro s henct hencx hb hnr hg
  obtain ⟨-, hw, honly, -⟩ := henct.facts
  obtain ⟨b, targets, l, x, hbt, hwin, hexec⟩ := exec_enct_of_requestOk henct
  obtain ⟨b', targets', m, hbt', hexec'⟩ := exec_encx_of_requestOk hencx
  obtain ⟨rfl, rfl⟩ := List.cons.inj (hbt.symm.trans hbt')
  have hbranch : exhaustiveBranch s b targets = x := by
    rw [hb, hnr, winner_trellis_one s.tbl _ targets 1 rfl] at hwin
    rw [exhaustiveBranch, honly rfl, hg]
    exact Option.some.inj hwin
  have hx := exhaustiveBranch_replays hw (hg ▸ Nat.one_pos) b targets
  rw [hbranch] at hx hexec'
  refine ⟨_, _, hexec, hexec', ?_, ?_, rfl, ?_⟩
  · exact (State.encoded_outBytes (s := s.setDraw (s.draw + 1)) hw hx).trans (State.encoded_outBytes hw hx).symm
  · exact (State.encoded_outLen (s := s.setDraw (s.draw + 1)) hw hx).trans (State.encoded_outLen hw hx).symm
  · exact (State.encoded_snapshot (s := s.setDraw (s.draw + 1)) hx).trans (State.encoded_snapshot hx).symm

end Sys2Proof.Machine
end

section
/-! PROOF. Every operation ends idle, and an error leaves no output (O15): what each of the two ends of an operation leaves. -/

namespace Sys2Proof.Machine

/-- A raised error leaves no output, `PREV` without a value and a legal `ACC` (R290, R291, R31). -/
theorem State.raiseError_leaves_nothing (u : State) (e : Err) :
    (u.raiseError e).outLen = 0 ∧ (u.raiseError e).prevSet = false ∧ accLegal (u.raiseError e).acc :=
  ⟨rfl, rfl, accLegal_two_pow _⟩

/-- Settles O15: an operation ends by raising an error, whatever its body had done by then, or at the end of its body, which has put
the branch store back to what `START` left, the empty one. -/
theorem operationsEndDoneAndErrorsLeaveNoOutput : Obligations.OperationsEndDoneAndErrorsLeaveNoOutput := by
  intro op s t h
  obtain ⟨e, u, -, rfl⟩ | ⟨u, -, -, hworks, rfl⟩ := exec_operation_next h
  · exact ⟨rfl, errCode_le_five e, fun _ => u.raiseError_leaves_nothing e, rfl⟩
  · have hstore : u.finishOk.branches = [] := hworks.store
    exact ⟨rfl, Nat.zero_le 5, fun herr => absurd rfl herr, hstore⟩

end Sys2Proof.Machine
end

section
/-! PROOF. `START` where registers or bytes have no value (O16, O17): which register it finds unwritten, and which byte of `IN`. -/

namespace Sys2Proof.Machine

/-! Refusals. -/

/-- An idle block whose selector has no value is refused (R322). -/
theorem step_of_opsel_unwritten {s : State} (hd : s.done = true) (ho : s.has.opsel = false) :
    step s = .refused (.noValue .opsel) := by
  simp [step, fetch_idle hd, fetchRequest, ho]

theorem exec_of_unwritten {op : Operation} {s : State} {r : OperandReg} (h : unwritten op s = some r) :
    exec op.instr s = .refused (.noValue r) := by
  simp only [exec_operation, start, h]

theorem exec_of_missingByte {op : Operation} {s : State} {a : Nat} (hregs : unwritten op s = none)
    (h : missingByte op s = some a) : exec op.instr s = .refused (.noValueByte a) := by
  simp only [exec_operation, start, hregs, h]

/-! The first register without a value (R322). -/

theorem usesGroup_iff {op : Operation} : usesGroup op = true ↔ op = .encx ∨ op = .encs := by
  cases op <;> simp [usesGroup]

theorem usesBeam_iff {op : Operation} : usesBeam op = true ↔ op = .enct := by
  cases op <;> simp [usesBeam]

theorem passes_iff {n : Nat} {op : Operation} {s : State} : passes n op s = true ↔ firstError ((checks op s).take n) = none :=
  Option.isNone_iff_eq_none

/-- `W` is read by check 2, behind the check of the engine alone (R101). -/
theorem unwritten_eq_w {op : Operation} {s : State} (hw : s.has.w = false) (hengine : absentEngine s.cfg op = false) :
    unwritten op s = some .w := by
  have hpass : passes 1 op s = true := by simp [passes_iff, checks, firstError, hengine]
  simp [unwritten, hw, hpass]

section
variable {op : Operation} {s : State} (hw : s.has.w = true)
include hw

theorem unwritten_eq_g (hop : usesGroup op = true) (hg : s.has.g = false) (hpass : passes 4 op s = true) :
    unwritten op s = some .g := by
  simp [unwritten, hw, hop, hg, hpass]

theorem unwritten_eq_b (hb : s.has.b = false) (hpass : passes 4 .enct s = true) : unwritten .enct s = some .b := by
  simp [unwritten, hw, usesGroup, usesBeam, hb, hpass]

theorem unwritten_eq_nr (hb : s.has.b = true) (hnr : s.has.nr = false) (hpass : passes 4 .enct s = true) :
    unwritten .enct s = some .nr := by
  simp [unwritten, hw, usesGroup, usesBeam, hb, hnr, hpass]

/-- Where `W` and the operation's own parameters have values, only `INLEN` may lack one; what it ignores does not matter (R322). -/
theorem unwritten_of_parameters (hg : op = .encx ∨ op = .encs → s.has.g = true)
    (hbeam : op = .enct → s.has.b = true ∧ s.has.nr = true) :
    unwritten op s = if !s.has.inLen && passes 5 op s then some .inLen else none := by
  have hgroup : (usesGroup op && !s.has.g) = false := by simpa [usesGroup_iff] using hg
  have hb : (usesBeam op && !s.has.b) = false := by simpa [usesBeam_iff] using fun h => (hbeam h).1
  have hnr : (usesBeam op && !s.has.nr) = false := by simpa [usesBeam_iff] using fun h => (hbeam h).2
  simp only [unwritten, hw, hgroup, hb, hnr, Bool.not_true, Bool.false_and, Bool.false_eq_true, if_false]

end

/-! The first byte of `IN` without a value (R322). -/

theorem stopsAt_eq_false_iff {op : Operation} {w : Nat} {x : Byte} : stopsAt op w x = false ↔ (op = .pack → x.toNat < base w) := by
  cases op <;> simp [stopsAt]

/-- Reading in order stops at the first byte without a value, when no byte before it ends the reading. -/
theorem firstMissing_append_cons {m : Memory} {stop : Byte → Bool} {a : Nat} (ha : m.read a = none) (rest : List Nat) :
    ∀ (before : List Nat), (∀ k ∈ before, ∃ x, m.read k = some x ∧ stop x = false) →
      firstMissing m stop (before ++ a :: rest) = some a
  | [], _ => by simp [firstMissing, ha]
  | k :: before, h => by
    obtain ⟨⟨x, hx, hstop⟩, htail⟩ := List.forall_mem_cons.mp h
    simpa [firstMissing, hx, hstop] using firstMissing_append_cons ha rest before htail

theorem firstMissing_range {m : Memory} {stop : Byte → Bool} {a n : Nat} (han : a < n) (ha : m.read a = none)
    (hbefore : ∀ k < a, ∃ x, m.read k = some x ∧ stop x = false) : firstMissing m stop (List.range n) = some a := by
  obtain ⟨d, rfl⟩ := Nat.exists_eq_add_of_lt han
  rw [Nat.add_assoc, List.range_add, List.range_succ_eq_map, List.map_cons]
  exact firstMissing_append_cons ha _ _ fun k hk => hbefore k (List.mem_range.mp hk)

theorem missingByte_eq {op : Operation} {s : State} {a : Nat} (hc : firstError (checks op s) = none) (han : a < s.inLen)
    (ha : s.inMem.read a = none) (hbefore : ∀ k < a, ∃ x, s.inMem.read k = some x ∧ (op = .pack → x.toNat < base s.w)) :
    missingByte op s = some a := by
  have hfirst : firstMissing s.inMem (stopsAt op s.w) (List.range s.inLen) = some a :=
    firstMissing_range han ha fun k hk => (hbefore k hk).imp fun _ => And.imp_right stopsAt_eq_false_iff.mpr
  simp [missingByte, hfirst, passes_seven, hc]

/-- Settles O16, by the first register that `START` finds without a value, and the first byte. -/
theorem requestsWithoutValuesAreRefused : Obligations.RequestsWithoutValuesAreRefused := by
  refine ⟨fun s => step_of_opsel_unwritten, ?w, ?g, ?b, ?nr, ?inLen, ?byte⟩
  case w => exact fun op s hw hengine => exec_of_unwritten (unwritten_eq_w hw hengine)
  case g => exact fun op s hop hw hg hc => exec_of_unwritten (unwritten_eq_g hw (usesGroup_iff.mpr hop) hg (passes_iff.mpr hc))
  case b => exact fun s hw hb hc => exec_of_unwritten (unwritten_eq_b hw hb (passes_iff.mpr hc))
  case nr => exact fun s hw hb hnr hc => exec_of_unwritten (unwritten_eq_nr hw hb hnr (passes_iff.mpr hc))
  case inLen =>
    intro op s hw hg hbeam hinLen hc
    refine exec_of_unwritten ?_
    simp [unwritten_of_parameters hw hg hbeam, hinLen, passes_iff.mpr hc]
  case byte =>
    intro op s a hw hg hbeam hinLen hc han ha hbefore
    refine exec_of_missingByte ?_ (missingByte_eq hc han ha hbefore)
    simp [unwritten_of_parameters hw hg hbeam, hinLen]

/-- Settles O17: these three operations use no parameter, so that `START` finds everything it reads written, and answers. -/
theorem ignoredRegistersMayBeUnwritten : Obligations.IgnoredRegistersMayBeUnwritten := by
  intro op s hop hw hinLen hin
  have hgroup : ¬(op = .encx ∨ op = .encs) := by obtain rfl | rfl | rfl := hop <;> decide
  have hbeam : op ≠ .enct := by obtain rfl | rfl | rfl := hop <;> decide
  have hregs : unwritten op s = none := by
    simp [unwritten_of_parameters hw (absurd · hgroup) (absurd · hbeam), hinLen]
  have hexec : exec op.instr s = .next (runOperation op (op.body s) s) := by
    rw [exec_operation, start_eq_next]
    exact ⟨hregs, missingByte_of_inputWritten hin, rfl⟩
  exact ⟨_, hexec, exec_operation_done hexec⟩

end Sys2Proof.Machine
end

section
/-! PROOF. The values that hardware reset leaves, of a new block (O1) and of an idle one (O44). -/

namespace Sys2Proof.Machine

/-- Settles O1, field by field on the reset state. -/
theorem resetLeavesTheSpecifiedValues : Obligations.ResetLeavesTheSpecifiedValues :=
  ⟨rfl, rfl, rfl, rfl, rfl, rfl, rfl, rfl, rfl, rfl, rfl, rfl, Memory.read_nil, Memory.read_nil⟩

/-- Settles O44: an idle block answers with the reset state over its own tables and parameters, whose selector has no value. -/
theorem hardwareResetOfAnIdleBlock : Obligations.HardwareResetOfAnIdleBlock := by
  refine fun s => ⟨fun hd => ⟨s.hardwareReset, if_pos hd, ?_⟩, fun hb => by simp [hardwareReset, hb]⟩
  exact ⟨rfl, rfl, rfl, rfl, rfl, rfl, rfl, rfl, rfl, rfl, rfl, rfl, Memory.read_nil, Memory.read_nil, rfl, rfl, rfl, rfl, rfl,
    step_of_opsel_unwritten rfl rfl⟩

end Sys2Proof.Machine
end
